-- ==== Sys2Proof/Word.lean ====
section
/-!
DEFINITION. The words of PCA9685-SEQ: the fixed widths of `spec/00_scope.md` R9 and
`spec/30_encoding.md` R81, and the four kinds of channel register (R85). All are unsigned (R9).
-/

namespace Sys2Proof

/-- `u8` (R9): a register address, a data byte, a channel operand. -/
abbrev Byte := BitVec 8

/-- `u7` (R9): an I2C device address, 0 to 127. -/
abbrev DevAddr := BitVec 7

/-- A bit offset 0 to 7 (R84), bit 0 the least significant (R9). -/
abbrev BitOffset := BitVec 3

/-- A position operand, the whole of field `B` (R84). -/
abbrev Position := BitVec 16

/-- One command word (R80): 32 bits, presented whole. -/
abbrev CommandWord := BitVec 32

/-- The kind of a channel register (R85, R170): `on_low`, `on_high`, `off_low`, `off_high`. -/
inductive Kind
  | onLow
  | onHigh
  | offLow
  | offHigh
deriving DecidableEq, Repr

end Sys2Proof
end

