-- ==== Sys2Proof/Syntax.lean ====
section
/-!
DEFINITION. The nine commands of `spec/30_encoding.md` R83, one constructor per row of
`spec/opcode_table.json`. Operands have exactly the widths of R82 and R84, so every term of `Instr`
is representable in a command word. (`open` is a word of Lean: the first two are `openDevice` and
`closeDevice`.)
-/

namespace Sys2Proof

inductive Instr
  /-- OPEN `a` (R150), format `F_ADDR`. -/
  | openDevice (a : DevAddr)
  /-- CLOSE (R160), format `F_NONE`. -/
  | closeDevice
  /-- SETPOS `c, p` (R190), format `F_CH_POS`. A channel above 15 is representable (R84). -/
  | setpos (c : Byte) (p : Position)
  /-- WRREG `r, v` (R134), format `F_REG_VAL`. -/
  | wrreg (r : Byte) (v : Byte)
  /-- RDREG `r` (R135), format `F_REG`. -/
  | rdreg (r : Byte)
  /-- SETBIT `r, b` (R136), format `F_REG_BIT`. -/
  | setbit (r : Byte) (b : BitOffset)
  /-- CLRBIT `r, b` (R137), format `F_REG_BIT`. -/
  | clrbit (r : Byte) (b : BitOffset)
  /-- CHWR `k, c, v` (R174), format `F_CH_KIND_VAL`. -/
  | chwr (k : Kind) (c : Byte) (v : Byte)
  /-- CHRD `k, c` (R175), format `F_CH_KIND`. -/
  | chrd (k : Kind) (c : Byte)
deriving DecidableEq, Repr

end Sys2Proof
end

