-- ==== Sys2Proof/Decode.lean ====
section
/-!
DEFINITION. Decoding and encoding of command words: fields (`spec/30_encoding.md` R81), formats
(R82), the opcode map (R83), operand assembly (R84, R85) and the illegal encodings with their
match/mask rows (R87).
-/

namespace Sys2Proof

/-! ### Fields (R81) -/

/-- `OPC = w[31:24]` -/
def opcField (w : CommandWord) : Byte := w.extractLsb' 24 8

/-- `A = w[23:16]` -/
def aField (w : CommandWord) : Byte := w.extractLsb' 16 8

/-- `B = w[15:0]` -/
def bField (w : CommandWord) : BitVec 16 := w.extractLsb' 0 16

/-- The kind's number (R85): its base address minus 0x06. -/
def Kind.code : Kind → BitVec 2
  | .onLow => 0
  | .onHigh => 1
  | .offLow => 2
  | .offHigh => 3

/-- The kind of a number; "All four values are legal" (R85). -/
def Kind.ofCode (k : BitVec 2) : Kind :=
  if k = 0 then .onLow else if k = 1 then .onHigh else if k = 2 then .offLow else .offHigh

/-! ### Decoding -/

/-- Why a word is illegal (R87). -/
inductive IllegalWord
  /-- "its `OPC` is not one of the nine values" -/
  | unassignedOpcode (opc : Byte)
  /-- "any bit its format marks reserved is 1" -/
  | reservedBitSet (opc : Byte)
deriving DecidableEq, Repr

/-- A decoded command, provided its format's reserved bits are zero. -/
def checkedFormat (opc : Byte) (reservedZero : Bool) (i : Instr) : Except IllegalWord Instr :=
  if reservedZero then .ok i else .error (.reservedBitSet opc)

/-- The decoder: `OPC` alone selects the command, then the word is checked against the command's
format (R82, R83). Total; every illegal word (R87) is rejected by name. -/
def decode (w : CommandWord) : Except IllegalWord Instr :=
  let opc := opcField w
  let a := aField w
  let b := bField w
  if opc = 0x01 then
    checkedFormat opc (a.extractLsb' 7 1 == 0 && b == 0) (.openDevice (a.extractLsb' 0 7))
  else if opc = 0x02 then
    checkedFormat opc (a == 0 && b == 0) .closeDevice
  else if opc = 0x03 then
    checkedFormat opc true (.setpos a b)
  else if opc = 0x10 then
    checkedFormat opc (b.extractLsb' 8 8 == 0) (.wrreg a (b.extractLsb' 0 8))
  else if opc = 0x11 then
    checkedFormat opc (b == 0) (.rdreg a)
  else if opc = 0x12 then
    checkedFormat opc (b.extractLsb' 3 13 == 0) (.setbit a (b.extractLsb' 0 3))
  else if opc = 0x13 then
    checkedFormat opc (b.extractLsb' 3 13 == 0) (.clrbit a (b.extractLsb' 0 3))
  else if opc = 0x20 then
    checkedFormat opc (b.extractLsb' 10 6 == 0)
      (.chwr (Kind.ofCode (b.extractLsb' 8 2)) a (b.extractLsb' 0 8))
  else if opc = 0x21 then
    checkedFormat opc (b.extractLsb' 10 6 == 0 && b.extractLsb' 0 8 == 0)
      (.chrd (Kind.ofCode (b.extractLsb' 8 2)) a)
  else .error (.unassignedOpcode opc)

/-! ### Encoding -/

/-- `OPC` of a command (R83). -/
def Instr.opcode : Instr → Byte
  | .openDevice _ => 0x01
  | .closeDevice => 0x02
  | .setpos _ _ => 0x03
  | .wrreg _ _ => 0x10
  | .rdreg _ => 0x11
  | .setbit _ _ => 0x12
  | .clrbit _ _ => 0x13
  | .chwr _ _ _ => 0x20
  | .chrd _ _ => 0x21

/-- A word from its three fields (R81). -/
def wordOfFields (opc a : Byte) (b : BitVec 16) : CommandWord := opc ++ a ++ b

/-- The command word of a command (R82, R83, R85): reserved bits zero. -/
def encode (i : Instr) : CommandWord :=
  match i with
  | .openDevice a => wordOfFields i.opcode (0#1 ++ a) 0
  | .closeDevice => wordOfFields i.opcode 0 0
  | .setpos c p => wordOfFields i.opcode c p
  | .wrreg r v => wordOfFields i.opcode r (0#8 ++ v)
  | .rdreg r => wordOfFields i.opcode r 0
  | .setbit r b => wordOfFields i.opcode r (0#13 ++ b)
  | .clrbit r b => wordOfFields i.opcode r (0#13 ++ b)
  | .chwr k c v => wordOfFields i.opcode c (0#6 ++ k.code ++ v)
  | .chrd k c => wordOfFields i.opcode c (0#6 ++ k.code ++ 0#8)

/-! ### The match/mask table of R87 -/

/-- One row: a word `w` is a legal form of the row's command when `w & mask = match`. -/
structure OpcodeRow where
  mnemonic : String
  matchBits : CommandWord
  maskBits : CommandWord
deriving DecidableEq, Repr

def OpcodeRow.admits (r : OpcodeRow) (w : CommandWord) : Bool := w &&& r.maskBits == r.matchBits

/-- The nine rows of R87. -/
def opcodeRows : List OpcodeRow :=
  [ ⟨"OPEN", 0x01000000, 0xFF80FFFF⟩,
    ⟨"CLOSE", 0x02000000, 0xFFFFFFFF⟩,
    ⟨"SETPOS", 0x03000000, 0xFF000000⟩,
    ⟨"WRREG", 0x10000000, 0xFF00FF00⟩,
    ⟨"RDREG", 0x11000000, 0xFF00FFFF⟩,
    ⟨"SETBIT", 0x12000000, 0xFF00FFF8⟩,
    ⟨"CLRBIT", 0x13000000, 0xFF00FFF8⟩,
    ⟨"CHWR", 0x20000000, 0xFF00FC00⟩,
    ⟨"CHRD", 0x21000000, 0xFF00FCFF⟩ ]

/-- R87: a word is legal when it is a legal form of some row. -/
def legalWord (w : CommandWord) : Bool := opcodeRows.any fun r => r.admits w

/-- A command's mnemonic (R83). -/
def Instr.mnemonic : Instr → String
  | .openDevice _ => "OPEN"
  | .closeDevice => "CLOSE"
  | .setpos _ _ => "SETPOS"
  | .wrreg _ _ => "WRREG"
  | .rdreg _ => "RDREG"
  | .setbit _ _ => "SETBIT"
  | .clrbit _ _ => "CLRBIT"
  | .chwr _ _ _ => "CHWR"
  | .chrd _ _ => "CHRD"

/-! ### The host's table words -/

/-- The command word a table word stands for: the table's rows have 32 bits, one word, presented
whole with no byte order (R80); a bit above `nbits` is 0. -/
def tableWord (nbits w : Nat) : CommandWord := BitVec.ofNat 32 (w % 2 ^ nbits)

/-- The command the decoder reads from an opcode-table word. -/
def decodeTableWord (nbits w : Nat) : Option Instr :=
  match decode (tableWord nbits w) with
  | .ok i => some i
  | .error _ => none

end Sys2Proof
end

