-- ==== Sys2Proof/Config.lean ====
section
/-!
DEFINITION. Constants (`spec/00_scope.md` R7), implementation parameters (R8) and the one value the
spec leaves open without a default, `ROUND_TIE` (D14).
-/

namespace Sys2Proof

namespace Config

/-! ### The fixed constants of R7 -/

def nChannels : Nat := 16
def periodTicks : Nat := 4096
def oscHz : Nat := 25000000
def updateRateHz : Nat := 50
def prescale : Nat := 121
def pulseStart : Nat := 100
def pulseEndLow : Nat := 305
def pulseEndHigh : Nat := 509
def pulseEndMid : Nat := 407
def posLow : Nat := 1000
def posHigh : Nat := 2000
def settleMs : Nat := 100
def chBaseOnL : Nat := 0x06
def chBaseOnH : Nat := 0x07
def chBaseOffL : Nat := 0x08
def chBaseOffH : Nat := 0x09
def chStride : Nat := 4

/-- `BIT_SLEEP` (R7): offset of the `sleep` flag in `mode1`, fixed at 4. -/
def bitSleep : BitOffset := 4

/-- `POS_MIN_EXCL` (R8): the exclusive lower bound of a position, fixed at 0. -/
def posMinExcl : Nat := 0

end Config

/-- `ROUND_TIE` (R8): how the scaler resolves an exact half. -/
inductive RoundTie
  | halfEven
  | halfUp
deriving DecidableEq, Repr, Inhabited

/-- The implementation parameters of R8. The spec asks that each be an argument of the model; a
statement about every state is a statement about every parameter choice (log 3). -/
structure Params where
  /-- `REG_MODE1` -/
  regMode1 : Byte
  /-- `REG_MODE2` -/
  regMode2 : Byte
  /-- `REG_ALL_ON_L` -/
  regAllOnL : Byte
  /-- `REG_ALL_ON_H` -/
  regAllOnH : Byte
  /-- `REG_ALL_OFF_L` -/
  regAllOffL : Byte
  /-- `REG_ALL_OFF_H` -/
  regAllOffH : Byte
  /-- `REG_PRE_SCALE` -/
  regPreScale : Byte
  /-- `BIT_ALLCALL` -/
  bitAllcall : BitOffset
  /-- `BIT_RESTART` -/
  bitRestart : BitOffset
  /-- `ROUND_TIE` -/
  roundTie : RoundTie
  /-- `POS_MAX_EXCL`, an integer (R8), never a machine word -/
  posMaxExcl : Nat
deriving DecidableEq, Repr

/-- The defaults of R8 beside a given tie rule, for which R8 has no default. -/
def Params.default (tie : RoundTie) : Params where
  regMode1 := 0x00
  regMode2 := 0x01
  regAllOnL := 0xFA
  regAllOnH := 0xFB
  regAllOffL := 0xFC
  regAllOffH := 0xFD
  regPreScale := 0xFE
  bitAllcall := 0
  bitRestart := 7
  roundTie := tie
  posMaxExcl := 3000

/-- FREE VALUE. `ROUND_TIE` of the machine after reset: OPEN in R8, no default (D14, N6: "Must not
assume either rule"). No body: nothing evaluates it (log 3). -/
opaque Config.roundTie : RoundTie

end Sys2Proof
end

