-- ==== Sys2Proof/Machine/Flags.lean ====
section
/-!
DEFINITION. The block has no status flags (`spec/10_state.md` R27). What it has of flags are the
single bits of chip registers: the four bit utilities (`spec/40_bit_utilities.md` R110 to R114), total
functions on natural numbers, their use on bytes, and the `mode1` flags the block touches (R34).
-/

namespace Sys2Proof.Machine

/-- `test_bit` (R111, laws R115): true iff bit `offset` of `value` is set. -/
def testBit (value offset : Nat) : Bool := (value >>> offset) &&& 1 == 1

/-- `set_bit` (R112, laws R115): `value` with bit `offset` forced to 1. -/
def setBit (value offset : Nat) : Nat := value ||| (1 <<< offset)

/-- `get_byte` (R113): the `n`-th byte of `value`, 0 the least significant. -/
def getByte (value n : Nat) : Nat := (value >>> (8 * n)) &&& 0xFF

/-- `clear_bit` (R114, laws R115): `value` with bit `offset` forced to 0. -/
def clearBit (value offset : Nat) : Nat := value - (value &&& (1 <<< offset))

/-- `set_bit` on a register byte: "the result is below 256, so no truncation is ever needed" (R112). -/
def setBitByte (b : Byte) (o : BitOffset) : Byte := BitVec.ofNat 8 (setBit b.toNat o.toNat)

/-- `clear_bit` on a register byte: "the result never exceeds `value`" (R114). -/
def clearBitByte (b : Byte) (o : BitOffset) : Byte := BitVec.ofNat 8 (clearBit b.toNat o.toNat)

/-- `get_byte` as a data byte: "the result is always 0 to 255" (R113). -/
def byteOf (value n : Nat) : Byte := BitVec.ofNat 8 (getByte value n)

/-- The flags of `mode1` the block touches (R34). -/
inductive Mode1Flag
  | restart
  | sleep
  | allcall
deriving DecidableEq, Repr

/-- The offset of a `mode1` flag (R34): `sleep` is bit 4, the two others are parameters. -/
def Mode1Flag.offset (p : Params) : Mode1Flag → BitOffset
  | .restart => p.bitRestart
  | .sleep => Config.bitSleep
  | .allcall => p.bitAllcall

/-! ### Flags listed for information (R34, R35; log 11): "no rule depends on them" -/

/-- The `mode1` flags DOC0 does not name (R34). -/
inductive Mode1InfoFlag
  | extclk
  | ai
  | sub1
  | sub2
  | sub3
deriving DecidableEq, Repr

/-- Their offsets (R34; PRESUMED, log 11). -/
def Mode1InfoFlag.offset : Mode1InfoFlag → BitOffset
  | .extclk => 6
  | .ai => 5
  | .sub1 => 3
  | .sub2 => 2
  | .sub3 => 1

/-- The fields of `mode2` (R35). -/
inductive Mode2Field
  | invrt
  | och
  | outdrv
  | outne
  | reserved
deriving DecidableEq, Repr

/-- The highest and the lowest bit of a `mode2` field (R35; PRESUMED, log 11). -/
def Mode2Field.bits : Mode2Field → BitOffset × BitOffset
  | .invrt => (4, 4)
  | .och => (3, 3)
  | .outdrv => (2, 2)
  | .outne => (1, 0)
  | .reserved => (7, 5)

end Sys2Proof.Machine
end

