-- ==== Sys2Proof/Machine/State.lean ====
section
/-!
DEFINITION. The state of PCA9685-SEQ (`spec/10_state.md` R20 to R29, R40), the events of its trace
(`spec/00_scope.md` R14), the moves of its environment (R6, `spec/20_memory.md` R55), and the reasons
a step of the model can stop.
-/

namespace Sys2Proof.Machine

/-- `LC` (R21). -/
inductive Lifecycle
  /-- 0b00: no successful or failed OPEN since reset -/
  | unopened
  /-- 0b01: the last OPEN completed all its steps and no CLOSE followed -/
  | ready
  /-- 0b10: a CLOSE has run -/
  | closed
  /-- 0b11: the last OPEN met a transport error -/
  | failed
deriving DecidableEq, Repr

/-- The flag "idle or executing" of R133: the command port accepts a word only when idle (R80). -/
inductive Phase
  | idle
  | executing
deriving DecidableEq, Repr

/-- The five error kinds (R200). -/
inductive ErrorKind
  | invalidChannel
  | invalidPosition
  | transportError
  | notUsable
  | illegalCommand
deriving DecidableEq, Repr

/-- `CODE` of a response (R86): `OK` or an error kind. -/
inductive Code
  | ok
  | error (e : ErrorKind)
deriving DecidableEq, Repr

/-- The transport's answer to a `write` (R14, R54). The cause of an error is opaque (D29). -/
inductive WriteAnswer
  | ok
  | err
deriving DecidableEq, Repr

/-- The transport's answer to a `write_then_read` of one byte: `ok(b : u8) | err` (R56). -/
inductive ReadAnswer
  | ok (b : Byte)
  | err
deriving DecidableEq, Repr

/-- What the sequencer asks of its transport port or its delay port (R12, R13). -/
inductive Request
  /-- `MemWrite(reg, 1, v)` at device address `a` (R51) -/
  | busW (a : DevAddr) (reg v : Byte)
  /-- `MemRead(reg, 1)` at device address `a` (R52) -/
  | busR (a : DevAddr) (reg : Byte)
  /-- `Delay(ms)` (R215) -/
  | delay (ms : Nat)
deriving DecidableEq, Repr

/-- The events of the trace (R14). No fairness is assumed of what they record: a request may never be
answered (R247, log 15). -/
inductive Event
  /-- `Cmd(w)`: the host presents command word `w` -/
  | cmd (w : CommandWord)
  /-- `BusW(a, reg, v) = ok | err` -/
  | busW (a : DevAddr) (reg v : Byte) (answer : WriteAnswer)
  /-- `BusR(a, reg) = ok(b) | err` -/
  | busR (a : DevAddr) (reg : Byte) (answer : ReadAnswer)
  /-- `Delay(ms)`: one delay request -/
  | delay (ms : Nat)
  /-- `Resp(code, data)` -/
  | resp (code : Code) (data : Byte)
deriving DecidableEq, Repr

/-- One move of the environment (R6): of the host, of the transport, of the delay provider, or of the
reset pin. -/
inductive Input
  /-- the host presents a command word (R80) -/
  | command (w : CommandWord)
  /-- the transport answers a `write` (R55) -/
  | writeAnswer (a : WriteAnswer)
  /-- the transport answers a `write_then_read` (R55) -/
  | readAnswer (a : ReadAnswer)
  /-- the delay provider completes a delay (R215) -/
  | delayDone
  /-- the reset input is asserted (R230) -/
  | reset
deriving DecidableEq, Repr

/-- The machine's state: the registers of R20, the flag of R133, the outstanding request, and the
model's own fields (`params`, `inputs`, `trace`). Plain data. -/
structure State where
  /-- `LC`, 2 bits (R21) -/
  lc : Lifecycle
  /-- `ADDR`, 7 bits (R22). "Before the first accepted OPEN it holds no value" (R22): `none` is the
  spec's own state of the register, and R40 forbids a numeric reset value (log 1). -/
  addr : Option DevAddr
  /-- `CMD`, 32 bits (R23); without value after reset (R40, R230) (log 1). -/
  cmd : Option CommandWord
  /-- `T`, 8 bits (R24); without value after reset (R40, R230) and after a failed read (R24)
  (logs 1, 2). -/
  t : Option Byte
  /-- `UPC`, 4 bits (R26): index of the next micro-operation -/
  upc : BitVec 4
  /-- idle or executing (R133) -/
  phase : Phase
  /-- the request that stands on the transport or delay port and has not been answered (R53, R247) -/
  pending : Option Request
  /-- MODEL: the environment's moves still to come, in the order the block takes them (log 4) -/
  inputs : List Input
  /-- MODEL: the event trace of R14, oldest first (log 5); no fairness is assumed (R247, log 15) -/
  trace : List Event
  /-- MODEL: the implementation parameters (R8, R29); no step changes them (log 3) -/
  params : Params
deriving DecidableEq, Repr

/-- Why the machine stops with a fault: only a read of a register that holds no value (R40: "fault on
a read of an absent value, which no rule of this spec can cause"; U12: "no value; a read would `fault`", where
file 93 keeps `fault` apart from its treatments `any value` and `refuse`). Safe: the model says nothing
of what follows. No state that a run reaches raises one (`Safety.lean`, `State.Inv`). -/
inductive Fault
  /-- A transaction at the address in `ADDR` while `ADDR` holds no value. Raised by `uW` and `uR` of
  every command. Safe. -/
  | absentAddr
  /-- A micro-operation to perform while `CMD` holds no value. Raised by the sequencer when it goes
  on with a command. Safe. -/
  | absentCmd
  /-- A use of `T` while `T` holds no value. Raised by the write-back of a read-modify-write and by
  the response of RDREG and CHRD. Safe. -/
  | absentT
deriving DecidableEq, Repr

/-- Why the model refuses to step. -/
inductive Refusal
  /-- An instruction without a meaning, by its mnemonic. Raised by `exec`'s refused arms; there is
  none. Safe. -/
  | notModelled (mnemonic : String)
  /-- The parameters break the constraints of R8, which "a model must check on its parameters and
  refuse otherwise". Raised by `step` alone. Safe. -/
  | badParameters
deriving DecidableEq, Repr

/-- The machine right after reset (R40, R230, R231): lifecycle UNOPENED, `UPC` 0, the other registers
without value, idle, nothing outstanding. No input is listed: a program is what the host presents
(log 4). Parameters: the defaults of R8 with the open tie rule (log 3). -/
def State.reset : State where
  lc := .unopened
  addr := none
  cmd := none
  t := none
  upc := 0
  phase := .idle
  pending := none
  inputs := []
  trace := []
  params := Params.default Config.roundTie

end Sys2Proof.Machine
end

