-- ==== Sys2Proof/Machine/Operands.lean ====
section
/-!
DEFINITION. Operand forms and their validation: the chip register map (`spec/10_state.md` R30),
channel addressing (`spec/43_channel_addressing.md` R170), position validity, the scaler and the
packing of a tick (`spec/44_position_control.md` R185, R186, R188).
-/

namespace Sys2Proof.Machine

/-! ### Channel addressing -/

/-- The base address of a kind (R170). -/
def kindBase : Kind → Nat
  | .onLow => Config.chBaseOnL
  | .onHigh => Config.chBaseOnH
  | .offLow => Config.chBaseOffL
  | .offHigh => Config.chBaseOffH

/-- `channel_register(kind, channel)` (R170) on an unbounded channel, with both tests (C2):
`InvalidChannel` outside 0 to 15, else base plus 4 times the channel. -/
def channelRegister (k : Kind) (channel : Int) : Except ErrorKind Byte :=
  if channel < 0 ∨ channel > 15 then .error .invalidChannel
  else .ok (BitVec.ofNat 8 (kindBase k + Config.chStride * channel.toNat))

/-- The channel operand of a command, field `A` as a `u8` (R84). -/
def channelOperand (c : Byte) : Int := c.toNat

/-! ### The register map (R30) -/

/-- A symbolic register name of R30. -/
inductive RegName
  | mode1
  | mode2
  | channel (k : Kind) (c : Fin 16)
  | allOnLow
  | allOnHigh
  | allOffLow
  | allOffHigh
  | preScale
deriving DecidableEq, Repr

/-- The register address of a name (R30). -/
def RegName.address (p : Params) : RegName → Byte
  | .mode1 => p.regMode1
  | .mode2 => p.regMode2
  | .channel k c => BitVec.ofNat 8 (kindBase k + Config.chStride * c.val)
  | .allOnLow => p.regAllOnL
  | .allOnHigh => p.regAllOnH
  | .allOffLow => p.regAllOffL
  | .allOffHigh => p.regAllOffH
  | .preScale => p.regPreScale

/-! ### The pulse-width scaler -/

/-- Position validity (R185): both bounds exclusive. -/
def validPosition (p : Params) (pos : Nat) : Bool :=
  decide (Config.posMinExcl < pos) && decide (pos < p.posMaxExcl)

/-- `N(p) = 204 × p + 101000` (R186), exact. -/
def scaleNumerator (pos : Nat) : Nat := 204 * pos + 101000

/-- An exact half between `q` and `q + 1` (R186), resolved by `ROUND_TIE`. -/
def roundHalf (tie : RoundTie) (q : Nat) : Nat :=
  match tie with
  | .halfUp => q + 1
  | .halfEven => if q % 2 = 0 then q else q + 1

/-- `scale(p)` (R186): `N(p) / 1000` rounded to the nearest integer. -/
def scale (tie : RoundTie) (pos : Nat) : Nat :=
  let q := scaleNumerator pos / 1000
  let r := scaleNumerator pos % 1000
  if r < 500 then q else if 500 < r then q + 1 else roundHalf tie q

/-- `pack(t) = (lo, hi)` (R188). -/
def pack (tick : Nat) : Byte × Byte := (byteOf tick 0, byteOf tick 1)

end Sys2Proof.Machine
end

