-- ==== Sys2Proof/Machine/Ops.lean ====
section
/-!
DEFINITION. The named operations every command is made of: the bus and delay primitives and their
frames (`spec/00_scope.md` R12, R13, `spec/20_memory.md` R50 to R56), the response word
(`spec/30_encoding.md` R86), the micro-operations and the execution of a command
(`spec/41_register_access.md` R130 to R133), the lifecycle gate and the effect of an error
(`spec/60_exceptions.md` R204, R207), reset (`spec/70_reset_and_hazards.md` R230).
-/

namespace Sys2Proof.Machine

abbrev Result := Host.Outcome State Fault Refusal

/-! ### Binary forms -/

/-- The encoding of `LC` (R21). -/
def Lifecycle.code : Lifecycle → BitVec 2
  | .unopened => 0b00
  | .ready => 0b01
  | .closed => 0b10
  | .failed => 0b11

/-- The number of an error kind (R200, R86). -/
def ErrorKind.number : ErrorKind → Byte
  | .invalidChannel => 0x01
  | .invalidPosition => 0x02
  | .transportError => 0x03
  | .notUsable => 0x04
  | .illegalCommand => 0x05

/-- `CODE` (R86). -/
def Code.number : Code → Byte
  | .ok => 0x00
  | .error e => e.number

/-- The response word (R86): `CODE = r[15:8]`, `DATA = r[7:0]`. -/
def responseWord (code : Code) (data : Byte) : BitVec 16 := code.number ++ data

/-! ### Transport calls (R50 to R52, R88, R89) -/

/-- A call of one of the transport's two operations (R50). -/
inductive TransportCall
  | write (address : Byte) (bytes : List Byte)
  | writeThenRead (address : Byte) (writeBytes : List Byte) (readLen : Nat)
deriving DecidableEq, Repr

/-- The transport call a bus request makes (R51, R52): the device address zero-extended and not
shifted. A delay request goes to the delay port. -/
def Request.call : Request → Option TransportCall
  | .busW a reg v => some (.write (a.setWidth 8) [reg, v])
  | .busR a reg => some (.writeThenRead (a.setWidth 8) [reg] 1)
  | .delay _ => none

/-- The answer to `write_then_read` when the transport delivers a sequence: "a length other than 1"
is a transport error (R56, D20). -/
def readAnswerOfBytes : List Byte → ReadAnswer
  | [b] => .ok b
  | _ => .err

/-! ### Micro-operations (R130) -/

/-- The expression of a `uW`: a value known from the command, or `set_bit`, `clear_bit` of `T`. -/
inductive ByteExpr
  | lit (v : Byte)
  | setInT (o : BitOffset)
  | clearInT (o : BitOffset)
deriving DecidableEq, Repr

/-- A micro-operation. -/
inductive MicroOp
  | uW (reg : Byte) (e : ByteExpr)
  | uR (reg : Byte)
  | uD (ms : Nat)
deriving DecidableEq, Repr

/-- Read `ADDR` (R22). Without a value it is a fault: "fault on a read of an absent value" (R40, U12). -/
def State.readAddr (s : State) : Except Fault DevAddr :=
  match s.addr with
  | some a => .ok a
  | none => .error .absentAddr

/-- Read `T` (R24). Without a value, after reset or a failed read, it is a fault: "fault on a read of an
absent value" (R40, U12, D26). -/
def State.readT (s : State) : Except Fault Byte :=
  match s.t with
  | some b => .ok b
  | none => .error .absentT

/-- The byte a `uW` writes. -/
def ByteExpr.eval (s : State) : ByteExpr → Except Fault Byte
  | .lit v => .ok v
  | .setInT o => s.readT.map fun b => setBitByte b o
  | .clearInT o => s.readT.map fun b => clearBitByte b o

/-- The request a micro-operation makes (R12, R130): bus requests at the address in `ADDR`. -/
def MicroOp.request (s : State) : MicroOp → Except Fault Request
  | .uW reg e => s.readAddr.bind fun a => (e.eval s).map fun v => .busW a reg v
  | .uR reg => s.readAddr.map fun a => .busR a reg
  | .uD ms => .ok (.delay ms)

/-- Put a request on its port, once. A delay request is an event of its own (R14); a bus transaction
is recorded with its answer (log 7). -/
def State.issue (r : Request) (s : State) : State :=
  if s.pending = some r then s
  else
    { s with
      pending := some r
      trace := match r with
        | .delay ms => s.trace ++ [.delay ms]
        | _ => s.trace }

/-- What became of a micro-operation. -/
inductive Progress
  /-- it completed without error -/
  | advanced (s : State)
  /-- the transport answered `err` -/
  | failed (s : State)
  /-- the request has not been answered (R53, R247) -/
  | waiting (s : State)
  /-- a register without value was read -/
  | stopped (f : Fault)
deriving DecidableEq, Repr

/-- Record a transaction and go on to the next micro-operation: `UPC <- UPC + 1` (R26, R130). -/
def State.advance (s : State) (inputs : List Input) (events : List Event) : State :=
  { s with upc := s.upc + 1, pending := none, inputs := inputs, trace := s.trace ++ events }

/-- Record a failed transaction: `UPC` is not advanced (R130). -/
def State.failAt (s : State) (inputs : List Input) (event : Event) : State :=
  { s with pending := none, inputs := inputs, trace := s.trace ++ [event] }

/-- Take the answer to the outstanding request `r` (R54, R55, R130). A successful read writes `T`; a
failed read leaves `T` without a value (R24, log 2). A move that is no answer to `r` is not taken. -/
def State.takeAnswer (r : Request) (s : State) : Progress :=
  match r, s.inputs with
  | .busW a reg v, .writeAnswer .ok :: rest => .advanced (s.advance rest [.busW a reg v .ok])
  | .busW a reg v, .writeAnswer .err :: rest => .failed (s.failAt rest (.busW a reg v .err))
  | .busR a reg, .readAnswer (.ok b) :: rest =>
    .advanced ({ s with t := some b }.advance rest [.busR a reg (.ok b)])
  | .busR a reg, .readAnswer .err :: rest =>
    .failed ({ s with t := none }.failAt rest (.busR a reg .err))
  | .delay _, .delayDone :: rest => .advanced (s.advance rest [])
  | _, _ => .waiting s

/-- Perform one micro-operation (R130). -/
def MicroOp.perform (m : MicroOp) (s : State) : Progress :=
  match m.request s with
  | .error f => .stopped f
  | .ok r => (s.issue r).takeAnswer r

/-! ### Responses and errors -/

/-- `Respond(code, data)` (R13, R86): the command ends and the block is idle. The word on the response
port is `responseWord code data` of the event (log 13). -/
def State.respond (code : Code) (data : Byte) (s : State) : State :=
  { s with phase := .idle, pending := none, trace := s.trace ++ [.resp code data] }

/-- `raise E` (R13, R207), the block's "trap entry", one operation for every error: nothing already
done is undone, the response is `Respond(code(E), 0x00)`, the block becomes idle. -/
def State.raise (e : ErrorKind) (s : State) : State := s.respond (.error e) 0

/-! ### Commands -/

/-- Which lifecycles admit a command (R204): OPEN wants no live driver, all others a live one. -/
inductive Gate
  | noDriver
  | ready
deriving DecidableEq, Repr

/-- The lifecycle gate (R204). -/
def Gate.admits : Gate → Lifecycle → Bool
  | .noDriver, .unopened => true
  | .noDriver, .ready => false
  | .noDriver, .closed => true
  | .noDriver, .failed => true
  | .ready, .unopened => false
  | .ready, .ready => true
  | .ready, .closed => false
  | .ready, .failed => false

/-- What R132 needs to know of one command. -/
structure Command where
  /-- step 2: the lifecycle gate -/
  gate : Gate
  /-- step 3: the first failing operand validation, if any -/
  check : Option ErrorKind
  /-- step 4: the new `ADDR` (OPEN only) -/
  newAddr : Option DevAddr
  /-- step 5: the micro-program (R131) -/
  program : List MicroOp
  /-- step 6: the new `LC` on completion -/
  lcDone : Option Lifecycle
  /-- the new `LC` on a transport error (R203) -/
  lcError : Option Lifecycle
  /-- step 7: whether the response's data is `T` (RDREG, CHRD) -/
  returnsT : Bool
deriving DecidableEq, Repr

/-- Command acceptance: `UPC <- 0` (R26, R132); the block is no longer idle. -/
def State.accept (s : State) : State := { s with upc := 0, phase := .executing, pending := none }

/-- Set `LC` where the command says so. -/
def State.setLc (lc : Option Lifecycle) (s : State) : State := { s with lc := lc.getD s.lc }

/-- R132 step 4: `ADDR <- A[6:0]` for OPEN. -/
def Command.enter (c : Command) (s : State) : State :=
  match c.newAddr with
  | some a => { s with addr := some a }
  | none => s

/-- A transport error ends the command (R203, R207). -/
def Command.abort (c : Command) (s : State) : State :=
  (s.setLc c.lcError).raise .transportError

/-- R132 steps 6 and 7: the completion action, then `Respond(OK, data)`. -/
def Command.complete (c : Command) (s : State) : Result :=
  if c.returnsT then
    match s.readT with
    | .ok b => .next ((s.setLc c.lcDone).respond .ok b)
    | .error f => .fault f
  else .next ((s.setLc c.lcDone).respond .ok 0)

/-- R132 step 5 on the micro-operations still to perform, up to the response or to a request that has
not been answered. -/
def Command.run (c : Command) : List MicroOp → State → Result
  | [], s => c.complete s
  | m :: ms, s =>
    match m.perform s with
    | .advanced s' => c.run ms s'
    | .failed s' => .next (c.abort s')
    | .waiting s' => .next s'
    | .stopped f => .fault f

/-- The micro-operations from `UPC` on (R26). -/
def Command.rest (c : Command) (s : State) : List MicroOp := c.program.drop s.upc.toNat

/-- Go on with a command whose request was outstanding. -/
def Command.resume (c : Command) (s : State) : Result := c.run (c.rest s) s

/-- R132 steps 2 to 4: the error that refuses the command, or the state in which its micro-program
starts. The lifecycle test comes before operand validation (R206). -/
def Command.admission (c : Command) (s : State) : Except ErrorKind State :=
  if c.gate.admits s.lc then
    match c.check with
    | some e => .error e
    | none => .ok (c.enter s)
  else .error .notUsable

/-- R132 from acceptance on: the meaning of a command word that decoded. A refusal and its response, and an
answer and the next request, are one move: no reset falls between them (log 6). -/
def Command.execute (c : Command) (s : State) : Result :=
  match c.admission s.accept with
  | .error e => .next (s.accept.raise e)
  | .ok s' => c.run c.program s'

/-! ### Command port and reset -/

/-- `CMD <- w` and `Cmd(w)` (R132, first line). -/
def State.latch (w : CommandWord) (s : State) : State :=
  { s with cmd := some w, trace := s.trace ++ [.cmd w] }

/-- An illegal word (R132 step 1, R205), refused in one move (log 6). -/
def State.rejectWord (s : State) : State := s.accept.raise .illegalCommand

/-- The reset event (R230, R40): the registers as R40 says, idle, the command in progress discarded
without a response, no bus transaction and no delay. -/
def State.assertReset (s : State) : State :=
  { s with lc := .unopened, addr := none, cmd := none, t := none, upc := 0, phase := .idle,
           pending := none }

end Sys2Proof.Machine
end

