-- ==== Sys2Proof/Machine/Channel.lean ====
section
/-!
DEFINITION. The channel register commands CHWR and CHRD (`spec/43_channel_addressing.md` R173 to
R175).
-/

namespace Sys2Proof.Machine

/-- CHWR (R174): `InvalidChannel` before any bus access, else one write at `channel_register(k, c)`;
the byte is written as given. -/
def chwrCommand (k : Kind) (c v : Byte) : Command where
  gate := .ready
  check := match channelRegister k (channelOperand c) with
    | .error e => some e
    | .ok _ => none
  newAddr := none
  program := match channelRegister k (channelOperand c) with
    | .error _ => []
    | .ok r => [.uW r (.lit v)]
  lcDone := none
  lcError := none
  returnsT := false

def execChwr (k : Kind) (c v : Byte) (s : State) : Result := (chwrCommand k c v).execute s

/-- CHRD (R175): `InvalidChannel` before any bus access, else one read at `channel_register(k, c)`;
the byte is returned unmasked. -/
def chrdCommand (k : Kind) (c : Byte) : Command where
  gate := .ready
  check := match channelRegister k (channelOperand c) with
    | .error e => some e
    | .ok _ => none
  newAddr := none
  program := match channelRegister k (channelOperand c) with
    | .error _ => []
    | .ok r => [.uR r]
  lcDone := none
  lcError := none
  returnsT := true

def execChrd (k : Kind) (c : Byte) (s : State) : Result := (chrdCommand k c).execute s

end Sys2Proof.Machine
end

