-- ==== Sys2Proof/Machine/Direct.lean ====
section
/-!
DEFINITION. The register access commands WRREG, RDREG, SETBIT, CLRBIT
(`spec/41_register_access.md` R134 to R138).
-/

namespace Sys2Proof.Machine

/-- WRREG (R134): one write, every register and byte accepted. -/
def wrregCommand (r v : Byte) : Command where
  gate := .ready
  check := none
  newAddr := none
  program := [.uW r (.lit v)]
  lcDone := none
  lcError := none
  returnsT := false

def execWrreg (r v : Byte) (s : State) : Result := (wrregCommand r v).execute s

/-- RDREG (R135): one read, its byte is the response's data. -/
def rdregCommand (r : Byte) : Command where
  gate := .ready
  check := none
  newAddr := none
  program := [.uR r]
  lcDone := none
  lcError := none
  returnsT := true

def execRdreg (r : Byte) (s : State) : Result := (rdregCommand r).execute s

/-- SETBIT (R136): read, then write back with bit `b` set, unconditionally. -/
def setbitCommand (r : Byte) (b : BitOffset) : Command where
  gate := .ready
  check := none
  newAddr := none
  program := [.uR r, .uW r (.setInT b)]
  lcDone := none
  lcError := none
  returnsT := false

def execSetbit (r : Byte) (b : BitOffset) (s : State) : Result := (setbitCommand r b).execute s

/-- CLRBIT (R137): read, then write back with bit `b` clear, unconditionally. -/
def clrbitCommand (r : Byte) (b : BitOffset) : Command where
  gate := .ready
  check := none
  newAddr := none
  program := [.uR r, .uW r (.clearInT b)]
  lcDone := none
  lcError := none
  returnsT := false

def execClrbit (r : Byte) (b : BitOffset) (s : State) : Result := (clrbitCommand r b).execute s

end Sys2Proof.Machine
end

