-- ==== Sys2Proof/Machine/Lifecycle.lean ====
section
/-!
DEFINITION. The lifecycle commands OPEN and CLOSE (`spec/42_lifecycle.md` R150 to R164).
-/

namespace Sys2Proof.Machine

/-- Steps 1 to 4 of OPEN (R151 to R154), micro-operations 0 to 6: prescale, all-call off, common
on-tick, default off-tick, low byte first (D13). -/
def openProgramSetup (p : Params) : List MicroOp :=
  [ .uW (RegName.preScale.address p) (.lit (BitVec.ofNat 8 Config.prescale)),
    .uR (RegName.mode1.address p),
    .uW (RegName.mode1.address p) (.clearInT (Mode1Flag.allcall.offset p)),
    .uW (RegName.allOnLow.address p) (.lit (byteOf Config.pulseStart 0)),
    .uW (RegName.allOnHigh.address p) (.lit (byteOf Config.pulseStart 1)),
    .uW (RegName.allOffLow.address p) (.lit (byteOf Config.pulseEndMid 0)),
    .uW (RegName.allOffHigh.address p) (.lit (byteOf Config.pulseEndMid 1)) ]

/-- Steps 5 and 6 of OPEN (R155), micro-operations 7 to 12: wake and settle, restart and settle, each
read-modify-write with a read of its own. -/
def openProgramStart (p : Params) : List MicroOp :=
  [ .uR (RegName.mode1.address p),
    .uW (RegName.mode1.address p) (.clearInT (Mode1Flag.sleep.offset p)),
    .uD Config.settleMs,
    .uR (RegName.mode1.address p),
    .uW (RegName.mode1.address p) (.setInT (Mode1Flag.restart.offset p)),
    .uD Config.settleMs ]

/-- OPEN (R150): accepted when no driver is live (R158), `ADDR <- a`, READY on completion, FAILED on a
transport error (R156). Thirteen micro-operations, eleven of them transactions (log 10). -/
def openCommand (p : Params) (a : DevAddr) : Command where
  gate := .noDriver
  check := none
  newAddr := some a
  program := openProgramSetup p ++ openProgramStart p
  lcDone := some .ready
  lcError := some .failed
  returnsT := false

def execOpen (a : DevAddr) (s : State) : Result := (openCommand s.params a).execute s

/-- CLOSE (R160): accepted when READY (R161), sets `sleep` by read-modify-write; CLOSED whether or not
the transactions succeeded (R163). -/
def closeCommand (p : Params) : Command where
  gate := .ready
  check := none
  newAddr := none
  program :=
    [ .uR (RegName.mode1.address p),
      .uW (RegName.mode1.address p) (.setInT (Mode1Flag.sleep.offset p)) ]
  lcDone := some .closed
  lcError := some .closed
  returnsT := false

def execClose (s : State) : Result := (closeCommand s.params).execute s

end Sys2Proof.Machine
end

