-- ==== Sys2Proof/Machine/PositionControl.lean ====
section
/-!
DEFINITION. The command SETPOS (`spec/44_position_control.md` R190 to R192).
-/

namespace Sys2Proof.Machine

/-- The validation of SETPOS (R190): the channel first (D12), then the position. -/
def setposCheck (p : Params) (c : Byte) (pos : Position) : Option ErrorKind :=
  match channelRegister .offLow (channelOperand c) with
  | .error e => some e
  | .ok _ => if validPosition p pos.toNat then none else some .invalidPosition

/-- The two writes of SETPOS (R190), low register first (D13). -/
def setposProgram (p : Params) (c : Byte) (pos : Position) : List MicroOp :=
  match channelRegister .offLow (channelOperand c), channelRegister .offHigh (channelOperand c) with
  | .ok lowReg, .ok highReg =>
    [ .uW lowReg (.lit (pack (scale p.roundTie pos.toNat)).1),
      .uW highReg (.lit (pack (scale p.roundTie pos.toNat)).2) ]
  | _, _ => []

/-- SETPOS (R190): no read, no state of its own. -/
def setposCommand (p : Params) (c : Byte) (pos : Position) : Command where
  gate := .ready
  check := setposCheck p c pos
  newAddr := none
  program := setposProgram p c pos
  lcDone := none
  lcError := none
  returnsT := false

def execSetpos (c : Byte) (pos : Position) (s : State) : Result :=
  (setposCommand s.params c pos).execute s

end Sys2Proof.Machine
end

