-- ==== Sys2Proof/WellFormed.lean ====
section
/-!
DEFINITION. The checks the spec asks for before anything runs: the constraints on the parameters
(`spec/00_scope.md` R8, "Constraints a model must check on its parameters and refuse otherwise"), and
the operand ranges of a listing line (`spec/30_encoding.md` R91, "An operand outside the range given
cannot be assembled"). A term of `Instr` needs no check of its own: its operands have the widths of
the command word's fields (R84). Illegal WORDS are the decoder's (R87, `Decode.lean`).
-/

namespace Sys2Proof

/-! ### Parameters (R8) -/

/-- The seven `REG_*` addresses. -/
def Params.specialRegs (p : Params) : List Byte :=
  [p.regMode1, p.regMode2, p.regAllOnL, p.regAllOnH, p.regAllOffL, p.regAllOffH, p.regPreScale]

/-- "the seven `REG_*` addresses are pairwise distinct" -/
def Params.regsDistinct (p : Params) : Bool := decide p.specialRegs.Nodup

/-- "none lies in 0x06 to 0x45 (the channel register range)" -/
def Params.regsOutsideChannels (p : Params) : Bool :=
  p.specialRegs.all fun r => decide (r.toNat < 0x06 ∨ 0x45 < r.toNat)

/-- "`BIT_ALLCALL`, `BIT_SLEEP` (= 4) and `BIT_RESTART` are pairwise distinct" -/
def Params.bitsDistinct (p : Params) : Bool :=
  decide [p.bitAllcall, Config.bitSleep, p.bitRestart].Nodup

/-- `2 ≤ POS_MAX_EXCL ≤ 19581`, "so that every valid position scales to a tick of at most 4095" -/
def Params.posBoundOk (p : Params) : Bool :=
  decide (2 ≤ p.posMaxExcl) && decide (p.posMaxExcl ≤ 19581)

/-- All constraints of R8. -/
def Params.wf (p : Params) : Bool :=
  p.regsDistinct && p.regsOutsideChannels && p.bitsDistinct && p.posBoundOk

/-! ### Listing lines (R91) -/

/-- One line of R91 after its mnemonic, numbers and kind names have been read: operands are numbers
of any size. -/
inductive SourceLine
  | openDevice (a : Nat)
  | closeDevice
  | setpos (c p : Nat)
  | wrreg (r v : Nat)
  | rdreg (r : Nat)
  | setbit (r b : Nat)
  | clrbit (r b : Nat)
  | chwr (k : Kind) (c v : Nat)
  | chrd (k : Kind) (c : Nat)
deriving DecidableEq, Repr

/-- The operand ranges of R91 (for `rdreg`, `clrbit`, `chwr`, `chrd` those of the like-named operands
of the other lines, log 8). -/
def SourceLine.wf : SourceLine → Bool
  | .openDevice a => decide (a ≤ 127)
  | .closeDevice => true
  | .setpos c p => decide (c ≤ 255) && decide (p ≤ 65535)
  | .wrreg r v => decide (r ≤ 255) && decide (v ≤ 255)
  | .rdreg r => decide (r ≤ 255)
  | .setbit r b => decide (r ≤ 255) && decide (b ≤ 7)
  | .clrbit r b => decide (r ≤ 255) && decide (b ≤ 7)
  | .chwr _ c v => decide (c ≤ 255) && decide (v ≤ 255)
  | .chrd _ c => decide (c ≤ 255)

end Sys2Proof
end

