-- ==== Sys2Proof/Machine/Sequencer.lean ====
section
/-!
DEFINITION. What the sequencer knows of every command, for going on with a command whose request was
outstanding (`spec/41_register_access.md` R131), the fetch of a command word from the command port
(`spec/30_encoding.md` R80), and the small-step machine of R133, one step per micro-operation.
-/

namespace Sys2Proof.Machine

/-- The command of an instruction; its field `program` is the micro-program of R131. -/
def commandOf (p : Params) : Instr → Command
  | .openDevice a => openCommand p a
  | .closeDevice => closeCommand p
  | .setpos c pos => setposCommand p c pos
  | .wrreg r v => wrregCommand r v
  | .rdreg r => rdregCommand r
  | .setbit r b => setbitCommand r b
  | .clrbit r b => clrbitCommand r b
  | .chwr k c v => chwrCommand k c v
  | .chrd k c => chrdCommand k c

/-- What the block does next. -/
inductive Activity
  /-- it takes the reset input (R230) -/
  | reset (s : State)
  /-- idle, it takes a command word from the command port (R80) -/
  | command (w : CommandWord) (s : State)
  /-- it goes on with the command in progress -/
  | goOn
  /-- idle, it waits for a command word (R231) -/
  | wait
deriving DecidableEq, Repr

/-- The block's next activity. A move is taken where the block can take it: a command word only when
idle ("does not accept a word while busy", R80, R240); reset when idle or while a request is
outstanding (log 6); an answer by the micro-operation that made the request. Any other move stays at
the head of the list, and the block does not move past it (log 4). -/
def State.activity (s : State) : Activity :=
  match s.phase with
  | .idle =>
    match s.inputs with
    | .reset :: rest => .reset { s with inputs := rest }
    | .command w :: rest => .command w { s with inputs := rest }
    | _ => .wait
  | .executing =>
    match s.pending, s.inputs with
    | some _, .reset :: rest => .reset { s with inputs := rest }
    | _, _ => .goOn

/-- Go on with the command in `CMD`; `CMD` without a value is a fault (R40, U12). -/
def State.resume (s : State) : Result :=
  match s.cmd with
  | none => .fault .absentCmd
  | some w =>
    match decode w with
    | .error _ => .next s.rejectWord
    | .ok i => (commandOf s.params i).resume s

/-! ### The small-step machine (R133) -/

/-- Acceptance as one small step: R132 up to step 4. -/
def Command.begin? (c : Command) (s : State) : State :=
  match c.admission s.accept with
  | .error e => s.accept.raise e
  | .ok s' => s'

/-- One micro-operation of a command, or its response when `UPC` equals the length of the
micro-program (R26). -/
def Command.microStep (c : Command) (s : State) : Result :=
  match c.rest s with
  | [] => c.complete s
  | m :: _ =>
    match m.perform s with
    | .advanced s' => .next s'
    | .failed s' => .next (c.abort s')
    | .waiting s' => .next s'
    | .stopped f => .fault f

/-- One small step (R133): reset, acceptance of a word, or one micro-operation of the command in
`CMD`. -/
def microStep (s : State) : Result :=
  if s.params.wf then
    match s.activity with
    | .reset s' => .next s'.assertReset
    | .command w s' =>
      match decode w with
      | .error _ => .next (s'.latch w).rejectWord
      | .ok i => .next ((commandOf s.params i).begin? (s'.latch w))
    | .goOn =>
      match s.cmd with
      | none => .fault .absentCmd
      | some w =>
        match decode w with
        | .error _ => .next s.rejectWord
        | .ok i => (commandOf s.params i).microStep s
    | .wait => .next s
  else .refused .badParameters

/-- `n` small steps, stopping at a fault or a refusal. -/
def microRun : Nat → State → Result
  | 0, s => .next s
  | n + 1, s =>
    match microStep s with
    | .next s' => microRun n s'
    | .fault f => .fault f
    | .refused r => .refused r

end Sys2Proof.Machine
end

