-- ==== Sys2Proof/Machine/Dispatch.lean ====
section
/-! DEFINITION. One arm per command (`spec/30_encoding.md` R83): its meaning. -/

namespace Sys2Proof.Machine

def exec (i : Instr) (s : State) : Host.Outcome State Fault Refusal :=
  match i with
  | .openDevice a => Sys2Proof.Machine.execOpen a s
  | .closeDevice => Sys2Proof.Machine.execClose s
  | .setpos c pos => Sys2Proof.Machine.execSetpos c pos s
  | .wrreg r v => Sys2Proof.Machine.execWrreg r v s
  | .rdreg r => Sys2Proof.Machine.execRdreg r s
  | .setbit r b => Sys2Proof.Machine.execSetbit r b s
  | .clrbit r b => Sys2Proof.Machine.execClrbit r b s
  | .chwr k c v => Sys2Proof.Machine.execChwr k c v s
  | .chrd k c => Sys2Proof.Machine.execChrd k c s

end Sys2Proof.Machine
end

