-- ==== Sys2Proof/Machine/Step.lean ====
section
/-!
DEFINITION. One step of the machine: the next command word taken from the command port and run to its
response (`spec/41_register_access.md` R132), or to a request that has not been answered
(`spec/70_reset_and_hazards.md` R247), which a later step goes on with; or reset (R230).
-/

namespace Sys2Proof.Machine

/-- One step (log 12). A block that waits, for a word or for an answer, stays as it is. Parameters that break
R8 are refused before anything else (log 14). -/
def step (s : State) : Host.Outcome State Fault Refusal :=
  if s.params.wf then
    match s.activity with
    | .reset s' => .next s'.assertReset
    | .command w s' =>
      match decode w with
      | .error _ => .next (s'.latch w).rejectWord
      | .ok i => exec i (s'.latch w)
    | .goOn => s.resume
    | .wait => .next s
  else .refused .badParameters

/-- `s` with a command word presented on the command port of an idle block (R80), before every other
move, so that the next step takes it. -/
def State.withFetchWord (s : State) (nbits w : Nat) : State :=
  { s with phase := .idle, pending := none, inputs := .command (tableWord nbits w) :: s.inputs }

end Sys2Proof.Machine
end

