-- ==== Sys2Proof/Machine/Assembler.lean ====
section
/-!
DEFINITION. The listing form of a command (`spec/30_encoding.md` R91): one command a line,
`mnemonic operand, operand`, mnemonic in lower or upper case, numbers in decimal or `0x` hexadecimal,
kinds by name. An operand outside its range cannot be assembled.
-/

namespace Sys2Proof

/-! ### Reading a line -/

/-- The value of one hexadecimal digit. -/
def digitValue (c : Char) : Option Nat :=
  if '0' ≤ c ∧ c ≤ '9' then some (c.toNat - '0'.toNat)
  else if 'a' ≤ c ∧ c ≤ 'f' then some (c.toNat - 'a'.toNat + 10)
  else if 'A' ≤ c ∧ c ≤ 'F' then some (c.toNat - 'A'.toNat + 10)
  else none

/-- Digits of a base, most significant first. -/
def digitsValue (base : Nat) : Nat → List Char → Option Nat
  | acc, [] => some acc
  | acc, c :: cs =>
    match digitValue c with
    | some d => if d < base then digitsValue base (acc * base + d) cs else none
    | none => none

/-- A number in decimal or `0x` hexadecimal. -/
def readNumber : List Char → Option Nat
  | '0' :: 'x' :: d :: ds => digitsValue 16 0 (d :: ds)
  | d :: ds => digitsValue 10 0 (d :: ds)
  | [] => none

/-- A kind by its name. -/
def readKind (cs : List Char) : Option Kind :=
  if cs = "on_low".toList then some .onLow
  else if cs = "on_high".toList then some .onHigh
  else if cs = "off_low".toList then some .offLow
  else if cs = "off_high".toList then some .offHigh
  else none

def dropSpaces : List Char → List Char
  | ' ' :: cs => dropSpaces cs
  | cs => cs

def trimSpaces (cs : List Char) : List Char := (dropSpaces (dropSpaces cs).reverse).reverse

/-- The operands of a line, separated by commas. -/
def splitCommas : List Char → List (List Char)
  | [] => [[]]
  | c :: cs =>
    match c, splitCommas cs with
    | ',', parts => [] :: parts
    | _, part :: parts => (c :: part) :: parts
    | _, [] => [[c]]

/-- The mnemonic is written in lower or in upper case. -/
def spells (name : String) (cs : List Char) : Bool :=
  cs == name.toList.map Char.toLower || cs == name.toList

/-- A line's mnemonic and its operands. -/
def readParts (line : List Char) : List Char × List (List Char) :=
  let trimmed := trimSpaces line
  let name := trimmed.takeWhile (· ≠ ' ')
  match trimSpaces (trimmed.dropWhile (· ≠ ' ')) with
  | [] => (name, [])
  | operands => (name, (splitCommas operands).map trimSpaces)

/-- Read a line; operands are not range-checked yet. -/
def readLine (line : List Char) : Option SourceLine :=
  match readParts line with
  | (m, []) => if spells "CLOSE" m then some .closeDevice else none
  | (m, [x]) =>
    if spells "OPEN" m then (readNumber x).map .openDevice
    else if spells "RDREG" m then (readNumber x).map .rdreg
    else none
  | (m, [x, y]) =>
    if spells "CHRD" m then
      (readKind x).bind fun k => (readNumber y).map fun c => .chrd k c
    else
      (readNumber x).bind fun a => (readNumber y).bind fun b =>
        if spells "SETPOS" m then some (.setpos a b)
        else if spells "WRREG" m then some (.wrreg a b)
        else if spells "SETBIT" m then some (.setbit a b)
        else if spells "CLRBIT" m then some (.clrbit a b)
        else none
  | (m, [x, y, z]) =>
    if spells "CHWR" m then
      (readKind x).bind fun k => (readNumber y).bind fun c =>
        (readNumber z).map fun v => .chwr k c v
    else none
  | _ => none

/-! ### Assembling -/

/-- The command of a line, its operands as the fields hold them. -/
def SourceLine.toInstr : SourceLine → Instr
  | .openDevice a => .openDevice (BitVec.ofNat 7 a)
  | .closeDevice => .closeDevice
  | .setpos c p => .setpos (BitVec.ofNat 8 c) (BitVec.ofNat 16 p)
  | .wrreg r v => .wrreg (BitVec.ofNat 8 r) (BitVec.ofNat 8 v)
  | .rdreg r => .rdreg (BitVec.ofNat 8 r)
  | .setbit r b => .setbit (BitVec.ofNat 8 r) (BitVec.ofNat 3 b)
  | .clrbit r b => .clrbit (BitVec.ofNat 8 r) (BitVec.ofNat 3 b)
  | .chwr k c v => .chwr k (BitVec.ofNat 8 c) (BitVec.ofNat 8 v)
  | .chrd k c => .chrd k (BitVec.ofNat 8 c)

/-- The word column of R91's table, on a line whose operands are in range. -/
def SourceLine.word : SourceLine → Nat
  | .openDevice a => 0x01000000 ||| (a <<< 16)
  | .closeDevice => 0x02000000
  | .setpos c p => 0x03000000 ||| (c <<< 16) ||| p
  | .wrreg r v => 0x10000000 ||| (r <<< 16) ||| v
  | .rdreg r => 0x11000000 ||| (r <<< 16)
  | .setbit r b => 0x12000000 ||| (r <<< 16) ||| b
  | .clrbit r b => 0x13000000 ||| (r <<< 16) ||| b
  | .chwr k c v => 0x20000000 ||| (c <<< 16) ||| (k.code.toNat <<< 8) ||| v
  | .chrd k c => 0x21000000 ||| (c <<< 16) ||| (k.code.toNat <<< 8)

/-- Assemble a line: the word of R91's table, or nothing where an operand is out of range. -/
def SourceLine.assemble (l : SourceLine) : Option CommandWord :=
  if l.wf then some (BitVec.ofNat 32 l.word) else none

/-- Assemble the text of a line. -/
def assembleText (line : String) : Option CommandWord :=
  (readLine line.toList).bind SourceLine.assemble

end Sys2Proof
end

