-- ==== Sys2Proof/Machine/Reference.lean ====
section
/-!
DEFINITION. The reference device (`spec/20_memory.md` R70, R71), a test aid outside the block ("no
claim about the block may rest on it"), and a bench that runs a list of command words against it. Its
`REGS[0..255]` is a byte memory in one canonical form: addresses strictly rising, below 256, and no
entry equal to what an unlisted address reads as (0, log 9).
-/

namespace Sys2Proof.Machine

/-! ### Byte memory -/

abbrev Memory := List Host.Cell

/-- What an unlisted address reads as (log 9). -/
def unlistedByte : Byte := 0

/-- Read one byte. -/
def Memory.read : Memory → Nat → Byte
  | [], _ => unlistedByte
  | (k, b) :: rest, a => if k = a then b else Memory.read rest a

/-- Put an entry in front, unless it says what an unlisted address reads as. -/
def Memory.entry (a : Nat) (v : Byte) (rest : Memory) : Memory :=
  if v = unlistedByte then rest else (a, v) :: rest

/-- Write one byte, keeping the canonical form. -/
def Memory.write : Memory → Nat → Byte → Memory
  | [], a, v => Memory.entry a v []
  | (k, b) :: rest, a, v =>
    if a < k then Memory.entry a v ((k, b) :: rest)
    else if a = k then Memory.entry a v rest
    else (k, b) :: Memory.write rest a v

/-- The canonical form. -/
def Memory.wf (m : Memory) : Bool :=
  decide (m.Pairwise fun x y => x.1 < y.1) &&
    m.all fun x => decide (x.1 < 256) && decide (x.2 ≠ unlistedByte)

/-! ### The device (R71) -/

structure RefDevice where
  /-- `DA : u7` -/
  da : DevAddr
  /-- `REGS[0..255]` -/
  regs : Memory
deriving DecidableEq, Repr

/-- The kind of channel register that a broadcast address reaches (R32, R71). -/
def broadcastKind (p : Params) (reg : Byte) : Option Kind :=
  if reg = p.regAllOnL then some .onLow
  else if reg = p.regAllOnH then some .onHigh
  else if reg = p.regAllOffL then some .offLow
  else if reg = p.regAllOffH then some .offHigh
  else none

/-- Write `v` to the registers of one kind of the first `n` channels. -/
def broadcastWrite (k : Kind) (v : Byte) : Nat → Memory → Memory
  | 0, m => m
  | n + 1, m =>
    broadcastWrite k v n (Memory.write m (kindBase k + Config.chStride * n) v)

/-- `REGS[reg] <- v`, and the broadcast effect whatever the `allcall` flag holds (R71, C4). -/
def RefDevice.store (p : Params) (d : RefDevice) (reg v : Byte) : RefDevice :=
  let m := Memory.write d.regs reg.toNat v
  { d with regs := match broadcastKind p reg with
      | none => m
      | some k => broadcastWrite k v Config.nChannels m }

/-- The device's answer to a request (R71): `err` at another device address; a read "changes
nothing". A delay request is the delay provider's, which completes it. -/
def RefDevice.answer (p : Params) (d : RefDevice) : Request → Input × RefDevice
  | .busW a reg v =>
    if a = d.da then (.writeAnswer .ok, d.store p reg v) else (.writeAnswer .err, d)
  | .busR a reg =>
    if a = d.da then (.readAnswer (.ok (Memory.read d.regs reg.toNat)), d)
    else (.readAnswer .err, d)
  | .delay _ => (.delayDone, d)

/-- A failing transaction: `err`, and the device unchanged ("as a choice of this test",
`spec/95_test_vectors.md` P4). -/
def failingAnswer : Request → Input
  | .busW _ _ _ => .writeAnswer .err
  | .busR _ _ => .readAnswer .err
  | .delay _ => .delayDone

/-! ### The bench -/

/-- A block, a reference device behind its transport, and a host with a list of command words. -/
structure Bench where
  block : State
  device : RefDevice
  /-- words still to present -/
  program : List CommandWord
  /-- transactions so far -/
  count : Nat
  /-- which transactions, counted from 1, answer `err` -/
  failing : List Nat
deriving DecidableEq, Repr

/-- Let the environment make its next move: answer the outstanding request, or present the next word
to an idle block. -/
def Bench.feed (b : Bench) : Bench :=
  match b.block.pending, b.block.phase, b.program with
  | some (.delay _), _, _ =>
    { b with block := { b.block with inputs := .delayDone :: b.block.inputs } }
  | some r, _, _ =>
    if b.count + 1 ∈ b.failing then
      { b with block := { b.block with inputs := failingAnswer r :: b.block.inputs }, count := b.count + 1 }
    else
      let (answer, device) := b.device.answer b.block.params r
      { b with block := { b.block with inputs := answer :: b.block.inputs }, device := device,
               count := b.count + 1 }
  | none, .idle, w :: ws =>
    { b with block := { b.block with inputs := .command w :: b.block.inputs }, program := ws }
  | none, _, _ => b

/-- One step of the bench. -/
def Bench.step (b : Bench) : Host.Outcome Bench Fault Refusal :=
  let b := b.feed
  match Machine.step b.block with
  | .next s => .next { b with block := s }
  | .fault f => .fault f
  | .refused r => .refused r

/-- `n` steps of the bench. -/
def Bench.run : Nat → Bench → Host.Outcome Bench Fault Refusal
  | 0, b => .next b
  | n + 1, b =>
    match b.step with
    | .next b' => Bench.run n b'
    | .fault f => .fault f
    | .refused r => .refused r

end Sys2Proof.Machine
end

