-- ==== Sys2Proof/Safety.lean ====
section
/-!
DEFINITION. The terms in which statements about the machine are made: a usable block, the state after a
completed command, the sequences of events and answers of OPEN, and the invariant that rules out a read
of a register without value (`spec/10_state.md` R40: "which no rule of this spec can cause").
-/

namespace Sys2Proof.Machine

/-- The block after a successful `open` at device address `a`: READY, `ADDR` holding `a`. -/
def State.Usable (s : State) (a : DevAddr) : Prop := s.lc = .ready ∧ s.addr = some a

/-- `s` after a command has responded: `UPC` where the micro-program ended, idle, the answers consumed,
the events appended; every other field as before. -/
def State.finished (s : State) (upc : BitVec 4) (rest : List Input) (events : List Event) : State :=
  { s with upc := upc, phase := .idle, pending := none, inputs := rest, trace := s.trace ++ events }

/-- A response event. -/
def Event.isResponse : Event → Bool
  | .resp _ _ => true
  | .cmd _ => false
  | .busW _ _ _ _ => false
  | .busR _ _ _ => false
  | .delay _ => false

/-- The device address of a bus transaction; no address for the other events. -/
def Event.busAddress : Event → Option DevAddr
  | .busW a _ _ _ => some a
  | .busR a _ _ => some a
  | .cmd _ => none
  | .delay _ => none
  | .resp _ _ => none

/-- A transaction the transport answered with an error. -/
def Event.isBusError : Event → Bool
  | .busW _ _ _ .err => true
  | .busR _ _ .err => true
  | .busW _ _ _ .ok => false
  | .busR _ _ (.ok _) => false
  | .cmd _ => false
  | .delay _ => false
  | .resp _ _ => false

/-- The move that answers a request with success. -/
def Input.answers (r : Request) : Input → Prop
  | .writeAnswer _ => ∃ a reg v, r = .busW a reg v
  | .readAnswer _ => ∃ a reg, r = .busR a reg
  | .delayDone => ∃ ms, r = .delay ms
  | .command _ => False
  | .reset => False

/-! ### The bring-up sequence (R150, E8 of `spec/95_test_vectors.md`) -/

/-- The events of a successful OPEN at `a`, one per micro-operation, for `mode1` reads `m1`, `m2`,
`m3`, written out from the trace of E8. -/
def openEvents (p : Params) (a : DevAddr) (m1 m2 m3 : Byte) : List Event :=
  [ .busW a p.regPreScale 0x79 .ok,
    .busR a p.regMode1 (.ok m1),
    .busW a p.regMode1 (m1 &&& ~~~((1 : Byte) <<< p.bitAllcall.toNat)) .ok,
    .busW a p.regAllOnL 0x64 .ok,
    .busW a p.regAllOnH 0x00 .ok,
    .busW a p.regAllOffL 0x97 .ok,
    .busW a p.regAllOffH 0x01 .ok,
    .busR a p.regMode1 (.ok m2),
    .busW a p.regMode1 (m2 &&& 0xEF) .ok,
    .delay 100,
    .busR a p.regMode1 (.ok m3),
    .busW a p.regMode1 (m3 ||| ((1 : Byte) <<< p.bitRestart.toNat)) .ok,
    .delay 100 ]

/-- The moves that answer the thirteen micro-operations of OPEN with success. -/
def openAnswers (m1 m2 m3 : Byte) : List Input :=
  [ .writeAnswer .ok, .readAnswer (.ok m1), .writeAnswer .ok, .writeAnswer .ok, .writeAnswer .ok,
    .writeAnswer .ok, .writeAnswer .ok, .readAnswer (.ok m2), .writeAnswer .ok, .delayDone,
    .readAnswer (.ok m3), .writeAnswer .ok, .delayDone ]

/-- The same transaction answered `err`; other events as they are. -/
def Event.asFailed : Event → Event
  | .busW a reg v _ => .busW a reg v .err
  | .busR a reg _ => .busR a reg .err
  | .cmd w => .cmd w
  | .delay ms => .delay ms
  | .resp c d => .resp c d

/-- The same answer as a transport error; other moves as they are. -/
def Input.asFailed : Input → Input
  | .writeAnswer _ => .writeAnswer .err
  | .readAnswer _ => .readAnswer .err
  | .command w => .command w
  | .delayDone => .delayDone
  | .reset => .reset

/-! ### The first error of a command word (R206) -/

/-- The error that refuses word `w` in lifecycle `lc` before any micro-operation, read from the word's
fields in the order of R206; `none` where all checks pass. -/
def refusalOf (p : Params) (lc : Lifecycle) (w : CommandWord) : Option ErrorKind :=
  if legalWord w = false then some .illegalCommand
  else if (opcField w = 0x01 ∧ lc = .ready) ∨ (opcField w ≠ 0x01 ∧ lc ≠ .ready) then
    some .notUsable
  else if (opcField w = 0x03 ∨ opcField w = 0x20 ∨ opcField w = 0x21) ∧ 15 < (aField w).toNat then
    some .invalidChannel
  else if opcField w = 0x03 ∧ ((bField w).toNat = 0 ∨ p.posMaxExcl ≤ (bField w).toNat) then
    some .invalidPosition
  else none

/-! ### The invariant -/

/-- A command in progress: admitted and valid, with `ADDR` holding the address of the last accepted
OPEN, and the request of the micro-operation at `UPC` outstanding. -/
structure Command.InProgress (c : Command) (s : State) : Prop where
  admitted : c.gate.admits s.lc = true
  valid : c.check = none
  addr_held : s.addr ≠ none
  addr_new : ∀ a, c.newAddr = some a → s.addr = some a
  outstanding : ∃ m r, c.program[s.upc.toNat]? = some m ∧ m.request s = .ok r ∧ s.pending = some r

/-- What every reachable state satisfies: `ADDR` holds a value once an OPEN has run (R22), an idle block
has nothing outstanding, a busy one has a command in progress. -/
structure State.Inv (s : State) : Prop where
  addr_held : s.lc ≠ .unopened → s.addr ≠ none
  idle_quiet : s.phase = .idle → s.pending = none
  busy_sound : s.phase = .executing →
    ∃ w i, s.cmd = some w ∧ decode w = .ok i ∧ (commandOf s.params i).InProgress s

/-- Forget the registers that carry nothing from one command to the next (R20, R23, R24). -/
def State.forgetDead (s : State) : State := { s with cmd := none, t := none }

/-- Forget them in the outcome of a step. -/
def forgetDeadIn : Result → Result
  | .next s => .next s.forgetDead
  | .fault f => .fault f
  | .refused r => .refused r

end Sys2Proof.Machine
end

