-- ==== Sys2Proof/Certificates/Slice0/Obligations.lean ====
section
/-!
DEFINITION. The statements about PCA9685-SEQ. `s.finished n rest evs` is `s` after a response: `UPC = n`,
idle, nothing outstanding, the inputs `rest` left, the events `evs` appended, EVERY OTHER FIELD AS IN `s`
(`LC`, `ADDR`, `CMD`, `T`, the parameters): an equation with it is result, completion and frame in one.
The block has no memory (R57); what reaches the chip is the trace.
-/

open Sys2Proof Sys2Proof.Machine

/-! ### Encoding -/

/-- Every command, with every operand at every value its field admits, decodes from its own word (R82 to
R85). -/
def Obligations.DecodeOfEncodeIsTheCommand : Prop :=
  ∀ i : Instr, decode (encode i) = .ok i

/-- A word that decodes is the word of the command it decodes to: every legal word has one meaning. -/
def Obligations.EncodeOfDecodeIsTheWord : Prop :=
  ∀ (w : CommandWord) (i : Instr), decode w = .ok i → encode i = w

/-- R87, R205: a word decodes iff it is a legal instance of a row; the row is its command's; the rows are
disjoint; an illegal word presented to an idle block, in every lifecycle, is answered `IllegalCommand`
with no bus transaction and no delay, changes none of `LC`, `ADDR`, `T`, and does latch `CMD` and reset
`UPC`. -/
def Obligations.IllegalWordsAreTheRowlessOnes : Prop :=
  (∀ w : CommandWord, (∃ i, decode w = .ok i) ↔ legalWord w = true) ∧
  (∀ (w : CommandWord) (i : Instr) (r : OpcodeRow),
    decode w = .ok i → r ∈ opcodeRows → (r.admits w = true ↔ r.mnemonic = i.mnemonic)) ∧
  (∀ (w : CommandWord) (r r' : OpcodeRow),
    r ∈ opcodeRows → r' ∈ opcodeRows → r.admits w = true → r'.admits w = true → r = r') ∧
  (∀ (s : State) (w : CommandWord) (rest : List Input),
    s.params.wf = true → s.phase = .idle → s.inputs = .command w :: rest → legalWord w = false →
    step s = .next { s.finished 0 rest [.cmd w, .resp (.error .illegalCommand) 0] with
      cmd := some w })

/-- Words written out from R82 and R83 (`95_test_vectors.md` section 2.1). -/
def Obligations.SampleWordsDecode : Prop :=
  decode 0x01400000 = .ok (.openDevice 0x40) ∧
  decode 0x02000000 = .ok .closeDevice ∧
  decode 0x030F0BB7 = .ok (.setpos 15 2999) ∧
  decode 0x10FE0079 = .ok (.wrreg 0xFE 121) ∧
  decode 0x11FE0000 = .ok (.rdreg 0xFE) ∧
  decode 0x12450007 = .ok (.setbit 0x45 7) ∧
  decode 0x13000004 = .ok (.clrbit 0x00 4) ∧
  decode 0x200F0302 = .ok (.chwr .offHigh 15 0x02) ∧
  decode 0x21030200 = .ok (.chrd .offLow 3) ∧
  decode 0x12000008 = .error (.reservedBitSet 0x12) ∧
  decode 0x00000000 = .error (.unassignedOpcode 0x00)

/-- R91: a listing line whose operands are in range assembles to the word of the table, which decodes to
the line's command; a line with an operand out of range does not assemble. (Operand ranges the table does
not give: log 8.) -/
def Obligations.AssembledLineDecodesToItsCommand : Prop :=
  (∀ l : SourceLine, l.wf = true →
    l.assemble = some (BitVec.ofNat 32 l.word) ∧ l.word < 2 ^ 32 ∧
    decode (BitVec.ofNat 32 l.word) = .ok l.toInstr) ∧
  (∀ l : SourceLine, l.wf = false → l.assemble = none)

/-! ### Function units -/

/-- R115: the laws of the bit utilities, for all values and all offsets. -/
def Obligations.BitUtilityLaws : Prop :=
  (∀ v o : Nat, testBit (setBit v o) o = true ∧ testBit (clearBit v o) o = false) ∧
  (∀ v o o' : Nat, o' ≠ o →
    testBit (setBit v o) o' = testBit v o' ∧ testBit (clearBit v o) o' = testBit v o') ∧
  (∀ v o : Nat, (setBit v o ^^^ v = 0 ∨ setBit v o ^^^ v = 1 <<< o) ∧
    (clearBit v o ^^^ v = 0 ∨ clearBit v o ^^^ v = 1 <<< o)) ∧
  (∀ v o : Nat, setBit (setBit v o) o = setBit v o ∧ clearBit (clearBit v o) o = clearBit v o) ∧
  (∀ v o : Nat, clearBit (setBit v o) o = clearBit v o ∧ setBit (clearBit v o) o = setBit v o) ∧
  (∀ v o o' : Nat, o' ≠ o →
    setBit (setBit v o) o' = setBit (setBit v o') o ∧
    clearBit (clearBit v o) o' = clearBit (clearBit v o') o ∧
    setBit (clearBit v o) o' = clearBit (setBit v o') o)

/-- R112, R114 on a register byte: nothing is truncated, and the byte forms are the bitwise ones. -/
def Obligations.ByteFormsOfSetAndClear : Prop :=
  ∀ (b : Byte) (o : BitOffset),
    (setBitByte b o).toNat = setBit b.toNat o.toNat ∧
    (clearBitByte b o).toNat = clearBit b.toNat o.toNat ∧
    setBitByte b o = b ||| ((1 : Byte) <<< o.toNat) ∧
    clearBitByte b o = b &&& ~~~((1 : Byte) <<< o.toNat) ∧
    clearBit b.toNat o.toNat ≤ b.toNat

/-- R113: `get_byte` is a byte, it is 0 beyond the value's length, and four bytes reassemble. -/
def Obligations.GetByteReassembles : Prop :=
  (∀ v n : Nat, getByte v n ≤ 255 ∧ getByte v n = v / 2 ^ (8 * n) % 256) ∧
  (∀ v n : Nat, v < 2 ^ (8 * n) → getByte v n = 0) ∧
  (∀ v : Nat, v < 2 ^ 32 →
    getByte v 0 ||| getByte v 1 <<< 8 ||| getByte v 2 <<< 16 ||| getByte v 3 <<< 24 = v)

/-- R170: base 0x06, 0x07, 0x08 or 0x09 plus 4 times a channel of 0 to 15, `InvalidChannel` for every
other integer. -/
def Obligations.ChannelRegisterAddress : Prop :=
  ∀ (k : Kind) (c : Int),
    (0 ≤ c → c ≤ 15 → ∃ r : Byte, channelRegister k c = .ok r ∧
      (r.toNat : Int) = (match k with
        | .onLow => 0x06 | .onHigh => 0x07 | .offLow => 0x08 | .offHigh => 0x09) + 4 * c) ∧
    (c < 0 ∨ 15 < c → channelRegister k c = .error .invalidChannel)

/-- R171: step 4 between channels, the kinds consecutive, injective, and onto 0x06 to 0x45. -/
def Obligations.ChannelRegisterBijection : Prop :=
  (∀ (k : Kind) (c : Int) (r r' : Byte),
    channelRegister k c = .ok r → channelRegister k (c + 1) = .ok r' → r'.toNat = r.toNat + 4) ∧
  (∀ (k : Kind) (c : Nat), c ≤ 15 →
    channelRegister k c = .ok (BitVec.ofNat 8 (0x06 + 4 * c + k.code.toNat))) ∧
  (∀ (k k' : Kind) (c c' : Int) (r : Byte),
    channelRegister k c = .ok r → channelRegister k' c' = .ok r → k = k' ∧ c = c') ∧
  (∀ r : Byte, (∃ (k : Kind) (c : Int), channelRegister k c = .ok r) ↔
    0x06 ≤ r.toNat ∧ r.toNat ≤ 0x45)

/-- R30, R31 with the constraints of R8: the register map gives different names different addresses. -/
def Obligations.RegisterMapIsInjective : Prop :=
  ∀ p : Params, p.wf = true →
    ∀ n n' : RegName, n.address p = n'.address p → n = n'

/-- R186: `scale(p)` is `N(p) / 1000` rounded to the nearest integer, an exact half upwards under
`half_up` and to the even side under `half_even`; `N(p)` is DOC0's formula. -/
def Obligations.ScaleRoundsToNearest : Prop :=
  (∀ p : Nat, (scaleNumerator p : Int) = 305 * 1000 + ((p : Int) - 1000) * (509 - 305)) ∧
  (∀ (tie : RoundTie) (p : Nat),
    1000 * scale tie p ≤ scaleNumerator p + 500 ∧ scaleNumerator p ≤ 1000 * scale tie p + 500) ∧
  (∀ p : Nat, scaleNumerator p % 1000 = 500 →
    1000 * scale .halfUp p = scaleNumerator p + 500 ∧ scale .halfEven p % 2 = 0)

/-- R187: shape and range of `scale`. -/
def Obligations.ScaleShapeAndRange : Prop :=
  (∀ (tie : RoundTie) (p p' : Nat), p ≤ p' → scale tie p ≤ scale tie p') ∧
  (∀ tie : RoundTie, scale tie 1 = 101 ∧ scale tie 2999 = 713 ∧
    scale tie 1000 = 305 ∧ scale tie 2000 = 509 ∧ scale tie 1500 = 407) ∧
  (∀ (tie : RoundTie) (p : Nat), 1 ≤ p → p ≤ 2999 →
    101 ≤ scale tie p ∧ scale tie p ≤ 713 ∧ (pack (scale tie p)).2.toNat ≤ 2 ∧
    1 ≤ scale tie p - Config.pulseStart ∧ scale tie p - Config.pulseStart ≤ 613) ∧
  (∀ tie : RoundTie, scale tie 999 = 305 ∧ scale tie 1001 = 305 ∧ scale tie 1002 = 305) ∧
  (∀ (tie : RoundTie) (p : Nat), p ≤ 19580 → scale tie p ≤ 4095) ∧
  (∀ tie : RoundTie, scale tie 19580 = 4095 ∧ scale tie 19581 = 4096)

/-- R189: where the ties are, what the two rules make of the twelve of the default domain, and that they
agree everywhere else. -/
def Obligations.RoundingTies : Prop :=
  (∀ p : Nat, scaleNumerator p % 1000 = 500 ↔ ∃ m : Int, m % 2 = 1 ∧ (p : Int) = 1000 + 125 * m) ∧
  (∀ (p : Nat) (m : Int), (p : Int) = 1000 + 125 * m →
    2 * (scaleNumerator p : Int) = 1000 * (2 * 305 + 51 * m)) ∧
  (∀ p : Nat, scaleNumerator p % 1000 ≠ 500 → scale .halfEven p = scale .halfUp p) ∧
  (∀ p : Nat, 1 ≤ p → p ≤ 2999 → scaleNumerator p % 1000 = 500 →
    (p, scale .halfEven p, scale .halfUp p) ∈
      [(125, 126, 127), (375, 178, 178), (625, 228, 229), (875, 280, 280), (1125, 330, 331),
       (1375, 382, 382), (1625, 432, 433), (1875, 484, 484), (2125, 534, 535), (2375, 586, 586),
       (2625, 636, 637), (2875, 688, 688)])

/-- R188: the two bytes of a tick, and the tick recovered from them. -/
def Obligations.PackSplitsATick : Prop :=
  ∀ t : Nat, t ≤ 4095 →
    (pack t).1.toNat = t &&& 0xFF ∧ (pack t).2.toNat = t >>> 8 ∧ (pack t).2.toNat ≤ 15 ∧
    ((pack t).2.toNat <<< 8) ||| (pack t).1.toNat = t

/-- R37 under the constraints of R8: every byte that the micro-programs of OPEN and of an admissible SETPOS
write to an `on_high`, `off_high`, `all_on_high` or `all_off_high` register has bits 7:4 zero; a valid position
scales to a 12-bit tick. -/
def Obligations.HighByteUpperBitsAreZero : Prop :=
  (∀ (p : Params) (i : Instr) (n : Nat) (reg v : Byte), p.wf = true →
    ((∃ a, i = .openDevice a) ∨ ∃ c pos, i = .setpos c pos) → (commandOf p i).check = none →
    (commandOf p i).program[n]? = some (.uW reg (.lit v)) →
    (reg = p.regAllOnH ∨ reg = p.regAllOffH ∨ ∃ c : Fin 16,
      reg = RegName.address p (.channel .onHigh c) ∨ reg = RegName.address p (.channel .offHigh c)) →
    v &&& 0xF0 = 0) ∧
  (∀ (p : Params) (pos : Nat), p.wf = true → validPosition p pos = true →
    scale p.roundTie pos ≤ 4095 ∧ (pack (scale p.roundTie pos)).2 &&& 0xF0 = 0) ∧
  (pack Config.pulseEndMid).2 &&& 0xF0 = 0

/-- R151, R154: the literals against DOC0's formulas (121 is not a tie, 407 is exact). -/
def Obligations.DesignConstantsMatchTheFormulas : Prop :=
  Config.oscHz / (Config.periodTicks * Config.updateRateHz) = Config.prescale + 1 ∧
  2 * (Config.oscHz % (Config.periodTicks * Config.updateRateHz)) <
    Config.periodTicks * Config.updateRateHz ∧
  2 * Config.pulseEndMid = Config.pulseEndLow + Config.pulseEndHigh ∧
  Config.pulseEndMid = scale .halfEven 1500 ∧ Config.pulseEndMid = scale .halfUp 1500

/-! ### Frames of the ports -/

/-- R51, R52, R88, R89, R60: the transport calls, with the device address zero-extended; a read answer
of a length other than 1 is a transport error (R56, D20). -/
def Obligations.TransportCallFrames : Prop :=
  (∀ (a : DevAddr) (reg v : Byte), ∃ address : Byte, address.toNat = a.toNat ∧
    (Request.busW a reg v).call = some (.write address [reg, v]) ∧
    (Request.busR a reg).call = some (.writeThenRead address [reg] 1)) ∧
  (∀ ms : Nat, (Request.delay ms).call = none) ∧
  (∀ b : Byte, readAnswerOfBytes [b] = .ok b) ∧
  (∀ bs : List Byte, bs.length ≠ 1 → readAnswerOfBytes bs = .err)

/-- R86: the response word and its codes. -/
def Obligations.ResponseWordFields : Prop :=
  (∀ (code : Code) (data : Byte),
    (responseWord code data).extractLsb' 8 8 = code.number ∧
    (responseWord code data).extractLsb' 0 8 = data) ∧
  Code.ok.number = 0x00 ∧ (Code.error .invalidChannel).number = 0x01 ∧
  (Code.error .invalidPosition).number = 0x02 ∧ (Code.error .transportError).number = 0x03 ∧
  (Code.error .notUsable).number = 0x04 ∧ (Code.error .illegalCommand).number = 0x05

/-! ### Micro-programs -/

/-- R131: the micro-program of every command, written out. -/
def Obligations.MicroProgramTable : Prop :=
  ∀ p : Params,
    (∀ r v : Byte, (commandOf p (.wrreg r v)).program = [.uW r (.lit v)]) ∧
    (∀ r : Byte, (commandOf p (.rdreg r)).program = [.uR r]) ∧
    (∀ (r : Byte) (b : BitOffset),
      (commandOf p (.setbit r b)).program = [.uR r, .uW r (.setInT b)] ∧
      (commandOf p (.clrbit r b)).program = [.uR r, .uW r (.clearInT b)]) ∧
    (∀ (k : Kind) (c v r : Byte), channelRegister k (channelOperand c) = .ok r →
      (commandOf p (.chwr k c v)).program = [.uW r (.lit v)] ∧
      (commandOf p (.chrd k c)).program = [.uR r]) ∧
    (∀ (c : Byte) (pos : Position), c.toNat ≤ 15 →
      (commandOf p (.setpos c pos)).program =
        [.uW (BitVec.ofNat 8 (0x08 + 4 * c.toNat)) (.lit (byteOf (scale p.roundTie pos.toNat) 0)),
         .uW (BitVec.ofNat 8 (0x09 + 4 * c.toNat)) (.lit (byteOf (scale p.roundTie pos.toNat) 1))]) ∧
    (commandOf p .closeDevice).program = [.uR p.regMode1, .uW p.regMode1 (.setInT 4)] ∧
    (∀ a : DevAddr, (commandOf p (.openDevice a)).program =
      [.uW p.regPreScale (.lit 121), .uR p.regMode1, .uW p.regMode1 (.clearInT p.bitAllcall),
       .uW p.regAllOnL (.lit 100), .uW p.regAllOnH (.lit 0), .uW p.regAllOffL (.lit 151),
       .uW p.regAllOffH (.lit 1), .uR p.regMode1, .uW p.regMode1 (.clearInT 4), .uD 100,
       .uR p.regMode1, .uW p.regMode1 (.setInT p.bitRestart), .uD 100])

/-- R138: in every micro-program, a write computed from `T` follows at once a read of the same register. The
read leaves the byte read in `T`, the write asks for `set_bit` or `clear_bit` of `T` at its offset, whatever
else the state holds, and that differs from the byte read in at most its one target bit. -/
def Obligations.ReadModifyWriteTouchesOneBit : Prop :=
  (∀ (p : Params) (i : Instr) (n : Nat) (reg : Byte) (o : BitOffset),
    (commandOf p i).program[n]? = some (.uW reg (.setInT o)) ∨
      (commandOf p i).program[n]? = some (.uW reg (.clearInT o)) →
    ∃ m, n = m + 1 ∧ (commandOf p i).program[m]? = some (.uR reg)) ∧
  (∀ (s : State) (a : DevAddr) (reg b : Byte) (rest : List Input),
    s.addr = some a → s.inputs = .readAnswer (.ok b) :: rest →
    ∃ t, (MicroOp.uR reg).perform s = .advanced t ∧ t.t = some b ∧ t.addr = some a ∧
      t.trace = s.trace ++ [.busR a reg (.ok b)]) ∧
  (∀ (s : State) (a : DevAddr) (reg b : Byte) (o : BitOffset), s.addr = some a → s.t = some b →
    (MicroOp.uW reg (.setInT o)).request s = .ok (.busW a reg (setBitByte b o)) ∧
    (MicroOp.uW reg (.clearInT o)).request s = .ok (.busW a reg (clearBitByte b o))) ∧
  (∀ (b : Byte) (o : BitOffset) (j : Nat), j ≠ o.toNat →
    (setBitByte b o).getLsbD j = b.getLsbD j ∧ (clearBitByte b o).getLsbD j = b.getLsbD j) ∧
  (∀ (b : Byte) (o : BitOffset),
    (setBitByte b o).getLsbD o.toNat = true ∧ (clearBitByte b o).getLsbD o.toNat = false)

/-- R24, D26: a read that meets a transport error leaves `T` without a value, in the model `none` (log 2:
the model's reading), leaves `UPC` where it was (R130) and is recorded with the answer `err`. -/
def Obligations.FailedReadLeavesTWithoutValue : Prop :=
  ∀ (s : State) (a : DevAddr) (reg : Byte) (rest : List Input),
    s.addr = some a → s.inputs = .readAnswer .err :: rest →
    (MicroOp.uR reg).perform s = .failed
      { s with t := none, pending := none, inputs := rest, trace := s.trace ++ [.busR a reg .err] }

/-- R215: only OPEN contains delays, and it requests exactly two of 100 ms. -/
def Obligations.OnlyOpenRequestsDelays : Prop :=
  (∀ (p : Params) (i : Instr) (ms : Nat), .uD ms ∈ (commandOf p i).program →
    ms = 100 ∧ ∃ a, i = .openDevice a) ∧
  (∀ (p : Params) (a : DevAddr), (commandOf p (.openDevice a)).program.count (.uD 100) = 2 ∧
    (commandOf p (.openDevice a)).program[9]? = some (.uD 100) ∧
    (commandOf p (.openDevice a)).program[12]? = some (.uD 100))

/-! ### The commands -/

/-- R134 with R82: WRREG's operands, its refusal, its completion and its transport error. -/
def Obligations.WrregWritesOneByte : Prop :=
  (∀ w : CommandWord, opcField w = 0x10 →
    decode w = if (bField w).extractLsb' 8 8 = 0
      then .ok (.wrreg (aField w) ((bField w).extractLsb' 0 8)) else .error (.reservedBitSet 0x10)) ∧
  (∀ (r v : Byte) (s : State), s.lc ≠ .ready →
    exec (.wrreg r v) s = .next (s.finished 0 s.inputs [.resp (.error .notUsable) 0])) ∧
  (∀ (r v : Byte) (s : State) (a : DevAddr) (rest : List Input), s.Usable a →
    s.inputs = .writeAnswer .ok :: rest →
    exec (.wrreg r v) s = .next (s.finished 1 rest [.busW a r v .ok, .resp .ok 0])) ∧
  (∀ (r v : Byte) (s : State) (a : DevAddr) (rest : List Input), s.Usable a →
    s.inputs = .writeAnswer .err :: rest →
    exec (.wrreg r v) s =
      .next (s.finished 0 rest [.busW a r v .err, .resp (.error .transportError) 0]))

/-- R135 with R82: RDREG. The byte delivered is the response's data and is latched in `T`; nothing is said
of `T` after a failed read (R24: "without a defined value"). -/
def Obligations.RdregReturnsTheByteRead : Prop :=
  (∀ w : CommandWord, opcField w = 0x11 →
    decode w = if bField w = 0 then .ok (.rdreg (aField w)) else .error (.reservedBitSet 0x11)) ∧
  (∀ (r : Byte) (s : State), s.lc ≠ .ready →
    exec (.rdreg r) s = .next (s.finished 0 s.inputs [.resp (.error .notUsable) 0])) ∧
  (∀ (r : Byte) (s : State) (a : DevAddr) (b : Byte) (rest : List Input), s.Usable a →
    s.inputs = .readAnswer (.ok b) :: rest →
    exec (.rdreg r) s =
      .next { s.finished 1 rest [.busR a r (.ok b), .resp .ok b] with t := some b }) ∧
  (∀ (r : Byte) (s : State) (a : DevAddr) (rest : List Input), s.Usable a →
    s.inputs = .readAnswer .err :: rest →
    ∃ t, exec (.rdreg r) s =
      .next { s.finished 0 rest [.busR a r .err, .resp (.error .transportError) 0] with t := t })

/-- R136 with R82: SETBIT. The write is issued even when the bit is already 1. -/
def Obligations.SetbitReadsAndWritesBack : Prop :=
  (∀ w : CommandWord, opcField w = 0x12 →
    decode w = if (bField w).extractLsb' 3 13 = 0
      then .ok (.setbit (aField w) ((bField w).extractLsb' 0 3)) else .error (.reservedBitSet 0x12)) ∧
  (∀ (r : Byte) (o : BitOffset) (s : State), s.lc ≠ .ready →
    exec (.setbit r o) s = .next (s.finished 0 s.inputs [.resp (.error .notUsable) 0])) ∧
  (∀ (r : Byte) (o : BitOffset) (s : State) (a : DevAddr) (b : Byte) (rest : List Input),
    s.Usable a → s.inputs = .readAnswer (.ok b) :: .writeAnswer .ok :: rest →
    exec (.setbit r o) s = .next { s.finished 2 rest
      [.busR a r (.ok b), .busW a r (b ||| ((1 : Byte) <<< o.toNat)) .ok, .resp .ok 0] with
      t := some b }) ∧
  (∀ (r : Byte) (o : BitOffset) (s : State) (a : DevAddr) (rest : List Input),
    s.Usable a → s.inputs = .readAnswer .err :: rest →
    ∃ t, exec (.setbit r o) s = .next { s.finished 0 rest
      [.busR a r .err, .resp (.error .transportError) 0] with t := t }) ∧
  (∀ (r : Byte) (o : BitOffset) (s : State) (a : DevAddr) (b : Byte) (rest : List Input),
    s.Usable a → s.inputs = .readAnswer (.ok b) :: .writeAnswer .err :: rest →
    exec (.setbit r o) s = .next { s.finished 1 rest
      [.busR a r (.ok b), .busW a r (b ||| ((1 : Byte) <<< o.toNat)) .err,
       .resp (.error .transportError) 0] with t := some b })

/-- R137 with R82: CLRBIT. The write is issued even when the bit is already 0. -/
def Obligations.ClrbitReadsAndWritesBack : Prop :=
  (∀ w : CommandWord, opcField w = 0x13 →
    decode w = if (bField w).extractLsb' 3 13 = 0
      then .ok (.clrbit (aField w) ((bField w).extractLsb' 0 3)) else .error (.reservedBitSet 0x13)) ∧
  (∀ (r : Byte) (o : BitOffset) (s : State), s.lc ≠ .ready →
    exec (.clrbit r o) s = .next (s.finished 0 s.inputs [.resp (.error .notUsable) 0])) ∧
  (∀ (r : Byte) (o : BitOffset) (s : State) (a : DevAddr) (b : Byte) (rest : List Input),
    s.Usable a → s.inputs = .readAnswer (.ok b) :: .writeAnswer .ok :: rest →
    exec (.clrbit r o) s = .next { s.finished 2 rest
      [.busR a r (.ok b), .busW a r (b &&& ~~~((1 : Byte) <<< o.toNat)) .ok, .resp .ok 0] with
      t := some b }) ∧
  (∀ (r : Byte) (o : BitOffset) (s : State) (a : DevAddr) (rest : List Input),
    s.Usable a → s.inputs = .readAnswer .err :: rest →
    ∃ t, exec (.clrbit r o) s = .next { s.finished 0 rest
      [.busR a r .err, .resp (.error .transportError) 0] with t := t }) ∧
  (∀ (r : Byte) (o : BitOffset) (s : State) (a : DevAddr) (b : Byte) (rest : List Input),
    s.Usable a → s.inputs = .readAnswer (.ok b) :: .writeAnswer .err :: rest →
    exec (.clrbit r o) s = .next { s.finished 1 rest
      [.busR a r (.ok b), .busW a r (b &&& ~~~((1 : Byte) <<< o.toNat)) .err,
       .resp (.error .transportError) 0] with t := some b })

/-- R174 with R82: CHWR, at address 0x06 + 4c + k (R171); `InvalidChannel` before any bus access; the
byte is written as given. -/
def Obligations.ChwrWritesTheChannelRegister : Prop :=
  (∀ w : CommandWord, opcField w = 0x20 →
    decode w = if (bField w).extractLsb' 10 6 = 0
      then .ok (.chwr (Kind.ofCode ((bField w).extractLsb' 8 2)) (aField w)
        ((bField w).extractLsb' 0 8))
      else .error (.reservedBitSet 0x20)) ∧
  (∀ (k : Kind) (c v : Byte) (s : State), s.lc ≠ .ready →
    exec (.chwr k c v) s = .next (s.finished 0 s.inputs [.resp (.error .notUsable) 0])) ∧
  (∀ (k : Kind) (c v : Byte) (s : State), s.lc = .ready → 15 < c.toNat →
    exec (.chwr k c v) s = .next (s.finished 0 s.inputs [.resp (.error .invalidChannel) 0])) ∧
  (∀ (k : Kind) (c v : Byte) (s : State) (a : DevAddr) (rest : List Input), s.Usable a →
    c.toNat ≤ 15 → s.inputs = .writeAnswer .ok :: rest →
    exec (.chwr k c v) s = .next (s.finished 1 rest
      [.busW a (BitVec.ofNat 8 (0x06 + 4 * c.toNat + k.code.toNat)) v .ok, .resp .ok 0])) ∧
  (∀ (k : Kind) (c v : Byte) (s : State) (a : DevAddr) (rest : List Input), s.Usable a →
    c.toNat ≤ 15 → s.inputs = .writeAnswer .err :: rest →
    exec (.chwr k c v) s = .next (s.finished 0 rest
      [.busW a (BitVec.ofNat 8 (0x06 + 4 * c.toNat + k.code.toNat)) v .err,
       .resp (.error .transportError) 0]))

/-- R175 with R82: CHRD, at address 0x06 + 4c + k (R171); the byte is returned unmasked. -/
def Obligations.ChrdReturnsTheChannelRegister : Prop :=
  (∀ w : CommandWord, opcField w = 0x21 →
    decode w = if (bField w).extractLsb' 10 6 = 0 ∧ (bField w).extractLsb' 0 8 = 0
      then .ok (.chrd (Kind.ofCode ((bField w).extractLsb' 8 2)) (aField w))
      else .error (.reservedBitSet 0x21)) ∧
  (∀ (k : Kind) (c : Byte) (s : State), s.lc ≠ .ready →
    exec (.chrd k c) s = .next (s.finished 0 s.inputs [.resp (.error .notUsable) 0])) ∧
  (∀ (k : Kind) (c : Byte) (s : State), s.lc = .ready → 15 < c.toNat →
    exec (.chrd k c) s = .next (s.finished 0 s.inputs [.resp (.error .invalidChannel) 0])) ∧
  (∀ (k : Kind) (c : Byte) (s : State) (a : DevAddr) (b : Byte) (rest : List Input), s.Usable a →
    c.toNat ≤ 15 → s.inputs = .readAnswer (.ok b) :: rest →
    exec (.chrd k c) s = .next { s.finished 1 rest
      [.busR a (BitVec.ofNat 8 (0x06 + 4 * c.toNat + k.code.toNat)) (.ok b), .resp .ok b] with
      t := some b }) ∧
  (∀ (k : Kind) (c : Byte) (s : State) (a : DevAddr) (rest : List Input), s.Usable a →
    c.toNat ≤ 15 → s.inputs = .readAnswer .err :: rest →
    ∃ t, exec (.chrd k c) s = .next { s.finished 0 rest
      [.busR a (BitVec.ofNat 8 (0x06 + 4 * c.toNat + k.code.toNat)) .err,
       .resp (.error .transportError) 0] with t := t })

/-- R190, R191 with R82: SETPOS. Two writes, low byte first; on `InvalidChannel` (also when the position is
invalid too) and on `InvalidPosition` no bus traffic; after a transport error at the first write no second
write, after one at the second nothing undone, and `LC` as it was. -/
def Obligations.SetposWritesLowThenHigh : Prop :=
  (∀ w : CommandWord, opcField w = 0x03 → decode w = .ok (.setpos (aField w) (bField w))) ∧
  (∀ (c : Byte) (p : Position) (s : State), s.lc ≠ .ready →
    exec (.setpos c p) s = .next (s.finished 0 s.inputs [.resp (.error .notUsable) 0])) ∧
  (∀ (c : Byte) (p : Position) (s : State), s.lc = .ready → 15 < c.toNat →
    exec (.setpos c p) s = .next (s.finished 0 s.inputs [.resp (.error .invalidChannel) 0])) ∧
  (∀ (c : Byte) (p : Position) (s : State), s.lc = .ready → c.toNat ≤ 15 →
    (p.toNat = 0 ∨ s.params.posMaxExcl ≤ p.toNat) →
    exec (.setpos c p) s = .next (s.finished 0 s.inputs [.resp (.error .invalidPosition) 0])) ∧
  (∀ (c : Byte) (p : Position) (s : State) (a : DevAddr) (rest : List Input), s.Usable a →
    c.toNat ≤ 15 → 0 < p.toNat → p.toNat < s.params.posMaxExcl →
    s.inputs = .writeAnswer .ok :: .writeAnswer .ok :: rest →
    exec (.setpos c p) s = .next (s.finished 2 rest
      [.busW a (BitVec.ofNat 8 (0x08 + 4 * c.toNat))
        (byteOf (scale s.params.roundTie p.toNat) 0) .ok,
       .busW a (BitVec.ofNat 8 (0x09 + 4 * c.toNat))
        (byteOf (scale s.params.roundTie p.toNat) 1) .ok,
       .resp .ok 0])) ∧
  (∀ (c : Byte) (p : Position) (s : State) (a : DevAddr) (rest : List Input), s.Usable a →
    c.toNat ≤ 15 → 0 < p.toNat → p.toNat < s.params.posMaxExcl →
    s.inputs = .writeAnswer .err :: rest →
    exec (.setpos c p) s = .next (s.finished 0 rest
      [.busW a (BitVec.ofNat 8 (0x08 + 4 * c.toNat))
        (byteOf (scale s.params.roundTie p.toNat) 0) .err,
       .resp (.error .transportError) 0])) ∧
  (∀ (c : Byte) (p : Position) (s : State) (a : DevAddr) (rest : List Input), s.Usable a →
    c.toNat ≤ 15 → 0 < p.toNat → p.toNat < s.params.posMaxExcl →
    s.inputs = .writeAnswer .ok :: .writeAnswer .err :: rest →
    exec (.setpos c p) s = .next (s.finished 1 rest
      [.busW a (BitVec.ofNat 8 (0x08 + 4 * c.toNat))
        (byteOf (scale s.params.roundTie p.toNat) 0) .ok,
       .busW a (BitVec.ofNat 8 (0x09 + 4 * c.toNat))
        (byteOf (scale s.params.roundTie p.toNat) 1) .err,
       .resp (.error .transportError) 0]))

/-- R192: the trace of a successful SETPOS depends on `ADDR`, the operands and the parameters alone. -/
def Obligations.SetposTraceIsAFunctionOfItsOperands : Prop :=
  ∀ (c : Byte) (p : Position) (s s' t t' : State) (evs evs' : List Event),
    s.addr = s'.addr → s.params = s'.params →
    exec (.setpos c p) s = .next t → t.trace = s.trace ++ evs ++ [.resp .ok 0] →
    exec (.setpos c p) s' = .next t' → t'.trace = s'.trace ++ evs' ++ [.resp .ok 0] →
    evs = evs'

/-- R150 to R155, R158: OPEN. Refused when READY; in every other lifecycle it loads `ADDR` and performs the
thirteen micro-operations that R150 and the trace E8 list, and the block is READY. The list has eleven
transactions where R157 and C5 count twelve: the model follows the list (log 10). -/
def Obligations.OpenBringsTheDeviceUp : Prop :=
  (∀ w : CommandWord, opcField w = 0x01 →
    decode w = if (aField w).extractLsb' 7 1 = 0 ∧ bField w = 0
      then .ok (.openDevice ((aField w).extractLsb' 0 7)) else .error (.reservedBitSet 0x01)) ∧
  (∀ (a : DevAddr) (s : State), s.lc = .ready →
    exec (.openDevice a) s = .next (s.finished 0 s.inputs [.resp (.error .notUsable) 0])) ∧
  (∀ (a : DevAddr) (s : State) (m1 m2 m3 : Byte) (rest : List Input), s.lc ≠ .ready →
    s.inputs = openAnswers m1 m2 m3 ++ rest →
    exec (.openDevice a) s = .next
      { s.finished 13 rest (openEvents s.params a m1 m2 m3 ++ [.resp .ok 0]) with
        lc := .ready, addr := some a, t := some m3 })

/-- R156: failure of OPEN at micro-operation `k`, any of its bus micro-operations: nothing after it is
performed, nothing before it is undone, `LC` is FAILED, `ADDR` keeps the new address, and every command
but OPEN is then refused. -/
def Obligations.OpenFailsAtAnyTransaction : Prop :=
  (∀ (a : DevAddr) (s : State) (m1 m2 m3 : Byte) (rest : List Input) (k : Nat) (x : Input)
      (e : Event), s.lc ≠ .ready →
    (openAnswers m1 m2 m3)[k]? = some x → (openEvents s.params a m1 m2 m3)[k]? = some e →
    x ≠ .delayDone → s.inputs = (openAnswers m1 m2 m3).take k ++ x.asFailed :: rest →
    ∃ t, exec (.openDevice a) s = .next t ∧ t.lc = .failed ∧ t.addr = some a ∧ t.cmd = s.cmd ∧
      t.upc = BitVec.ofNat 4 k ∧ t.phase = .idle ∧ t.pending = none ∧ t.inputs = rest ∧
      t.params = s.params ∧
      t.trace = s.trace ++ (openEvents s.params a m1 m2 m3).take k ++
        [e.asFailed, .resp (.error .transportError) 0]) ∧
  (∀ (i : Instr) (s : State), s.lc = .failed → (∀ a, i ≠ .openDevice a) →
    exec i s = .next (s.finished 0 s.inputs [.resp (.error .notUsable) 0]))

/-- R160, R161, R163: CLOSE. The write is issued whatever the byte read; the block is CLOSED, also after a
transport error, whose command performs no further micro-operation. -/
def Obligations.CloseSetsTheSleepBit : Prop :=
  (∀ w : CommandWord, opcField w = 0x02 →
    decode w = if aField w = 0 ∧ bField w = 0 then .ok .closeDevice
      else .error (.reservedBitSet 0x02)) ∧
  (∀ s : State, s.lc ≠ .ready →
    exec .closeDevice s = .next (s.finished 0 s.inputs [.resp (.error .notUsable) 0])) ∧
  (∀ (s : State) (a : DevAddr) (b : Byte) (rest : List Input), s.Usable a →
    s.inputs = .readAnswer (.ok b) :: .writeAnswer .ok :: rest →
    exec .closeDevice s = .next { s.finished 2 rest
      [.busR a s.params.regMode1 (.ok b), .busW a s.params.regMode1 (b ||| 0x10) .ok,
       .resp .ok 0] with lc := .closed, t := some b }) ∧
  (∀ (s : State) (a : DevAddr) (rest : List Input), s.Usable a →
    s.inputs = .readAnswer .err :: rest →
    ∃ t, exec .closeDevice s = .next { s.finished 0 rest
      [.busR a s.params.regMode1 .err, .resp (.error .transportError) 0] with
      lc := .closed, t := t }) ∧
  (∀ (s : State) (a : DevAddr) (b : Byte) (rest : List Input), s.Usable a →
    s.inputs = .readAnswer (.ok b) :: .writeAnswer .err :: rest →
    exec .closeDevice s = .next { s.finished 1 rest
      [.busR a s.params.regMode1 (.ok b), .busW a s.params.regMode1 (b ||| 0x10) .err,
       .resp (.error .transportError) 0] with lc := .closed, t := some b })

/-! ### Errors -/

/-- R204: the lifecycle gate, both ways: a refused command is answered `NotUsable` and changes nothing
but `UPC`; an admitted one is not answered `NotUsable`. -/
def Obligations.LifecycleGate : Prop :=
  ∀ (i : Instr) (s : State),
    let admitted := match i, s.lc with
      | .openDevice _, .ready => False
      | .openDevice _, _ => True
      | _, .ready => True
      | _, _ => False
    (¬ admitted →
      exec i s = .next (s.finished 0 s.inputs [.resp (.error .notUsable) 0])) ∧
    (admitted → ∀ (t : State) (evs : List Event), exec i s = .next t → t.trace = s.trace ++ evs →
      ∀ d, .resp (.error .notUsable) d ∉ evs)

/-- R201: `InvalidChannel`, raised before any bus access by each command with a channel operand. -/
def Obligations.InvalidChannelHasNoTraffic : Prop :=
  ∀ (s : State) (c : Byte), s.lc = .ready → 15 < c.toNat →
    ∀ i : Instr, ((∃ p, i = .setpos c p) ∨ (∃ k v, i = .chwr k c v) ∨ (∃ k, i = .chrd k c)) →
      exec i s = .next (s.finished 0 s.inputs [.resp (.error .invalidChannel) 0])

/-- R202: `InvalidPosition`, raised before any bus access. -/
def Obligations.InvalidPositionHasNoTraffic : Prop :=
  ∀ (s : State) (c : Byte) (p : Position), s.lc = .ready → c.toNat ≤ 15 →
    (p = 0 ∨ s.params.posMaxExcl ≤ p.toNat) →
    exec (.setpos c p) s = .next (s.finished 0 s.inputs [.resp (.error .invalidPosition) 0])

/-- R206: the first error in the order IllegalCommand, NotUsable, InvalidChannel, InvalidPosition is the
one reported; where none of them holds only `OK` or `TransportError` can be, `TransportError` where a
transaction failed, of which there is never a second, nor a second response. -/
def Obligations.ErrorPriority : Prop :=
  ∀ (s : State) (w : CommandWord) (rest : List Input),
    s.params.wf = true → s.phase = .idle → s.inputs = .command w :: rest →
    (∀ e, refusalOf s.params s.lc w = some e →
      step s = .next { s.finished 0 rest [.cmd w, .resp (.error e) 0] with cmd := some w }) ∧
    (refusalOf s.params s.lc w = none → ∀ t, step s = .next t →
      ∃ evs, t.trace = s.trace ++ .cmd w :: evs ∧
        (∀ e d, .resp (.error e) d ∈ evs → e = .transportError) ∧
        (∀ e ∈ evs, e.isBusError = true → .resp (.error .transportError) 0 ∈ evs) ∧
        (evs.filter Event.isBusError).length ≤ 1 ∧ (evs.filter Event.isResponse).length ≤ 1)

/-- R203, R207: a transport error is precise, of a command as it is accepted and of one that waited and goes
on. The failing transaction is the last event before the response, it is the only one, the response's data is
0, and `LC` becomes FAILED for OPEN, CLOSED for CLOSE, and stays for every other command. -/
def Obligations.TransportErrorIsPrecise : Prop :=
  ∀ (i : Instr) (s t : State) (evs : List Event) (d : Byte),
    (exec i s = .next t ∨
      (s.phase = .executing ∧ (∃ w, s.cmd = some w ∧ decode w = .ok i) ∧ step s = .next t)) →
    t.trace = s.trace ++ evs → .resp (.error .transportError) d ∈ evs →
    (∃ before e, evs = before ++ [e, .resp (.error .transportError) 0] ∧ e.isBusError = true ∧
      ∀ x ∈ before, x.isBusError = false) ∧
    t.phase = .idle ∧ t.pending = none ∧
    t.lc = (match i with
      | .openDevice _ => .failed
      | .closeDevice => .closed
      | _ => s.lc)

/-! ### Whole-machine rules -/

/-- R86, R132: a command, as it is accepted and when it goes on after a wait (no reset being next), ends with
exactly one response, its last event, and the block is then idle; or it has not responded, and a request is
outstanding. -/
def Obligations.ExactlyOneResponsePerCommand : Prop :=
  ∀ s t : State,
    ((∃ i, exec i s = .next t) ∨
      (s.phase = .executing ∧ (∀ rest, s.inputs ≠ .reset :: rest) ∧ step s = .next t)) →
    ∃ evs, t.trace = s.trace ++ evs ∧
      ((t.phase = .idle ∧ t.pending = none ∧ ∃ before code data,
          evs = before ++ [.resp code data] ∧ ∀ e ∈ before, e.isResponse = false) ∨
        (t.phase = .executing ∧ t.pending ≠ none ∧ ∀ e ∈ evs, e.isResponse = false))

/-- R12, R22: every transaction a step issues is at the address `ADDR` holds. -/
def Obligations.AllTrafficIsAtAddr : Prop :=
  ∀ s t : State, step s = .next t →
    ∃ evs, t.trace = s.trace ++ evs ∧ ∀ e ∈ evs, ∀ a, e.busAddress = some a → t.addr = some a

/-- R21: the encodings of `LC` and its transitions; nothing else changes it. -/
def Obligations.LifecycleTransitions : Prop :=
  (Lifecycle.unopened.code = 0b00 ∧ Lifecycle.ready.code = 0b01 ∧ Lifecycle.closed.code = 0b10 ∧
    Lifecycle.failed.code = 0b11) ∧
  (∀ s t : State, step s = .next t →
    t.lc = s.lc ∨
    (t.lc = .unopened ∧ ∃ rest, s.inputs = .reset :: rest) ∨
    (∃ w i before code data, t.cmd = some w ∧ decode w = .ok i ∧
      t.trace = before ++ [.resp code data] ∧
      (((∃ a, i = .openDevice a) ∧ code = .ok ∧ t.lc = .ready) ∨
        ((∃ a, i = .openDevice a) ∧ code = .error .transportError ∧ t.lc = .failed) ∨
        (i = .closeDevice ∧ (code = .ok ∨ code = .error .transportError) ∧ t.lc = .closed))))

/-- R22: `ADDR` is written by an accepted OPEN, from the word's address field, and cleared by reset; by
nothing else. -/
def Obligations.AddrIsWrittenByOpenAlone : Prop :=
  ∀ s t : State, step s = .next t →
    t.addr = s.addr ∨
    (t.addr = none ∧ ∃ rest, s.inputs = .reset :: rest) ∨
    (s.lc ≠ .ready ∧ ∃ w a, t.cmd = some w ∧ decode w = .ok (.openDevice a) ∧ t.addr = some a)

/-- R28, R62: no step takes back an event, skips or reorders a move of the environment, or changes a
parameter (R29). -/
def Obligations.StepOnlyExtendsTheTrace : Prop :=
  ∀ s t : State, step s = .next t →
    (∃ evs, t.trace = s.trace ++ evs) ∧ (∃ taken, s.inputs = taken ++ t.inputs) ∧
    t.params = s.params

/-- The frame of the commands, in every outcome that is a next state: `CMD` and the parameters always;
`ADDR` but for OPEN; `LC` but for OPEN and CLOSE; `T` for the commands that read nothing (WRREG, CHWR,
SETPOS). -/
def Obligations.CommandFrame : Prop :=
  ∀ (i : Instr) (s t : State), exec i s = .next t →
    t.cmd = s.cmd ∧ t.params = s.params ∧
    ((∀ a, i ≠ .openDevice a) → t.addr = s.addr) ∧
    ((∀ a, i ≠ .openDevice a) → i ≠ .closeDevice → t.lc = s.lc) ∧
    (((∃ r v, i = .wrreg r v) ∨ (∃ k c v, i = .chwr k c v) ∨ (∃ c p, i = .setpos c p)) → t.t = s.t)

/-- R20, R24, R27: nothing survives from one command to the next but `LC` and `ADDR`. Whatever `T`,
`CMD`, `UPC` and the ports hold when a command is accepted, its outcome is the same, `T` and `CMD`
aside. -/
def Obligations.OnlyLcAndAddrSurvive : Prop :=
  ∀ (i : Instr) (s : State) (t : Option Byte) (cmd : Option CommandWord) (upc : BitVec 4)
    (phase : Phase) (pending : Option Request),
    forgetDeadIn (exec i { s with t := t, cmd := cmd, upc := upc, phase := phase,
                                  pending := pending }) =
      forgetDeadIn (exec i s)

/-- R132, R26: a step of an idle block takes the next command word: it latches `CMD`, records `Cmd(w)`, and
runs the command the word decodes to. A step of a busy block goes on with the command in `CMD`, at the
micro-operation in `UPC`. -/
def Obligations.StepRunsTheDecodedCommand : Prop :=
  (∀ (s : State) (w : CommandWord) (i : Instr) (rest : List Input),
    s.params.wf = true → s.phase = .idle → s.inputs = .command w :: rest → decode w = .ok i →
    step s = exec i { s with inputs := rest, cmd := some w, trace := s.trace ++ [.cmd w] }) ∧
  (∀ (s : State) (w : CommandWord) (i : Instr),
    s.params.wf = true → s.phase = .executing → s.cmd = some w → decode w = .ok i →
    (∀ rest, s.inputs ≠ .reset :: rest) →
    step s = (commandOf s.params i).run ((commandOf s.params i).program.drop s.upc.toNat) s)

/-- The invariant is kept by every step, from every state that has it. -/
def Obligations.EveryStepKeepsTheInvariant : Prop :=
  ∀ s t : State, s.Inv → step s = .next t → t.Inv

/-- The state after reset has the invariant. -/
def Obligations.ResetHasTheInvariant : Prop := State.reset.Inv

/-- R40, U12: no register without value is ever read: from a state with the invariant, with parameters
that meet R8, every step goes on. -/
def Obligations.NoRunReadsAnAbsentRegister : Prop :=
  ∀ s : State, s.Inv → s.params.wf = true → ∃ t, step s = .next t

/-- R133: the small-step machine agrees with the big step: at most 15 small steps (acceptance, up to 13
micro-operations, response) reach the very outcome of one step, trace and state; and a busy small-step
machine takes no command word. -/
def Obligations.SmallStepsAgreeWithTheBigStep : Prop :=
  (∀ s : State, ∃ n, 1 ≤ n ∧ n ≤ 15 ∧ microRun n s = step s) ∧
  (∀ (s t : State) (w : CommandWord) (rest : List Input), s.phase = .executing →
    s.inputs = .command w :: rest → microStep s = .next t → t.inputs = s.inputs)

/-- R247, R53: a request that is not answered is never passed: the block does not move until its answer
or reset comes; a command word is not taken (R80); reset ends the wait. That a waiting step answers the state
unchanged (log 12) and that a move that does not fit stays at the head of the inputs (log 4) are the model's
choices. -/
def Obligations.NoStepPastAPendingRequest : Prop :=
  ∀ (s : State) (r : Request), s.Inv → s.params.wf = true → s.pending = some r →
    ((∀ x rest, s.inputs = x :: rest → ¬ x.answers r ∧ x ≠ .reset) → step s = .next s) ∧
    (∀ rest, s.inputs = .reset :: rest → ∃ t, step s = .next t ∧ t.phase = .idle ∧
      t.lc = .unopened ∧ t.pending = none ∧ t.trace = s.trace)

/-- R53: an admitted and valid command whose first transaction gets no answer leaves exactly that request
standing on the transport port, the request of its first micro-operation at the address in `ADDR` (OPEN's own
operand for OPEN, also for the first OPEN after reset), and nothing else done. That no event is recorded yet is
the model's choice (log 7). -/
def Obligations.UnansweredCommandStands : Prop :=
  ∀ (i : Instr) (s : State), (commandOf s.params i).gate.admits s.lc = true →
    (commandOf s.params i).check = none → (s.addr ≠ none ∨ ∃ a, i = .openDevice a) →
    s.inputs = [] →
    let start : State := { s with addr := match i with
      | .openDevice a => some a
      | _ => s.addr }
    ∃ m r, (commandOf s.params i).program[0]? = some m ∧ m.request start = .ok r ∧
      (∀ ms, r ≠ .delay ms) ∧
      exec i s = .next { start with upc := 0, phase := .executing, pending := some r }

/-- R231: after reset the block waits for a command word (a step that changes nothing is the model's form of
waiting, log 12), and the only command admitted is OPEN. -/
def Obligations.AfterResetOnlyOpenIsAdmitted : Prop :=
  step State.reset = .next State.reset ∧
  (∀ i : Instr, (commandOf State.reset.params i).gate.admits State.reset.lc = true ↔
    ∃ a, i = .openDevice a) ∧
  (∀ i : Instr, (∀ a, i ≠ .openDevice a) → exec i State.reset =
    .next (State.reset.finished 0 [] [.resp (.error .notUsable) 0]))

/-- R230: the reset event, idle or in the middle of a command (where a request is outstanding: the
model's choice, log 6): the command in progress is discarded without a response, no transaction and no
delay is issued. -/
def Obligations.ResetDiscardsTheCommand : Prop :=
  ∀ (s : State) (rest : List Input), s.params.wf = true → (s.phase = .idle ∨ s.pending ≠ none) →
    s.inputs = .reset :: rest →
    step s = .next { s with lc := .unopened, addr := none, cmd := none, t := none, upc := 0,
                            phase := .idle, pending := none, inputs := rest }

/-- R40: the reset values, and the fault on a read of an absent value. -/
def Obligations.ResetValuesAndAbsentReads : Prop :=
  (State.reset.lc = .unopened ∧ State.reset.upc = 0 ∧ State.reset.addr = none ∧
    State.reset.cmd = none ∧ State.reset.t = none) ∧
  (∀ s : State, s.addr = none → s.readAddr = .error .absentAddr) ∧
  (∀ s : State, s.t = none → s.readT = .error .absentT) ∧
  (∀ s : State, s.cmd = none → s.resume = .fault .absentCmd)

/-- R8: what the constraints on the parameters are, that the defaults meet them under either tie rule, and
that the model refuses others. -/
def Obligations.ParametersAreChecked : Prop :=
  (∀ p : Params, p.wf = true ↔
    [p.regMode1, p.regMode2, p.regAllOnL, p.regAllOnH, p.regAllOffL, p.regAllOffH,
      p.regPreScale].Nodup ∧
    (∀ r ∈ [p.regMode1, p.regMode2, p.regAllOnL, p.regAllOnH, p.regAllOffL, p.regAllOffH,
      p.regPreScale], ¬ (0x06 ≤ r.toNat ∧ r.toNat ≤ 0x45)) ∧
    p.bitAllcall ≠ 4 ∧ p.bitRestart ≠ 4 ∧ p.bitAllcall ≠ p.bitRestart ∧
    2 ≤ p.posMaxExcl ∧ p.posMaxExcl ≤ 19581) ∧
  (∀ tie : RoundTie, (Params.default tie).wf = true) ∧
  (∀ s : State, s.params.wf = false → step s = .refused .badParameters)

/-! ### The reference device (a test aid; nothing above rests on it) -/

/-- R71: the device's answers and what a write changes, register by register: the register written, the
like-named register of every channel if it is a broadcast register, and no other. -/
def Obligations.ReferenceDeviceAnswers : Prop :=
  ∀ (p : Params) (d : RefDevice), p.wf = true → d.regs.wf = true →
    (∀ (a : DevAddr) (reg v : Byte), a ≠ d.da →
      d.answer p (.busW a reg v) = (.writeAnswer .err, d) ∧
      d.answer p (.busR a reg) = (.readAnswer .err, d)) ∧
    (∀ reg : Byte, d.answer p (.busR d.da reg) =
      (.readAnswer (.ok (Memory.read d.regs reg.toNat)), d)) ∧
    (∀ reg v : Byte, ∃ d', d.answer p (.busW d.da reg v) = (.writeAnswer .ok, d') ∧
      d'.da = d.da ∧ ∀ x : Byte,
        Memory.read d'.regs x.toNat =
          if x = reg ∨ ∃ c : Fin 16,
              (reg = p.regAllOnL ∧ x = RegName.address p (.channel .onLow c)) ∨
              (reg = p.regAllOnH ∧ x = RegName.address p (.channel .onHigh c)) ∨
              (reg = p.regAllOffL ∧ x = RegName.address p (.channel .offLow c)) ∨
              (reg = p.regAllOffH ∧ x = RegName.address p (.channel .offHigh c))
          then v else Memory.read d.regs x.toNat)

/-- The device's memory keeps its canonical form, so that equal memories are equal data (an unlisted address
reads 0 by the model's choice, log 9). -/
def Obligations.ReferenceMemoryStaysCanonical : Prop :=
  (∀ (p : Params) (d : RefDevice) (r : Request), d.regs.wf = true →
    (d.answer p r).2.regs.wf = true) ∧
  (∀ m m' : Memory, m.wf = true → m'.wf = true →
    (∀ a, Memory.read m a = Memory.read m' a) → m = m')
end

