-- ==== Sys2Proof/Laws/Codec.lean ====
section
/-! SUPPORT. The fields of a word made of fields (`spec/30_encoding.md` R81), and the kind's number. -/

namespace Sys2Proof

@[simp] theorem opcField_wordOfFields (opc a : Byte) (b : BitVec 16) :
    opcField (wordOfFields opc a b) = opc := by
  apply BitVec.eq_of_getLsbD_eq
  intro i hi
  simp only [opcField, wordOfFields, BitVec.getLsbD_extractLsb', BitVec.getLsbD_append]
  rw [if_neg (by omega), show 24 + i - 16 = 8 + i by omega, if_neg (by omega)]
  simp [hi]

@[simp] theorem aField_wordOfFields (opc a : Byte) (b : BitVec 16) :
    aField (wordOfFields opc a b) = a := by
  apply BitVec.eq_of_getLsbD_eq
  intro i hi
  simp only [aField, wordOfFields, BitVec.getLsbD_extractLsb', BitVec.getLsbD_append]
  rw [if_neg (by omega), if_pos (by omega)]
  simp [hi]

@[simp] theorem bField_wordOfFields (opc a : Byte) (b : BitVec 16) :
    bField (wordOfFields opc a b) = b := by
  apply BitVec.eq_of_getLsbD_eq
  intro i hi
  simp only [bField, wordOfFields, BitVec.getLsbD_extractLsb', BitVec.getLsbD_append]
  rw [if_pos (by omega)]
  simp [hi]

/-- A word is made of its fields. -/
theorem wordOfFields_fields (w : CommandWord) :
    wordOfFields (opcField w) (aField w) (bField w) = w := by
  apply BitVec.eq_of_getLsbD_eq
  intro i hi
  simp only [opcField, aField, bField, wordOfFields, BitVec.getLsbD_extractLsb',
    BitVec.getLsbD_append]
  by_cases h1 : i < 16
  · simp [h1]
  · by_cases h2 : i - 16 < 8
    · simp [h1, h2, show 16 + (i - 16) = i by omega]
    · have h3 : i - 16 - 8 < 8 := by omega
      simp [h1, h2, h3, show 24 + (i - 16 - 8) = i by omega]

@[simp] theorem kind_ofCode_code (k : Kind) : Kind.ofCode k.code = k := by
  cases k <;> decide

@[simp] theorem kind_code_ofCode (c : BitVec 2) : (Kind.ofCode c).code = c := by
  revert c; decide

end Sys2Proof
end

