-- ==== Sys2Proof/Laws/Flags.lean ====
section
/-! SUPPORT. What the bit utilities do to each bit (`spec/40_bit_utilities.md` R115), once: the laws of R115
follow bit by bit. Not tagged `simp`, so that the utilities stay visible where they are named. -/

namespace Sys2Proof.Machine

/-- `test_bit` is the bit of the number. -/
theorem testBit_eq (v o : Nat) : testBit v o = v.testBit o := by
  simp [testBit, Nat.testBit, Nat.and_comm]

/-- `set_bit` forces its bit to 1 and keeps every other. -/
theorem testBit_setBit (v o i : Nat) : testBit (setBit v o) i = (decide (o = i) || testBit v i) := by
  simp only [testBit_eq, setBit, Nat.testBit_or, Nat.one_shiftLeft, Nat.testBit_two_pow, Bool.or_comm]

/-- What `&&&` takes out of a number and what it leaves add up to the number. -/
theorem xor_and_add_and (v m : Nat) : (v ^^^ (v &&& m)) + (v &&& m) = v := by
  induction v using Nat.strongRecOn generalizing m with
  | ind v ih =>
    by_cases h0 : v = 0
    · simp [h0]
    · have half := ih (v / 2) (by omega) (m / 2)
      have hx : (v ^^^ (v &&& m)) / 2 = v / 2 ^^^ (v / 2 &&& m / 2) := by
        rw [Nat.xor_div_two, Nat.and_div_two]
      have ha : (v &&& m) / 2 = v / 2 &&& m / 2 := Nat.and_div_two
      have low : (v ^^^ (v &&& m)) % 2 + (v &&& m) % 2 = v % 2 := by
        have a : (v &&& m) % 2 = v % 2 &&& m % 2 := by
          simpa using Nat.and_mod_two_pow (a := v) (b := m) (n := 1)
        have b : (v ^^^ (v &&& m)) % 2 = v % 2 ^^^ (v &&& m) % 2 := by
          simpa using Nat.xor_mod_two_pow (a := v) (b := v &&& m) (n := 1)
        rw [b, a]
        rcases Nat.mod_two_eq_zero_or_one v with h | h <;>
          rcases Nat.mod_two_eq_zero_or_one m with h' | h' <;> simp [h, h']
      omega

/-- `clear_bit` is an exclusive or with the one bit it may clear. -/
theorem clearBit_eq_xor (v o : Nat) : clearBit v o = v ^^^ (v &&& 1 <<< o) := by
  have h := xor_and_add_and v (1 <<< o)
  unfold clearBit
  omega

/-- `clear_bit` forces its bit to 0 and keeps every other. -/
theorem testBit_clearBit (v o i : Nat) :
    testBit (clearBit v o) i = (!decide (o = i) && testBit v i) := by
  rw [clearBit_eq_xor]
  simp only [testBit_eq, Nat.testBit_xor, Nat.testBit_and, Nat.one_shiftLeft, Nat.testBit_two_pow]
  cases v.testBit i <;> simp

end Sys2Proof.Machine
end

