-- ==== Sys2Proof/Laws/Memory.lean ====
section
/-! SUPPORT. The laws of the reference device's byte memory: read after write, and that a write keeps the
canonical form. -/

namespace Sys2Proof.Machine

/-- Every address of a memory is below that of every later entry. -/
def Memory.Sorted (m : Memory) : Prop := m.Pairwise fun x y => x.1 < y.1

theorem wf_iff (m : Memory) : m.wf = true ↔
    m.Sorted ∧ ∀ x ∈ m, x.1 < 256 ∧ x.2 ≠ unlistedByte := by
  simp [Memory.wf, Memory.Sorted, List.all_eq_true]

theorem read_of_lt {m : Memory} {a : Nat} (h : ∀ x ∈ m, a < x.1) : Memory.read m a = unlistedByte := by
  induction m with
  | nil => rfl
  | cons x rest ih =>
    obtain ⟨k, b⟩ := x
    have hk := h (k, b) (by simp)
    have hne : ¬ k = a := by simp only at hk; omega
    simp only [Memory.read, hne, if_false]
    exact ih fun y hy => h y (by simp [hy])

theorem read_entry {a : Nat} {v : Byte} {rest : Memory} (h : ∀ x ∈ rest, a < x.1) (x : Nat) :
    Memory.read (Memory.entry a v rest) x = if x = a then v else Memory.read rest x := by
  unfold Memory.entry
  by_cases hv : v = unlistedByte
  · simp only [hv, if_true]
    by_cases hx : x = a
    · simp only [hx, if_true]; exact read_of_lt h
    · simp [hx]
  · by_cases hx : x = a
    · simp [hv, hx, Memory.read]
    · have : ¬ a = x := fun h => hx h.symm
      simp [hv, hx, Memory.read, this]

/-- Read after write: the byte written at its address, every other address as before. -/
theorem read_write {m : Memory} (h : m.Sorted) (a : Nat) (v : Byte) (x : Nat) :
    Memory.read (Memory.write m a v) x = if x = a then v else Memory.read m x := by
  induction m with
  | nil => exact read_entry (by simp) x
  | cons c rest ih =>
    obtain ⟨k, b⟩ := c
    obtain ⟨hk, hrest⟩ := List.pairwise_cons.1 h
    simp only [Memory.write]
    split
    · rename_i hlt
      refine read_entry (fun y hy => ?_) x
      rcases List.mem_cons.1 hy with rfl | hy
      · exact hlt
      · exact Nat.lt_trans hlt (hk y hy)
    · split
      · rename_i heq
        subst heq
        rw [read_entry hk]
        by_cases hx : x = a
        · simp [hx]
        · have : ¬ a = x := fun h => hx h.symm
          simp [hx, Memory.read, this]
      · rename_i hlt hne
        simp only [Memory.read]
        split
        · rename_i hkx
          have : ¬ x = a := by omega
          simp [this]
        · exact ih hrest

theorem mem_entry {a : Nat} {v : Byte} {rest : Memory} {x : Host.Cell}
    (h : x ∈ Memory.entry a v rest) : (x = (a, v) ∧ v ≠ unlistedByte) ∨ x ∈ rest := by
  unfold Memory.entry at h
  split at h
  · exact .inr h
  · rename_i hv
    rcases List.mem_cons.1 h with rfl | h
    · exact .inl ⟨rfl, hv⟩
    · exact .inr h

theorem mem_write {m : Memory} {a : Nat} {v : Byte} {x : Host.Cell}
    (h : x ∈ Memory.write m a v) : (x = (a, v) ∧ v ≠ unlistedByte) ∨ x ∈ m := by
  induction m with
  | nil => exact mem_entry h
  | cons c rest ih =>
    obtain ⟨k, b⟩ := c
    simp only [Memory.write] at h
    split at h
    · exact mem_entry h
    · split at h
      · rcases mem_entry h with h | h
        · exact .inl h
        · exact .inr (List.mem_cons_of_mem _ h)
      · rcases List.mem_cons.1 h with rfl | h
        · exact .inr (by simp)
        · rcases ih h with h | h
          · exact .inl h
          · exact .inr (List.mem_cons_of_mem _ h)

theorem sorted_entry {a : Nat} {v : Byte} {rest : Memory} (hr : Memory.Sorted rest)
    (h : ∀ x ∈ rest, a < x.1) : Memory.Sorted (Memory.entry a v rest) := by
  unfold Memory.entry
  split
  · exact hr
  · exact List.pairwise_cons.2 ⟨h, hr⟩

theorem sorted_write {m : Memory} (h : m.Sorted) (a : Nat) (v : Byte) :
    Memory.Sorted (Memory.write m a v) := by
  induction m with
  | nil => exact sorted_entry (by simp [Memory.Sorted]) (by simp)
  | cons c rest ih =>
    obtain ⟨k, b⟩ := c
    obtain ⟨hk, hrest⟩ := List.pairwise_cons.1 h
    simp only [Memory.write]
    split
    · rename_i hlt
      refine sorted_entry h fun y hy => ?_
      rcases List.mem_cons.1 hy with rfl | hy
      · exact hlt
      · exact Nat.lt_trans hlt (hk y hy)
    · split
      · rename_i heq
        subst heq
        exact sorted_entry hrest hk
      · rename_i hlt hne
        refine List.pairwise_cons.2 ⟨fun y hy => ?_, ih hrest⟩
        rcases mem_write hy with ⟨rfl, -⟩ | hy
        · simp only; omega
        · exact hk y hy

/-- A write below 256 keeps the canonical form. -/
theorem write_keeps_wf {m : Memory} (h : m.wf = true) {a : Nat} (ha : a < 256) (v : Byte) :
    (Memory.write m a v).wf = true := by
  rw [wf_iff] at *
  refine ⟨sorted_write h.1 a v, fun x hx => ?_⟩
  rcases mem_write hx with ⟨rfl, hv⟩ | hx
  · exact ⟨ha, hv⟩
  · exact h.2 x hx

/-- A broadcast write keeps the canonical form. -/
theorem broadcastWrite_keeps_wf (k : Kind) (v : Byte) {n : Nat} (hn : n ≤ 16) {m : Memory}
    (h : m.wf = true) : (broadcastWrite k v n m).wf = true := by
  induction n generalizing m with
  | zero => exact h
  | succ n ih =>
    refine ih (by omega) (write_keeps_wf h ?_ v)
    cases k <;> simp only [kindBase, Config.chBaseOnL, Config.chBaseOnH, Config.chBaseOffL,
      Config.chBaseOffH, Config.chStride] <;> omega

/-- The memory without entries has the canonical form. -/
theorem empty_wf : Memory.wf [] = true := by decide

end Sys2Proof.Machine
end

