-- ==== Sys2Proof/Laws/Operands.lean ====
section
/-! SUPPORT. Channel addressing on the channel operand of a command, and the two forms of the bit
utilities on a byte. -/

namespace Sys2Proof.Machine

theorem channelRegister_operand {c : Byte} (h : c.toNat ≤ 15) (k : Kind) :
    channelRegister k (channelOperand c) = .ok (BitVec.ofNat 8 (kindBase k + 4 * c.toNat)) := by
  have hc : ¬ ((c.toNat : Int) < 0 ∨ (c.toNat : Int) > 15) := by omega
  unfold channelRegister channelOperand
  rw [if_neg hc]
  simp [Config.chStride]

theorem channelRegister_operand_invalid {c : Byte} (h : 15 < c.toNat) (k : Kind) :
    channelRegister k (channelOperand c) = .error .invalidChannel := by
  have hc : (c.toNat : Int) < 0 ∨ (c.toNat : Int) > 15 := by omega
  unfold channelRegister channelOperand
  rw [if_pos hc]

/-- The two cases of a channel operand. -/
theorem channelOperand_cases (c : Byte) : c.toNat ≤ 15 ∨ 15 < c.toNat := Nat.lt_or_ge 15 c.toNat |>.symm

theorem kindBase_eq (k : Kind) : kindBase k = 0x06 + (match k with
    | .onLow => 0 | .onHigh => 1 | .offLow => 2 | .offHigh => 3) := by
  cases k <;> rfl

theorem validPosition_iff (p : Params) (pos : Nat) :
    validPosition p pos = true ↔ 0 < pos ∧ pos < p.posMaxExcl := by
  rw [validPosition, Bool.and_eq_true, decide_eq_true_eq, decide_eq_true_eq]
  exact Iff.rfl

/-- `set_bit` on a byte is the bitwise or (R112). -/
theorem setBitByte_eq (b : Byte) (o : BitOffset) :
    setBitByte b o = b ||| ((1 : Byte) <<< o.toNat) := by
  revert b o; decide

/-- `clear_bit` on a byte is the bitwise and with the complement (R114). -/
theorem clearBitByte_eq (b : Byte) (o : BitOffset) :
    clearBitByte b o = b &&& ~~~((1 : Byte) <<< o.toNat) := by
  revert b o; decide

end Sys2Proof.Machine
end

