-- ==== Sys2Proof/Laws/State.lean ====
section
/-! SUPPORT. One lemma per field of `State` and update of it, true by `rfl`, so that no proof unfolds an
update. -/

namespace Sys2Proof.Machine

variable (s : State)

@[simp] theorem State.latch_lc (w : CommandWord) : (s.latch w).lc = s.lc := rfl
@[simp] theorem State.latch_addr (w : CommandWord) : (s.latch w).addr = s.addr := rfl
@[simp] theorem State.latch_cmd (w : CommandWord) : (s.latch w).cmd = some w := rfl
@[simp] theorem State.latch_t (w : CommandWord) : (s.latch w).t = s.t := rfl
@[simp] theorem State.latch_upc (w : CommandWord) : (s.latch w).upc = s.upc := rfl
@[simp] theorem State.latch_phase (w : CommandWord) : (s.latch w).phase = s.phase := rfl
@[simp] theorem State.latch_pending (w : CommandWord) : (s.latch w).pending = s.pending := rfl
@[simp] theorem State.latch_inputs (w : CommandWord) : (s.latch w).inputs = s.inputs := rfl
@[simp] theorem State.latch_trace (w : CommandWord) : (s.latch w).trace = s.trace ++ [.cmd w] := rfl
@[simp] theorem State.latch_params (w : CommandWord) : (s.latch w).params = s.params := rfl

@[simp] theorem State.accept_lc : (s.accept).lc = s.lc := rfl
@[simp] theorem State.accept_addr : (s.accept).addr = s.addr := rfl
@[simp] theorem State.accept_cmd : (s.accept).cmd = s.cmd := rfl
@[simp] theorem State.accept_t : (s.accept).t = s.t := rfl
@[simp] theorem State.accept_upc : (s.accept).upc = 0 := rfl
@[simp] theorem State.accept_phase : (s.accept).phase = .executing := rfl
@[simp] theorem State.accept_pending : (s.accept).pending = none := rfl
@[simp] theorem State.accept_inputs : (s.accept).inputs = s.inputs := rfl
@[simp] theorem State.accept_trace : (s.accept).trace = s.trace := rfl
@[simp] theorem State.accept_params : (s.accept).params = s.params := rfl

@[simp] theorem State.setLc_lc (lc : Option Lifecycle) : (s.setLc lc).lc = lc.getD s.lc := rfl
@[simp] theorem State.setLc_addr (lc : Option Lifecycle) : (s.setLc lc).addr = s.addr := rfl
@[simp] theorem State.setLc_cmd (lc : Option Lifecycle) : (s.setLc lc).cmd = s.cmd := rfl
@[simp] theorem State.setLc_t (lc : Option Lifecycle) : (s.setLc lc).t = s.t := rfl
@[simp] theorem State.setLc_upc (lc : Option Lifecycle) : (s.setLc lc).upc = s.upc := rfl
@[simp] theorem State.setLc_phase (lc : Option Lifecycle) : (s.setLc lc).phase = s.phase := rfl
@[simp] theorem State.setLc_pending (lc : Option Lifecycle) : (s.setLc lc).pending = s.pending := rfl
@[simp] theorem State.setLc_inputs (lc : Option Lifecycle) : (s.setLc lc).inputs = s.inputs := rfl
@[simp] theorem State.setLc_trace (lc : Option Lifecycle) : (s.setLc lc).trace = s.trace := rfl
@[simp] theorem State.setLc_params (lc : Option Lifecycle) : (s.setLc lc).params = s.params := rfl

@[simp] theorem State.respond_lc (code : Code) (data : Byte) : (s.respond code data).lc = s.lc := rfl
@[simp] theorem State.respond_addr (code : Code) (data : Byte) : (s.respond code data).addr = s.addr := rfl
@[simp] theorem State.respond_cmd (code : Code) (data : Byte) : (s.respond code data).cmd = s.cmd := rfl
@[simp] theorem State.respond_t (code : Code) (data : Byte) : (s.respond code data).t = s.t := rfl
@[simp] theorem State.respond_upc (code : Code) (data : Byte) : (s.respond code data).upc = s.upc := rfl
@[simp] theorem State.respond_phase (code : Code) (data : Byte) : (s.respond code data).phase = .idle := rfl
@[simp] theorem State.respond_pending (code : Code) (data : Byte) : (s.respond code data).pending = none := rfl
@[simp] theorem State.respond_inputs (code : Code) (data : Byte) : (s.respond code data).inputs = s.inputs := rfl
@[simp] theorem State.respond_trace (code : Code) (data : Byte) : (s.respond code data).trace = s.trace ++ [.resp code data] := rfl
@[simp] theorem State.respond_params (code : Code) (data : Byte) : (s.respond code data).params = s.params := rfl

@[simp] theorem State.raise_lc (e : ErrorKind) : (s.raise e).lc = s.lc := rfl
@[simp] theorem State.raise_addr (e : ErrorKind) : (s.raise e).addr = s.addr := rfl
@[simp] theorem State.raise_cmd (e : ErrorKind) : (s.raise e).cmd = s.cmd := rfl
@[simp] theorem State.raise_t (e : ErrorKind) : (s.raise e).t = s.t := rfl
@[simp] theorem State.raise_upc (e : ErrorKind) : (s.raise e).upc = s.upc := rfl
@[simp] theorem State.raise_phase (e : ErrorKind) : (s.raise e).phase = .idle := rfl
@[simp] theorem State.raise_pending (e : ErrorKind) : (s.raise e).pending = none := rfl
@[simp] theorem State.raise_inputs (e : ErrorKind) : (s.raise e).inputs = s.inputs := rfl
@[simp] theorem State.raise_trace (e : ErrorKind) : (s.raise e).trace = s.trace ++ [.resp (.error e) 0] := rfl
@[simp] theorem State.raise_params (e : ErrorKind) : (s.raise e).params = s.params := rfl

@[simp] theorem State.rejectWord_lc : (s.rejectWord).lc = s.lc := rfl
@[simp] theorem State.rejectWord_addr : (s.rejectWord).addr = s.addr := rfl
@[simp] theorem State.rejectWord_cmd : (s.rejectWord).cmd = s.cmd := rfl
@[simp] theorem State.rejectWord_t : (s.rejectWord).t = s.t := rfl
@[simp] theorem State.rejectWord_upc : (s.rejectWord).upc = 0 := rfl
@[simp] theorem State.rejectWord_phase : (s.rejectWord).phase = .idle := rfl
@[simp] theorem State.rejectWord_pending : (s.rejectWord).pending = none := rfl
@[simp] theorem State.rejectWord_inputs : (s.rejectWord).inputs = s.inputs := rfl
@[simp] theorem State.rejectWord_trace : (s.rejectWord).trace = s.trace ++ [.resp (.error .illegalCommand) 0] := rfl
@[simp] theorem State.rejectWord_params : (s.rejectWord).params = s.params := rfl

@[simp] theorem State.advance_lc (ins : List Input) (evs : List Event) : (s.advance ins evs).lc = s.lc := rfl
@[simp] theorem State.advance_addr (ins : List Input) (evs : List Event) : (s.advance ins evs).addr = s.addr := rfl
@[simp] theorem State.advance_cmd (ins : List Input) (evs : List Event) : (s.advance ins evs).cmd = s.cmd := rfl
@[simp] theorem State.advance_t (ins : List Input) (evs : List Event) : (s.advance ins evs).t = s.t := rfl
@[simp] theorem State.advance_upc (ins : List Input) (evs : List Event) : (s.advance ins evs).upc = s.upc + 1 := rfl
@[simp] theorem State.advance_phase (ins : List Input) (evs : List Event) : (s.advance ins evs).phase = s.phase := rfl
@[simp] theorem State.advance_pending (ins : List Input) (evs : List Event) : (s.advance ins evs).pending = none := rfl
@[simp] theorem State.advance_inputs (ins : List Input) (evs : List Event) : (s.advance ins evs).inputs = ins := rfl
@[simp] theorem State.advance_trace (ins : List Input) (evs : List Event) : (s.advance ins evs).trace = s.trace ++ evs := rfl
@[simp] theorem State.advance_params (ins : List Input) (evs : List Event) : (s.advance ins evs).params = s.params := rfl

@[simp] theorem State.failAt_lc (ins : List Input) (ev : Event) : (s.failAt ins ev).lc = s.lc := rfl
@[simp] theorem State.failAt_addr (ins : List Input) (ev : Event) : (s.failAt ins ev).addr = s.addr := rfl
@[simp] theorem State.failAt_cmd (ins : List Input) (ev : Event) : (s.failAt ins ev).cmd = s.cmd := rfl
@[simp] theorem State.failAt_t (ins : List Input) (ev : Event) : (s.failAt ins ev).t = s.t := rfl
@[simp] theorem State.failAt_upc (ins : List Input) (ev : Event) : (s.failAt ins ev).upc = s.upc := rfl
@[simp] theorem State.failAt_phase (ins : List Input) (ev : Event) : (s.failAt ins ev).phase = s.phase := rfl
@[simp] theorem State.failAt_pending (ins : List Input) (ev : Event) : (s.failAt ins ev).pending = none := rfl
@[simp] theorem State.failAt_inputs (ins : List Input) (ev : Event) : (s.failAt ins ev).inputs = ins := rfl
@[simp] theorem State.failAt_trace (ins : List Input) (ev : Event) : (s.failAt ins ev).trace = s.trace ++ [ev] := rfl
@[simp] theorem State.failAt_params (ins : List Input) (ev : Event) : (s.failAt ins ev).params = s.params := rfl

@[simp] theorem State.assertReset_lc : (s.assertReset).lc = .unopened := rfl
@[simp] theorem State.assertReset_addr : (s.assertReset).addr = none := rfl
@[simp] theorem State.assertReset_cmd : (s.assertReset).cmd = none := rfl
@[simp] theorem State.assertReset_t : (s.assertReset).t = none := rfl
@[simp] theorem State.assertReset_upc : (s.assertReset).upc = 0 := rfl
@[simp] theorem State.assertReset_phase : (s.assertReset).phase = .idle := rfl
@[simp] theorem State.assertReset_pending : (s.assertReset).pending = none := rfl
@[simp] theorem State.assertReset_inputs : (s.assertReset).inputs = s.inputs := rfl
@[simp] theorem State.assertReset_trace : (s.assertReset).trace = s.trace := rfl
@[simp] theorem State.assertReset_params : (s.assertReset).params = s.params := rfl

@[simp] theorem State.withFetchWord_lc (nbits w : Nat) : (s.withFetchWord nbits w).lc = s.lc := rfl
@[simp] theorem State.withFetchWord_addr (nbits w : Nat) : (s.withFetchWord nbits w).addr = s.addr := rfl
@[simp] theorem State.withFetchWord_cmd (nbits w : Nat) : (s.withFetchWord nbits w).cmd = s.cmd := rfl
@[simp] theorem State.withFetchWord_t (nbits w : Nat) : (s.withFetchWord nbits w).t = s.t := rfl
@[simp] theorem State.withFetchWord_upc (nbits w : Nat) : (s.withFetchWord nbits w).upc = s.upc := rfl
@[simp] theorem State.withFetchWord_phase (nbits w : Nat) : (s.withFetchWord nbits w).phase = .idle := rfl
@[simp] theorem State.withFetchWord_pending (nbits w : Nat) : (s.withFetchWord nbits w).pending = none := rfl
@[simp] theorem State.withFetchWord_inputs (nbits w : Nat) : (s.withFetchWord nbits w).inputs = .command (tableWord nbits w) :: s.inputs := rfl
@[simp] theorem State.withFetchWord_trace (nbits w : Nat) : (s.withFetchWord nbits w).trace = s.trace := rfl
@[simp] theorem State.withFetchWord_params (nbits w : Nat) : (s.withFetchWord nbits w).params = s.params := rfl

@[simp] theorem State.finished_lc (n : BitVec 4) (rest : List Input) (evs : List Event) : (s.finished n rest evs).lc = s.lc := rfl
@[simp] theorem State.finished_addr (n : BitVec 4) (rest : List Input) (evs : List Event) : (s.finished n rest evs).addr = s.addr := rfl
@[simp] theorem State.finished_cmd (n : BitVec 4) (rest : List Input) (evs : List Event) : (s.finished n rest evs).cmd = s.cmd := rfl
@[simp] theorem State.finished_t (n : BitVec 4) (rest : List Input) (evs : List Event) : (s.finished n rest evs).t = s.t := rfl
@[simp] theorem State.finished_upc (n : BitVec 4) (rest : List Input) (evs : List Event) : (s.finished n rest evs).upc = n := rfl
@[simp] theorem State.finished_phase (n : BitVec 4) (rest : List Input) (evs : List Event) : (s.finished n rest evs).phase = .idle := rfl
@[simp] theorem State.finished_pending (n : BitVec 4) (rest : List Input) (evs : List Event) : (s.finished n rest evs).pending = none := rfl
@[simp] theorem State.finished_inputs (n : BitVec 4) (rest : List Input) (evs : List Event) : (s.finished n rest evs).inputs = rest := rfl
@[simp] theorem State.finished_trace (n : BitVec 4) (rest : List Input) (evs : List Event) : (s.finished n rest evs).trace = s.trace ++ evs := rfl
@[simp] theorem State.finished_params (n : BitVec 4) (rest : List Input) (evs : List Event) : (s.finished n rest evs).params = s.params := rfl

/-! ### Updates with a case split -/

@[simp] theorem State.issue_lc (r : Request) : (s.issue r).lc = s.lc := by
  unfold State.issue; split <;> rfl
@[simp] theorem State.issue_addr (r : Request) : (s.issue r).addr = s.addr := by
  unfold State.issue; split <;> rfl
@[simp] theorem State.issue_cmd (r : Request) : (s.issue r).cmd = s.cmd := by
  unfold State.issue; split <;> rfl
@[simp] theorem State.issue_t (r : Request) : (s.issue r).t = s.t := by
  unfold State.issue; split <;> rfl
@[simp] theorem State.issue_upc (r : Request) : (s.issue r).upc = s.upc := by
  unfold State.issue; split <;> rfl
@[simp] theorem State.issue_phase (r : Request) : (s.issue r).phase = s.phase := by
  unfold State.issue; split <;> rfl
@[simp] theorem State.issue_inputs (r : Request) : (s.issue r).inputs = s.inputs := by
  unfold State.issue; split <;> rfl
@[simp] theorem State.issue_params (r : Request) : (s.issue r).params = s.params := by
  unfold State.issue; split <;> rfl

/-- After `issue` the request stands on its port. -/
@[simp] theorem State.issue_pending (r : Request) : (s.issue r).pending = some r := by
  unfold State.issue; split <;> simp_all

/-- Issuing a bus request is no event (R14 records it with its answer). -/
@[simp] theorem State.issue_busW_trace (a : DevAddr) (reg v : Byte) :
    (s.issue (.busW a reg v)).trace = s.trace := by
  unfold State.issue; split <;> rfl

@[simp] theorem State.issue_busR_trace (a : DevAddr) (reg : Byte) :
    (s.issue (.busR a reg)).trace = s.trace := by
  unfold State.issue; split <;> rfl

/-- A delay request is an event the first time it stands on the port. -/
theorem State.issue_delay_trace (ms : Nat) (h : s.pending ≠ some (.delay ms)) :
    (s.issue (.delay ms)).trace = s.trace ++ [.delay ms] := by
  simp [State.issue, h]

@[simp] theorem Command.enter_lc (c : Command) : (c.enter s).lc = s.lc := by
  unfold Command.enter; split <;> rfl
@[simp] theorem Command.enter_addr (c : Command) :
    (c.enter s).addr = c.newAddr.or s.addr := by
  unfold Command.enter; split <;> simp_all
@[simp] theorem Command.enter_cmd (c : Command) : (c.enter s).cmd = s.cmd := by
  unfold Command.enter; split <;> rfl
@[simp] theorem Command.enter_t (c : Command) : (c.enter s).t = s.t := by
  unfold Command.enter; split <;> rfl
@[simp] theorem Command.enter_upc (c : Command) : (c.enter s).upc = s.upc := by
  unfold Command.enter; split <;> rfl
@[simp] theorem Command.enter_phase (c : Command) : (c.enter s).phase = s.phase := by
  unfold Command.enter; split <;> rfl
@[simp] theorem Command.enter_pending (c : Command) : (c.enter s).pending = s.pending := by
  unfold Command.enter; split <;> rfl
@[simp] theorem Command.enter_inputs (c : Command) : (c.enter s).inputs = s.inputs := by
  unfold Command.enter; split <;> rfl
@[simp] theorem Command.enter_trace (c : Command) : (c.enter s).trace = s.trace := by
  unfold Command.enter; split <;> rfl
@[simp] theorem Command.enter_params (c : Command) : (c.enter s).params = s.params := by
  unfold Command.enter; split <;> rfl

end Sys2Proof.Machine
end

