-- ==== Sys2Proof/Laws/Ops.lean ====
section
/-! SUPPORT. What each shared operation can do, once: the provers cite these instead of unfolding. -/

namespace Sys2Proof.Machine

/-! ### Requests -/

@[simp] theorem readAddr_some {s : State} {a : DevAddr} (h : s.addr = some a) :
    s.readAddr = .ok a := by
  simp [State.readAddr, h]

@[simp] theorem readT_some {s : State} {b : Byte} (h : s.t = some b) : s.readT = .ok b := by
  simp [State.readT, h]

/-- A `uW` of a literal asks for one write at `ADDR`. -/
theorem request_uW_lit {s : State} {a : DevAddr} (h : s.addr = some a) (reg v : Byte) :
    (MicroOp.uW reg (.lit v)).request s = .ok (.busW a reg v) := by
  simp [MicroOp.request, State.readAddr, h, ByteExpr.eval, Except.bind, Except.map]

theorem request_uW_set {s : State} {a : DevAddr} {b : Byte} (h : s.addr = some a)
    (ht : s.t = some b) (reg : Byte) (o : BitOffset) :
    (MicroOp.uW reg (.setInT o)).request s = .ok (.busW a reg (setBitByte b o)) := by
  simp [MicroOp.request, State.readAddr, State.readT, h, ht, ByteExpr.eval, Except.bind, Except.map]

theorem request_uW_clear {s : State} {a : DevAddr} {b : Byte} (h : s.addr = some a)
    (ht : s.t = some b) (reg : Byte) (o : BitOffset) :
    (MicroOp.uW reg (.clearInT o)).request s = .ok (.busW a reg (clearBitByte b o)) := by
  simp [MicroOp.request, State.readAddr, State.readT, h, ht, ByteExpr.eval, Except.bind, Except.map]

theorem request_uR {s : State} {a : DevAddr} (h : s.addr = some a) (reg : Byte) :
    (MicroOp.uR reg).request s = .ok (.busR a reg) := by
  simp [MicroOp.request, State.readAddr, h, Except.map]

@[simp] theorem request_uD (s : State) (ms : Nat) :
    (MicroOp.uD ms).request s = .ok (.delay ms) := rfl

/-- What a request can be: at the address in `ADDR`, or a delay. -/
theorem request_cases {m : MicroOp} {s : State} {r : Request} (h : m.request s = .ok r) :
    (∃ a reg e v, m = .uW reg e ∧ s.addr = some a ∧ e.eval s = .ok v ∧ r = .busW a reg v) ∨
    (∃ a reg, m = .uR reg ∧ s.addr = some a ∧ r = .busR a reg) ∨
    (∃ ms, m = .uD ms ∧ r = .delay ms) := by
  cases m with
  | uW reg e =>
    simp only [MicroOp.request, State.readAddr] at h
    split at h
    · rename_i a ha
      cases he : e.eval s with
      | error f => simp [Except.bind, Except.map, he] at h
      | ok v =>
        simp only [Except.bind, Except.map, he, Except.ok.injEq] at h
        exact .inl ⟨a, reg, e, v, rfl, ha, he, h.symm⟩
    · simp [Except.bind] at h
  | uR reg =>
    simp only [MicroOp.request, State.readAddr] at h
    split at h
    · rename_i a ha
      simp only [Except.map, Except.ok.injEq] at h
      exact .inr (.inl ⟨a, reg, rfl, ha, h.symm⟩)
    · simp [Except.map] at h
  | uD ms =>
    simp only [MicroOp.request, Except.ok.injEq] at h
    exact .inr (.inr ⟨ms, rfl, h.symm⟩)

/-! ### Answers -/

/-- Issuing a bus request does not show once it is answered. -/
@[simp] theorem advance_issue_busW (s : State) (a : DevAddr) (reg v : Byte) (ins : List Input)
    (evs : List Event) : (s.issue (.busW a reg v)).advance ins evs = s.advance ins evs := by
  unfold State.issue; split <;> rfl

@[simp] theorem failAt_issue_busW (s : State) (a : DevAddr) (reg v : Byte) (ins : List Input)
    (ev : Event) : (s.issue (.busW a reg v)).failAt ins ev = s.failAt ins ev := by
  unfold State.issue; split <;> rfl

/-- What taking an answer can be. -/
theorem takeAnswer_cases (r : Request) (s : State) :
    (∃ a reg v rest, r = .busW a reg v ∧ s.inputs = .writeAnswer .ok :: rest ∧
      s.takeAnswer r = .advanced (s.advance rest [.busW a reg v .ok])) ∨
    (∃ a reg v rest, r = .busW a reg v ∧ s.inputs = .writeAnswer .err :: rest ∧
      s.takeAnswer r = .failed (s.failAt rest (.busW a reg v .err))) ∨
    (∃ a reg b rest, r = .busR a reg ∧ s.inputs = .readAnswer (.ok b) :: rest ∧
      s.takeAnswer r = .advanced ({ s with t := some b }.advance rest [.busR a reg (.ok b)])) ∨
    (∃ a reg rest, r = .busR a reg ∧ s.inputs = .readAnswer .err :: rest ∧
      s.takeAnswer r = .failed ({ s with t := none }.failAt rest (.busR a reg .err))) ∨
    (∃ ms rest, r = .delay ms ∧ s.inputs = .delayDone :: rest ∧
      s.takeAnswer r = .advanced (s.advance rest [])) ∨
    s.takeAnswer r = .waiting s := by
  unfold State.takeAnswer
  split <;> simp_all

/-- An unanswered request waits: the next move, if there is one, is no answer to it. -/
theorem takeAnswer_waiting {r : Request} {s : State}
    (h : ∀ x rest, s.inputs = x :: rest → ¬ x.answers r) : s.takeAnswer r = .waiting s := by
  rcases takeAnswer_cases r s with ⟨a, reg, v, rest, hr, hi, -⟩ | ⟨a, reg, v, rest, hr, hi, -⟩ |
    ⟨a, reg, b, rest, hr, hi, -⟩ | ⟨a, reg, rest, hr, hi, -⟩ | ⟨ms, rest, hr, hi, -⟩ | hw
  · exact absurd ⟨a, reg, v, hr⟩ (h _ _ hi)
  · exact absurd ⟨a, reg, v, hr⟩ (h _ _ hi)
  · exact absurd ⟨a, reg, hr⟩ (h _ _ hi)
  · exact absurd ⟨a, reg, hr⟩ (h _ _ hi)
  · exact absurd ⟨ms, hr⟩ (h _ _ hi)
  · exact hw

/-! ### One micro-operation -/

theorem perform_of_request {m : MicroOp} {s : State} {r : Request} (h : m.request s = .ok r) :
    m.perform s = (s.issue r).takeAnswer r := by
  simp [MicroOp.perform, h]

theorem perform_of_absent {m : MicroOp} {s : State} {f : Fault} (h : m.request s = .error f) :
    m.perform s = .stopped f := by
  simp [MicroOp.perform, h]

/-- A write that is answered `ok`. -/
theorem perform_write_ok {m : MicroOp} {s : State} {a : DevAddr} {reg v : Byte} {rest : List Input}
    (h : m.request s = .ok (.busW a reg v)) (hi : s.inputs = .writeAnswer .ok :: rest) :
    m.perform s = .advanced (s.advance rest [.busW a reg v .ok]) := by
  simp [perform_of_request h, State.takeAnswer, hi]

/-- A write that is answered `err`. -/
theorem perform_write_err {m : MicroOp} {s : State} {a : DevAddr} {reg v : Byte} {rest : List Input}
    (h : m.request s = .ok (.busW a reg v)) (hi : s.inputs = .writeAnswer .err :: rest) :
    m.perform s = .failed (s.failAt rest (.busW a reg v .err)) := by
  simp [perform_of_request h, State.takeAnswer, hi]

/-- A read that is answered with a byte. -/
theorem perform_read_ok {m : MicroOp} {s : State} {a : DevAddr} {reg b : Byte} {rest : List Input}
    (h : m.request s = .ok (.busR a reg)) (hi : s.inputs = .readAnswer (.ok b) :: rest) :
    m.perform s = .advanced ({ s with t := some b }.advance rest [.busR a reg (.ok b)]) := by
  simp only [perform_of_request h, State.takeAnswer, State.issue_inputs, hi]
  congr 1
  unfold State.issue; split <;> rfl

/-- A read that is answered `err`. -/
theorem perform_read_err {m : MicroOp} {s : State} {a : DevAddr} {reg : Byte} {rest : List Input}
    (h : m.request s = .ok (.busR a reg)) (hi : s.inputs = .readAnswer .err :: rest) :
    m.perform s = .failed ({ s with t := none }.failAt rest (.busR a reg .err)) := by
  simp only [perform_of_request h, State.takeAnswer, State.issue_inputs, hi]
  congr 1
  unfold State.issue; split <;> rfl

/-- A delay that is completed. -/
theorem perform_delay_done {s : State} {ms : Nat} {rest : List Input}
    (hp : s.pending = none) (hi : s.inputs = .delayDone :: rest) :
    (MicroOp.uD ms).perform s = .advanced (s.advance rest [.delay ms]) := by
  simp [MicroOp.perform, MicroOp.request, State.takeAnswer, State.issue, hp, hi, State.advance]

/-- A request whose answer is not the next move. -/
theorem perform_waiting {m : MicroOp} {s : State} {r : Request} (h : m.request s = .ok r)
    (hi : ∀ x rest, s.inputs = x :: rest → ¬ x.answers r) :
    m.perform s = .waiting (s.issue r) := by
  rw [perform_of_request h, takeAnswer_waiting]
  simpa using hi

/-- What performing a micro-operation can do: complete, fail, wait, or stop at an absent register. -/
theorem perform_cases (m : MicroOp) (s : State) :
    (∃ a reg v rest, m.request s = .ok (.busW a reg v) ∧ s.inputs = .writeAnswer .ok :: rest ∧
      m.perform s = .advanced (s.advance rest [.busW a reg v .ok])) ∨
    (∃ a reg b rest, m.request s = .ok (.busR a reg) ∧ s.inputs = .readAnswer (.ok b) :: rest ∧
      m.perform s = .advanced ({ s with t := some b }.advance rest [.busR a reg (.ok b)])) ∨
    (∃ ms rest, m = .uD ms ∧ s.inputs = .delayDone :: rest ∧
      m.perform s = .advanced ((s.issue (.delay ms)).advance rest [])) ∨
    (∃ a reg v rest, m.request s = .ok (.busW a reg v) ∧ s.inputs = .writeAnswer .err :: rest ∧
      m.perform s = .failed (s.failAt rest (.busW a reg v .err))) ∨
    (∃ a reg rest, m.request s = .ok (.busR a reg) ∧ s.inputs = .readAnswer .err :: rest ∧
      m.perform s = .failed ({ s with t := none }.failAt rest (.busR a reg .err))) ∨
    (∃ r, m.request s = .ok r ∧ m.perform s = .waiting (s.issue r)) ∨
    (∃ f, m.request s = .error f ∧ m.perform s = .stopped f) := by
  cases hr : m.request s with
  | error f => simp [perform_of_absent hr]
  | ok r =>
    rcases takeAnswer_cases r (s.issue r) with ⟨a, reg, v, rest, rfl, hi, h⟩ |
      ⟨a, reg, v, rest, rfl, hi, h⟩ | ⟨a, reg, b, rest, rfl, hi, h⟩ | ⟨a, reg, rest, rfl, hi, h⟩ |
      ⟨ms, rest, rfl, hi, h⟩ | h
    · rw [State.issue_inputs] at hi
      exact .inl ⟨a, reg, v, rest, rfl, hi, perform_write_ok hr hi⟩
    · rw [State.issue_inputs] at hi
      exact .inr (.inr (.inr (.inl ⟨a, reg, v, rest, rfl, hi, perform_write_err hr hi⟩)))
    · rw [State.issue_inputs] at hi
      exact .inr (.inl ⟨a, reg, b, rest, rfl, hi, perform_read_ok hr hi⟩)
    · rw [State.issue_inputs] at hi
      exact .inr (.inr (.inr (.inr (.inl ⟨a, reg, rest, rfl, hi, perform_read_err hr hi⟩))))
    · rw [State.issue_inputs] at hi
      refine .inr (.inr (.inl ⟨ms, rest, ?_, hi, by rw [perform_of_request hr, h]⟩))
      rcases request_cases hr with ⟨_, _, _, _, -, -, -, h'⟩ | ⟨_, _, -, -, h'⟩ | ⟨_, hm, h'⟩
      · cases h'
      · cases h'
      · cases h'; exact hm
    · exact .inr (.inr (.inr (.inr (.inr (.inl ⟨r, rfl, by rw [perform_of_request hr, h]⟩)))))

/-! ### Running a command -/

@[simp] theorem run_nil (c : Command) (s : State) : c.run [] s = c.complete s := rfl

theorem run_advanced {c : Command} {m : MicroOp} {ms : List MicroOp} {s s' : State}
    (h : m.perform s = .advanced s') : c.run (m :: ms) s = c.run ms s' := by
  simp [Command.run, h]

theorem run_failed {c : Command} {m : MicroOp} {ms : List MicroOp} {s s' : State}
    (h : m.perform s = .failed s') : c.run (m :: ms) s = .next (c.abort s') := by
  simp [Command.run, h]

theorem run_waiting {c : Command} {m : MicroOp} {ms : List MicroOp} {s s' : State}
    (h : m.perform s = .waiting s') : c.run (m :: ms) s = .next s' := by
  simp [Command.run, h]

theorem run_stopped {c : Command} {m : MicroOp} {ms : List MicroOp} {s : State} {f : Fault}
    (h : m.perform s = .stopped f) : c.run (m :: ms) s = .fault f := by
  simp [Command.run, h]

/-- A command that returns no byte completes with data 0. -/
theorem complete_plain {c : Command} (h : c.returnsT = false) (s : State) :
    c.complete s = .next ((s.setLc c.lcDone).respond .ok 0) := by
  simp [Command.complete, h]

/-- RDREG and CHRD complete with `T`. -/
theorem complete_returning {c : Command} (h : c.returnsT = true) {s : State} {b : Byte}
    (ht : s.t = some b) : c.complete s = .next ((s.setLc c.lcDone).respond .ok b) := by
  simp [Command.complete, h, State.readT, ht]

/-- What completing can do. -/
theorem complete_cases (c : Command) (s : State) :
    (∃ b, c.complete s = .next ((s.setLc c.lcDone).respond .ok b)) ∨
    (c.returnsT = true ∧ s.t = none ∧ c.complete s = .fault .absentT) := by
  unfold Command.complete State.readT
  split
  · rename_i hr
    cases h : s.t with
    | none => exact .inr ⟨hr, rfl, rfl⟩
    | some b => exact .inl ⟨b, rfl⟩
  · exact .inl ⟨0, rfl⟩

/-! ### Admission -/

theorem admit_refused {c : Command} {s : State} (h : c.gate.admits s.lc = false) :
    c.admission s = .error .notUsable := by
  simp [Command.admission, h]

theorem admit_invalid {c : Command} {s : State} {e : ErrorKind} (h : c.gate.admits s.lc = true)
    (hc : c.check = some e) : c.admission s = .error e := by
  simp [Command.admission, h, hc]

theorem admit_ok {c : Command} {s : State} (h : c.gate.admits s.lc = true) (hc : c.check = none) :
    c.admission s = .ok (c.enter s) := by
  simp [Command.admission, h, hc]

/-- What admission can do. -/
theorem admit_cases (c : Command) (s : State) :
    (c.gate.admits s.lc = false ∧ c.admission s = .error .notUsable) ∨
    (∃ e, c.gate.admits s.lc = true ∧ c.check = some e ∧ c.admission s = .error e) ∨
    (c.gate.admits s.lc = true ∧ c.check = none ∧ c.admission s = .ok (c.enter s)) := by
  cases hg : c.gate.admits s.lc with
  | false => exact .inl ⟨rfl, admit_refused hg⟩
  | true =>
    cases hc : c.check with
    | none => exact .inr (.inr ⟨rfl, rfl, admit_ok hg hc⟩)
    | some e => exact .inr (.inl ⟨e, rfl, rfl, admit_invalid hg hc⟩)

theorem execute_refused {c : Command} {s : State} (h : c.gate.admits s.lc = false) :
    c.execute s = .next (s.accept.raise .notUsable) := by
  simp [Command.execute, admit_refused (s := s.accept) h]

theorem execute_invalid {c : Command} {s : State} {e : ErrorKind} (h : c.gate.admits s.lc = true)
    (hc : c.check = some e) : c.execute s = .next (s.accept.raise e) := by
  simp [Command.execute, admit_invalid (s := s.accept) h hc]

theorem execute_admitted {c : Command} {s : State} (h : c.gate.admits s.lc = true)
    (hc : c.check = none) : c.execute s = c.run c.program (c.enter s.accept) := by
  simp [Command.execute, admit_ok (s := s.accept) h hc]

/-- The refusal of a command is its answer with `UPC` 0 and everything else as before. -/
theorem accept_raise (s : State) (e : ErrorKind) :
    s.accept.raise e = s.finished 0 s.inputs [.resp (.error e) 0] := rfl

theorem gate_ready_admits {lc : Lifecycle} : Gate.ready.admits lc = true ↔ lc = .ready := by
  cases lc <;> simp [Gate.admits]

theorem gate_noDriver_admits {lc : Lifecycle} : Gate.noDriver.admits lc = true ↔ lc ≠ .ready := by
  cases lc <;> simp [Gate.admits]

/-! ### Dispatch -/

/-- Every meaning executes the command that the sequencer goes on with. -/
theorem exec_eq_execute (i : Instr) (s : State) : exec i s = (commandOf s.params i).execute s := by
  cases i <;> rfl

end Sys2Proof.Machine
end

