-- ==== Sys2Proof/Laws/PerInstr.lean ====
section
/-! SUPPORT. Facts about every command as syntax, one lemma per constructor: `OpcField` says that `OPC`
of a command's word is its number in the opcode map (`spec/30_encoding.md` R83), "`OPC` alone selects the
command". -/

namespace Sys2Proof.Laws.OpcField

def Statement (i : Instr) : Prop := opcField (encode i) = i.opcode

theorem openDevice (a : DevAddr) : Statement (.openDevice a) := opcField_wordOfFields ..
theorem closeDevice : Statement .closeDevice := opcField_wordOfFields ..
theorem setpos (c : Byte) (p : Position) : Statement (.setpos c p) := opcField_wordOfFields ..
theorem wrreg (r v : Byte) : Statement (.wrreg r v) := opcField_wordOfFields ..
theorem rdreg (r : Byte) : Statement (.rdreg r) := opcField_wordOfFields ..
theorem setbit (r : Byte) (b : BitOffset) : Statement (.setbit r b) := opcField_wordOfFields ..
theorem clrbit (r : Byte) (b : BitOffset) : Statement (.clrbit r b) := opcField_wordOfFields ..
theorem chwr (k : Kind) (c v : Byte) : Statement (.chwr k c v) := opcField_wordOfFields ..
theorem chrd (k : Kind) (c : Byte) : Statement (.chrd k c) := opcField_wordOfFields ..

end Sys2Proof.Laws.OpcField
end

