-- ==== Sys2Proof/Laws/Run.lean ====
section
/-! SUPPORT. What running a command can do, once, by induction over its micro-program; the whole-machine
rules follow from it. -/

namespace Sys2Proof.Machine

/-- What no micro-operation and no response changes. -/
structure Kept (s t : State) : Prop where
  addr : t.addr = s.addr
  cmd : t.cmd = s.cmd
  params : t.params = s.params
  inputs : ∃ taken, s.inputs = taken ++ t.inputs

theorem Kept.refl (s : State) : Kept s s := ⟨rfl, rfl, rfl, [], rfl⟩

theorem Kept.trans {s t u : State} (h : Kept s t) (k : Kept t u) : Kept s u := by
  obtain ⟨x, hx⟩ := h.inputs
  obtain ⟨y, hy⟩ := k.inputs
  exact ⟨k.addr.trans h.addr, k.cmd.trans h.cmd, k.params.trans h.params, x ++ y, by
    rw [hx, hy, List.append_assoc]⟩

/-- An event of a micro-operation that completed: no response, no bus error, at `ADDR`. -/
structure CleanEvents (addr : Option DevAddr) (evs : List Event) : Prop where
  quiet : ∀ e ∈ evs, e.isResponse = false
  good : ∀ e ∈ evs, e.isBusError = false
  at_addr : ∀ e ∈ evs, ∀ a, e.busAddress = some a → addr = some a

theorem CleanEvents.nil (addr : Option DevAddr) : CleanEvents addr [] :=
  ⟨by simp, by simp, by simp⟩

theorem CleanEvents.append {addr : Option DevAddr} {xs ys : List Event}
    (hx : CleanEvents addr xs) (hy : CleanEvents addr ys) : CleanEvents addr (xs ++ ys) :=
  ⟨fun e he => (List.mem_append.1 he).elim (hx.quiet e) (hy.quiet e),
   fun e he => (List.mem_append.1 he).elim (hx.good e) (hy.good e),
   fun e he => (List.mem_append.1 he).elim (hx.at_addr e) (hy.at_addr e)⟩

/-- A micro-operation that completed: clean events, `LC` and the phase as before, nothing outstanding,
`UPC` one further, and `T` changed by a read alone. -/
theorem perform_advanced {m : MicroOp} {s s' : State} (h : m.perform s = .advanced s') :
    ∃ evs, s'.trace = s.trace ++ evs ∧ CleanEvents s.addr evs ∧ Kept s s' ∧ s'.lc = s.lc ∧
      s'.phase = s.phase ∧ s'.pending = none ∧ s'.upc = s.upc + 1 ∧
      ((∃ reg b, m = .uR reg ∧ s'.t = some b) ∨ s'.t = s.t) := by
  rcases perform_cases m s with ⟨a, reg, v, rest, hr, hi, hp⟩ | ⟨a, reg, b, rest, hr, hi, hp⟩ |
    ⟨ms, rest, rfl, hi, hp⟩ | ⟨a, reg, v, rest, hr, hi, hp⟩ | ⟨a, reg, rest, hr, hi, hp⟩ |
    ⟨r, hr, hp⟩ | ⟨f, hr, hp⟩
  all_goals rw [hp] at h
  all_goals try cases h
  · have ha : s.addr = some a := by
      rcases request_cases hr with ⟨a', _, _, _, _, ha, _, h'⟩ | ⟨_, _, _, _, h'⟩ | ⟨_, _, h'⟩
      · cases h'; exact ha
      · cases h'
      · cases h'
    refine ⟨[.busW a reg v .ok], rfl, ⟨by simp [Event.isResponse], by simp [Event.isBusError], ?_⟩,
      ⟨rfl, rfl, rfl, [.writeAnswer .ok], by simpa using hi⟩, rfl, rfl, rfl, rfl, .inr rfl⟩
    simp only [List.mem_singleton]
    rintro e rfl x hx
    cases hx; exact ha
  · rcases request_cases hr with ⟨_, _, _, _, _, _, _, h'⟩ | ⟨a', reg', hm, ha, h'⟩ | ⟨_, _, h'⟩
    · cases h'
    · cases h'
      refine ⟨[.busR a reg (.ok b)], rfl, ⟨by simp [Event.isResponse], by simp [Event.isBusError], ?_⟩,
        ⟨rfl, rfl, rfl, [.readAnswer (.ok b)], by simpa using hi⟩, rfl, rfl, rfl, rfl,
        .inl ⟨reg, b, hm, rfl⟩⟩
      simp only [List.mem_singleton]
      rintro e rfl x hx
      cases hx; exact ha
    · cases h'
  · by_cases hpend : s.pending = some (.delay ms)
    · refine ⟨[], by simp [State.issue, hpend], CleanEvents.nil _,
        ⟨by simp, by simp, by simp, [.delayDone], by simpa using hi⟩, by simp, by simp, by simp,
        by simp, .inr (by simp)⟩
    · refine ⟨[.delay ms], by simp [State.issue_delay_trace _ _ hpend],
        ⟨by simp [Event.isResponse], by simp [Event.isBusError], by simp [Event.busAddress]⟩,
        ⟨by simp, by simp, by simp, [.delayDone], by simpa using hi⟩, by simp, by simp, by simp,
        by simp, .inr (by simp)⟩

/-- A micro-operation whose transaction failed: the failing event, at `ADDR`, and nothing else. -/
theorem perform_failed {m : MicroOp} {s s' : State} (h : m.perform s = .failed s') :
    ∃ e, s'.trace = s.trace ++ [e] ∧ e.isBusError = true ∧ e.isResponse = false ∧
      (∀ a, e.busAddress = some a → s.addr = some a) ∧ Kept s s' ∧ s'.lc = s.lc ∧
      s'.upc = s.upc ∧ ((∃ reg, m = .uR reg ∧ s'.t = none) ∨ s'.t = s.t) := by
  rcases perform_cases m s with ⟨a, reg, v, rest, hr, hi, hp⟩ | ⟨a, reg, b, rest, hr, hi, hp⟩ |
    ⟨ms, rest, rfl, hi, hp⟩ | ⟨a, reg, v, rest, hr, hi, hp⟩ | ⟨a, reg, rest, hr, hi, hp⟩ |
    ⟨r, hr, hp⟩ | ⟨f, hr, hp⟩
  all_goals rw [hp] at h
  all_goals try cases h
  · rcases request_cases hr with ⟨a', _, _, _, _, ha, _, h'⟩ | ⟨_, _, _, _, h'⟩ | ⟨_, _, h'⟩
    · cases h'
      exact ⟨.busW a reg v .err, rfl, rfl, rfl, fun x hx => by cases hx; exact ha,
        ⟨rfl, rfl, rfl, [.writeAnswer .err], by simpa using hi⟩, rfl, rfl, .inr rfl⟩
    · cases h'
    · cases h'
  · rcases request_cases hr with ⟨_, _, _, _, _, _, _, h'⟩ | ⟨a', reg', hm, ha, h'⟩ | ⟨_, _, h'⟩
    · cases h'
    · cases h'
      exact ⟨.busR a reg .err, rfl, rfl, rfl, fun x hx => by cases hx; exact ha,
        ⟨rfl, rfl, rfl, [.readAnswer .err], by simpa using hi⟩, rfl, rfl, .inl ⟨reg, hm, rfl⟩⟩
    · cases h'

/-- A micro-operation that waits: its request stands on the port. -/
theorem perform_waits {m : MicroOp} {s s' : State} (h : m.perform s = .waiting s') :
    ∃ r, m.request s = .ok r ∧ s' = s.issue r := by
  rcases perform_cases m s with ⟨a, reg, v, rest, hr, hi, hp⟩ | ⟨a, reg, b, rest, hr, hi, hp⟩ |
    ⟨ms, rest, rfl, hi, hp⟩ | ⟨a, reg, v, rest, hr, hi, hp⟩ | ⟨a, reg, rest, hr, hi, hp⟩ |
    ⟨r, hr, hp⟩ | ⟨f, hr, hp⟩
  all_goals rw [hp] at h
  all_goals try cases h
  exact ⟨r, hr, rfl⟩

/-- Issuing a request adds at most a delay event. -/
theorem issue_events (s : State) (r : Request) :
    ∃ evs, (s.issue r).trace = s.trace ++ evs ∧ CleanEvents s.addr evs := by
  unfold State.issue
  split
  · exact ⟨[], by simp, CleanEvents.nil _⟩
  · cases r with
    | delay ms =>
      exact ⟨[.delay ms], rfl,
        ⟨by simp [Event.isResponse], by simp [Event.isBusError], by simp [Event.busAddress]⟩⟩
    | busW a reg v => exact ⟨[], by simp, CleanEvents.nil _⟩
    | busR a reg => exact ⟨[], by simp, CleanEvents.nil _⟩

/-- The three ways a command's run can end in a next state. -/
inductive RunEnd (c : Command) (s t : State) (evs : List Event) : Prop
  /-- it responded `OK` -/
  | done (before : List Event) (data : Byte) (h : evs = before ++ [.resp .ok data])
      (clean : CleanEvents s.addr before) (idle : t.phase = .idle) (quiet : t.pending = none)
      (lc : t.lc = c.lcDone.getD s.lc)
  /-- a transaction failed -/
  | failed (before : List Event) (e : Event)
      (h : evs = before ++ [e, .resp (.error .transportError) 0])
      (clean : CleanEvents s.addr before) (err : e.isBusError = true)
      (noresp : e.isResponse = false) (at_addr : ∀ a, e.busAddress = some a → s.addr = some a)
      (idle : t.phase = .idle) (quiet : t.pending = none) (lc : t.lc = c.lcError.getD s.lc)
  /-- a request was not answered -/
  | waiting (clean : CleanEvents s.addr evs) (phase : t.phase = s.phase)
      (standing : t.pending ≠ none) (lc : t.lc = s.lc)

/-- What a run can do when it ends in a next state. -/
theorem run_next {c : Command} {ms : List MicroOp} {s t : State} (h : c.run ms s = .next t) :
    ∃ evs, t.trace = s.trace ++ evs ∧ Kept s t ∧ RunEnd c s t evs := by
  induction ms generalizing s with
  | nil =>
    rcases complete_cases c s with ⟨b, hb⟩ | ⟨-, -, hf⟩
    · rw [run_nil, hb] at h
      cases h
      exact ⟨[.resp .ok b], rfl, ⟨rfl, rfl, rfl, [], rfl⟩,
        .done [] b rfl (CleanEvents.nil _) rfl rfl rfl⟩
    · rw [run_nil, hf] at h; cases h
  | cons m ms ih =>
    cases hp : m.perform s with
    | advanced s' =>
      rw [run_advanced hp] at h
      obtain ⟨xs, hx, cx, kx, lx, px, -, -, -⟩ := perform_advanced hp
      obtain ⟨ys, hy, ky, ey⟩ := ih h
      refine ⟨xs ++ ys, by rw [hy, hx, List.append_assoc], kx.trans ky, ?_⟩
      have ha := kx.addr
      cases ey with
      | done before data hb cb i q l =>
        rw [ha] at cb
        exact .done (xs ++ before) data (by rw [hb, List.append_assoc]) (cx.append cb) i q
          (by rw [l, lx])
      | failed before e hb cb er nr at' i q l =>
        rw [ha] at cb at'
        exact .failed (xs ++ before) e (by rw [hb, List.append_assoc]) (cx.append cb) er nr at' i q
          (by rw [l, lx])
      | waiting cb p st l =>
        rw [ha] at cb
        exact .waiting (cx.append cb) (by rw [p, px]) st (by rw [l, lx])
    | failed s' =>
      rw [run_failed hp] at h
      cases h
      obtain ⟨e, hx, er, nr, at', kx, lx, -, -⟩ := perform_failed hp
      refine ⟨[e, .resp (.error .transportError) 0], ?_, kx.trans ⟨rfl, rfl, rfl, [], rfl⟩,
        .failed [] e rfl (CleanEvents.nil _) er nr at' rfl rfl ?_⟩
      · simp [Command.abort, hx]
      · simp [Command.abort, lx]
    | waiting s' =>
      rw [run_waiting hp] at h
      cases h
      obtain ⟨r, -, rfl⟩ := perform_waits hp
      obtain ⟨xs, hx, cx⟩ := issue_events s r
      exact ⟨xs, hx, ⟨by simp, by simp, by simp, [], by simp⟩,
        .waiting cx (by simp) (by simp) (by simp)⟩
    | stopped f => rw [run_stopped hp] at h; cases h

/-- A run that reads nothing leaves `T` as it was. -/
theorem run_keeps_t {c : Command} {ms : List MicroOp} {s t : State}
    (hm : ∀ m ∈ ms, ∀ reg, m ≠ .uR reg) (h : c.run ms s = .next t) : t.t = s.t := by
  induction ms generalizing s with
  | nil =>
    rcases complete_cases c s with ⟨b, hb⟩ | ⟨-, -, hf⟩
    · rw [run_nil, hb] at h; cases h; rfl
    · rw [run_nil, hf] at h; cases h
  | cons m ms ih =>
    cases hp : m.perform s with
    | advanced s' =>
      rw [run_advanced hp] at h
      obtain ⟨_, _, _, _, _, _, _, _, ht⟩ := perform_advanced hp
      have := ih (fun m' h' => hm m' (List.mem_cons_of_mem _ h')) h
      rcases ht with ⟨reg, _, rfl, _⟩ | ht
      · exact absurd rfl (hm _ (by simp) reg)
      · rw [this, ht]
    | failed s' =>
      rw [run_failed hp] at h
      cases h
      obtain ⟨_, _, _, _, _, _, _, _, ht⟩ := perform_failed hp
      rcases ht with ⟨reg, rfl, _⟩ | ht
      · exact absurd rfl (hm _ (by simp) reg)
      · simpa [Command.abort] using ht
    | waiting s' =>
      rw [run_waiting hp] at h
      cases h
      obtain ⟨r, -, rfl⟩ := perform_waits hp
      simp
    | stopped f => rw [run_stopped hp] at h; cases h

/-- What executing a command can do when it ends in a next state: a refusal, or a run of its
micro-program from the state in which it starts. -/
theorem execute_next {c : Command} {s t : State} (h : c.execute s = .next t) :
    (∃ e, (c.gate.admits s.lc = false ∧ e = .notUsable ∨
        c.gate.admits s.lc = true ∧ c.check = some e) ∧
      t = s.finished 0 s.inputs [.resp (.error e) 0]) ∨
    (c.gate.admits s.lc = true ∧ c.check = none ∧ c.run c.program (c.enter s.accept) = .next t) := by
  rcases admit_cases c s.accept with ⟨hg, -⟩ | ⟨e, hg, hc, -⟩ | ⟨hg, hc, -⟩
  · rw [execute_refused (s := s) hg] at h
    cases h
    exact .inl ⟨_, .inl ⟨hg, rfl⟩, rfl⟩
  · rw [execute_invalid (s := s) hg hc] at h
    cases h
    exact .inl ⟨e, .inr ⟨hg, hc⟩, rfl⟩
  · rw [execute_admitted (s := s) hg hc] at h
    exact .inr ⟨hg, hc, h⟩

end Sys2Proof.Machine
end

