-- ==== Sys2Proof/Tests/Slice0.lean ====
section
/-! SUPPORT. Tests, every expected value from `spec/95_test_vectors.md` or from the examples of the rules,
and one witness per statement that has hypotheses: states and operands that meet them, at the ends of their
ranges. -/

namespace Sys2Proof.Tests

open Sys2Proof Sys2Proof.Machine

/-! ### Helpers -/

/-- An idle block with the default parameters and the tie rule `half_even`. -/
def block (lc : Lifecycle) (addr : Option DevAddr) (inputs : List Input) : State where
  lc := lc
  addr := addr
  cmd := none
  t := none
  upc := 0
  phase := .idle
  pending := none
  inputs := inputs
  trace := []
  params := Params.default .halfEven

/-- A usable block at address 0x40. -/
def ready (inputs : List Input) : State := block .ready (some 0x40) inputs

/-- The same block with a byte left in `T`. -/
def otherReady (inputs : List Input) : State := { ready inputs with t := some 0xAA }

/-- A block no OPEN has reached. -/
def fresh (inputs : List Input) : State := block .unopened none inputs

/-- What a test looks at of an outcome: trace, lifecycle, `T`, and the moves left. -/
def seen : Result → Option (List Event × Lifecycle × Option Byte × List Input)
  | .next s => some (s.trace, s.lc, s.t, s.inputs)
  | .fault _ => none
  | .refused _ => none

/-- Whether an outcome refuses the parameters. -/
def refusesParameters : Result → Bool
  | .refused .badParameters => true
  | _ => false

/-! ### WellFormed: a term that fails each check is refused -/

/-- The defaults with one field spoilt. -/
def collidingRegs : Params := { Params.default .halfEven with regMode2 := 0x00 }
def regAmongChannels : Params := { Params.default .halfEven with regPreScale := 0x45 }
def collidingBits : Params := { Params.default .halfEven with bitRestart := 4 }
def boundTooLow : Params := { Params.default .halfEven with posMaxExcl := 1 }
def boundTooHigh : Params := { Params.default .halfEven with posMaxExcl := 19582 }

theorem test_wf_default : (Params.default .halfEven).wf = true ∧ (Params.default .halfUp).wf = true := by
  decide

theorem test_wf_regs_distinct : collidingRegs.regsDistinct = false ∧ collidingRegs.wf = false := by
  decide

theorem test_wf_regs_outside_channels :
    regAmongChannels.regsOutsideChannels = false ∧ regAmongChannels.wf = false := by decide

theorem test_wf_bits_distinct : collidingBits.bitsDistinct = false ∧ collidingBits.wf = false := by
  decide

theorem test_wf_position_bound :
    boundTooLow.posBoundOk = false ∧ boundTooLow.wf = false ∧
    boundTooHigh.posBoundOk = false ∧ boundTooHigh.wf = false := by decide

theorem test_step_refuses_bad_parameters :
    refusesParameters (step { ready [] with params := collidingRegs }) = true := by decide

theorem test_lines_out_of_range :
    (SourceLine.openDevice 128).wf = false ∧ (SourceLine.setpos 256 0).wf = false ∧
    (SourceLine.setpos 0 65536).wf = false ∧ (SourceLine.wrreg 256 0).wf = false ∧
    (SourceLine.wrreg 0 256).wf = false ∧ (SourceLine.rdreg 256).wf = false ∧
    (SourceLine.setbit 256 0).wf = false ∧ (SourceLine.setbit 0 8).wf = false ∧
    (SourceLine.clrbit 256 0).wf = false ∧ (SourceLine.clrbit 0 8).wf = false ∧
    (SourceLine.chwr .onLow 256 0).wf = false ∧ (SourceLine.chwr .onLow 0 256).wf = false ∧
    (SourceLine.chrd .onLow 256).wf = false := by decide

/-! ### Encoding (section 2.1) -/

/-- `00000001 0aaaaaaa 0…0` with `a` = 0x40; `00000010 0…0`. -/
theorem test_decode_open_close :
    decode 0b00000001_01000000_0000000000000000 = .ok (.openDevice 0x40) ∧
    decode 0b00000010_00000000_0000000000000000 = .ok .closeDevice := by decide

/-- `setpos 15, 2999`: 2999 is 0x0BB7. -/
theorem test_decode_setpos :
    decode 0b00000011_00001111_0000101110110111 = .ok (.setpos 15 2999) := by decide

theorem test_decode_direct :
    decode 0b00010000_00000001_0000000000000100 = .ok (.wrreg 0x01 0x04) ∧
    decode 0b00010001_11111110_0000000000000000 = .ok (.rdreg 0xFE) ∧
    decode 0b00010010_00000000_0000000000000100 = .ok (.setbit 0x00 4) ∧
    decode 0b00010011_00000000_0000000000000100 = .ok (.clrbit 0x00 4) := by decide

theorem test_decode_channel :
    decode 0b00100000_00001111_000000_11_00000010 = .ok (.chwr .offHigh 15 0x02) ∧
    decode 0b00100001_00000011_000000_10_00000000 = .ok (.chrd .offLow 3) := by decide

theorem test_decode_unassigned :
    decode 0x00000000 = .error (.unassignedOpcode 0x00) ∧
    decode 0xFFFFFFFF = .error (.unassignedOpcode 0xFF) ∧
    decode 0x04000000 = .error (.unassignedOpcode 0x04) ∧
    decode 0x14000000 = .error (.unassignedOpcode 0x14) ∧
    decode 0x22000000 = .error (.unassignedOpcode 0x22) := by decide

theorem test_decode_reserved_bits :
    decode 0x01C10000 = .error (.reservedBitSet 0x01) ∧
    decode 0x01400001 = .error (.reservedBitSet 0x01) ∧
    decode 0x02000001 = .error (.reservedBitSet 0x02) ∧
    decode 0x02010000 = .error (.reservedBitSet 0x02) ∧
    decode 0x10FE0179 = .error (.reservedBitSet 0x10) ∧
    decode 0x11000001 = .error (.reservedBitSet 0x11) ∧
    decode 0x12000008 = .error (.reservedBitSet 0x12) ∧
    decode 0x13000010 = .error (.reservedBitSet 0x13) ∧
    decode 0x20000400 = .error (.reservedBitSet 0x20) ∧
    decode 0x21000001 = .error (.reservedBitSet 0x21) := by decide

/-- No word satisfies two rows of R87: two rows differ in a bit both fix. -/
theorem test_rows_disjoint :
    opcodeRows.Pairwise fun r r' =>
      r.matchBits &&& (r.maskBits &&& r'.maskBits) ≠ r'.matchBits &&& (r.maskBits &&& r'.maskBits) := by
  decide

theorem test_table_word :
    decodeTableWord 32 0x20010064 = some (.chwr .onLow 1 0x64) ∧
    decodeTableWord 32 0x12000008 = none := by decide

theorem test_assemble_open_close :
    assembleText "open 0x40" = some 0x01400000 ∧ assembleText "OPEN 127" = some 0x017F0000 ∧
    assembleText "open 128" = none ∧ assembleText "close" = some 0x02000000 := by decide

theorem test_assemble_operands :
    assembleText "setpos 15, 2999" = some 0x030F0BB7 ∧
    assembleText "wrreg 0x01, 0x04" = some 0x10010004 ∧
    assembleText "rdreg 0xFE" = some 0x11FE0000 ∧
    assembleText "setbit 0x00, 4" = some 0x12000004 ∧
    assembleText "clrbit 0x00, 4" = some 0x13000004 ∧
    assembleText "setbit 0x00, 8" = none := by decide

theorem test_assemble_kinds :
    assembleText "chwr off_high, 15, 0x02" = some 0x200F0302 ∧
    assembleText "chwr on_low, 1, 0x64" = some 0x20010064 ∧
    assembleText "CHRD off_low, 3" = some 0x21030200 := by decide

/-! ### Function units (sections 1.1, 1.2, 2.5) -/

theorem test_bit_utilities :
    testBit 0x11 4 = true ∧ testBit 0x11 3 = false ∧ setBit 0x11 7 = 0x91 ∧ setBit 0xA5 1 = 0xA7 ∧
    clearBit 0x11 4 = 0x01 ∧ clearBit 0xA5 2 = 0xA1 ∧ clearBit 0xA5 1 = 0xA5 := by decide

theorem test_get_byte :
    getByte 0x12345678 0 = 0x78 ∧ getByte 0x12345678 3 = 0x12 ∧ getByte 407 0 = 0x97 ∧
    getByte 407 1 = 0x01 ∧ getByte 407 2 = 0 := by decide

theorem test_channel_register :
    channelRegister .onLow 0 = .ok 0x06 ∧ channelRegister .offLow 3 = .ok 0x14 ∧
    channelRegister .offHigh 15 = .ok 0x45 ∧ channelRegister .onLow 16 = .error .invalidChannel ∧
    channelRegister .onLow (-1) = .error .invalidChannel := by decide

theorem test_scale :
    scale .halfEven 1 = 101 ∧ scale .halfEven 125 = 126 ∧ scale .halfUp 125 = 127 ∧
    scale .halfEven 375 = 178 ∧ scale .halfUp 375 = 178 ∧ scale .halfUp 757 = 255 ∧
    scale .halfUp 758 = 256 ∧ scale .halfEven 1500 = 407 ∧ scale .halfEven 2999 = 713 := by decide

/-! ### Commands, one step each -/

/-- Program P1, command 1. -/
theorem test_open_brings_up :
    seen (step (fresh (.command 0x01400000 :: openAnswers 0x11 0x10 0x00))) =
      some ([.cmd 0x01400000, .busW 0x40 0xFE 0x79 .ok, .busR 0x40 0x00 (.ok 0x11),
        .busW 0x40 0x00 0x10 .ok, .busW 0x40 0xFA 0x64 .ok, .busW 0x40 0xFB 0x00 .ok,
        .busW 0x40 0xFC 0x97 .ok, .busW 0x40 0xFD 0x01 .ok, .busR 0x40 0x00 (.ok 0x10),
        .busW 0x40 0x00 0x00 .ok, .delay 100, .busR 0x40 0x00 (.ok 0x00),
        .busW 0x40 0x00 0x80 .ok, .delay 100, .resp .ok 0], .ready, some 0x00, []) := by decide

/-- Program P3, command 3: the read of step 5 fails. -/
theorem test_open_fails_at_step_5 :
    seen (step (fresh [.command 0x01410000, .writeAnswer .ok, .readAnswer (.ok 0x31), .writeAnswer .ok,
        .writeAnswer .ok, .writeAnswer .ok, .writeAnswer .ok, .writeAnswer .ok, .readAnswer .err])) =
      some ([.cmd 0x01410000, .busW 0x41 0xFE 0x79 .ok, .busR 0x41 0x00 (.ok 0x31),
        .busW 0x41 0x00 0x30 .ok, .busW 0x41 0xFA 0x64 .ok, .busW 0x41 0xFB 0x00 .ok,
        .busW 0x41 0xFC 0x97 .ok, .busW 0x41 0xFD 0x01 .ok, .busR 0x41 0x00 .err,
        .resp (.error .transportError) 0], .failed, none, []) := by decide

/-- E9. -/
theorem test_close :
    seen (step (ready [.command 0x02000000, .readAnswer (.ok 0xEF), .writeAnswer .ok])) =
      some ([.cmd 0x02000000, .busR 0x40 0x00 (.ok 0xEF), .busW 0x40 0x00 0xFF .ok, .resp .ok 0],
        .closed, some 0xEF, []) := by decide

/-- Section 2.3, CLOSE with errors. -/
theorem test_close_write_fails :
    seen (step (ready [.command 0x02000000, .readAnswer (.ok 0xA0), .writeAnswer .err])) =
      some ([.cmd 0x02000000, .busR 0x40 0x00 (.ok 0xA0), .busW 0x40 0x00 0xB0 .err,
        .resp (.error .transportError) 0], .closed, some 0xA0, []) := by decide

/-- Section 2.5, `setpos 2, 1125` under `half_even`. -/
theorem test_setpos_tie :
    seen (step (ready [.command 0x03020465, .writeAnswer .ok, .writeAnswer .ok])) =
      some ([.cmd 0x03020465, .busW 0x40 0x10 0x4A .ok, .busW 0x40 0x11 0x01 .ok, .resp .ok 0],
        .ready, none, []) := by decide

/-- Section 2.5, `setpos 7, 2000`: torn. -/
theorem test_setpos_torn :
    seen (step (ready [.command 0x030707D0, .writeAnswer .ok, .writeAnswer .err])) =
      some ([.cmd 0x030707D0, .busW 0x40 0x24 0xFD .ok, .busW 0x40 0x25 0x01 .err,
        .resp (.error .transportError) 0], .ready, none, []) := by decide

/-- Section 2.2. -/
theorem test_wrreg :
    seen (step (ready [.command 0x10010004, .writeAnswer .ok])) =
      some ([.cmd 0x10010004, .busW 0x40 0x01 0x04 .ok, .resp .ok 0], .ready, none, []) := by decide

theorem test_wrreg_not_usable :
    seen (step (fresh [.command 0x10010004])) =
      some ([.cmd 0x10010004, .resp (.error .notUsable) 0], .unopened, none, []) := by decide

theorem test_rdreg :
    seen (step (ready [.command 0x11FE0000, .readAnswer (.ok 0x79)])) =
      some ([.cmd 0x11FE0000, .busR 0x40 0xFE (.ok 0x79), .resp .ok 0x79], .ready, some 0x79, []) := by
  decide

theorem test_rdreg_fails :
    seen (step (ready [.command 0x11FE0000, .readAnswer .err])) =
      some ([.cmd 0x11FE0000, .busR 0x40 0xFE .err, .resp (.error .transportError) 0], .ready, none,
        []) := by decide

theorem test_setbit_already_set :
    seen (step (ready [.command 0x12000004, .readAnswer (.ok 0x90), .writeAnswer .ok])) =
      some ([.cmd 0x12000004, .busR 0x40 0x00 (.ok 0x90), .busW 0x40 0x00 0x90 .ok, .resp .ok 0],
        .ready, some 0x90, []) := by decide

theorem test_setbit_bit_7 :
    seen (step (ready [.command 0x12450007, .readAnswer (.ok 0x02), .writeAnswer .ok])) =
      some ([.cmd 0x12450007, .busR 0x40 0x45 (.ok 0x02), .busW 0x40 0x45 0x82 .ok, .resp .ok 0],
        .ready, some 0x02, []) := by decide

theorem test_clrbit :
    seen (step (ready [.command 0x13000007, .readAnswer (.ok 0xFF), .writeAnswer .ok])) =
      some ([.cmd 0x13000007, .busR 0x40 0x00 (.ok 0xFF), .busW 0x40 0x00 0x7F .ok, .resp .ok 0],
        .ready, some 0xFF, []) := by decide

theorem test_clrbit_bit_0 :
    seen (step (ready [.command 0x13000000, .readAnswer (.ok 0x11), .writeAnswer .ok])) =
      some ([.cmd 0x13000000, .busR 0x40 0x00 (.ok 0x11), .busW 0x40 0x00 0x10 .ok, .resp .ok 0],
        .ready, some 0x11, []) := by decide

/-- Section 2.4. -/
theorem test_chwr :
    seen (step (ready [.command 0x200F0302, .writeAnswer .ok])) =
      some ([.cmd 0x200F0302, .busW 0x40 0x45 0x02 .ok, .resp .ok 0], .ready, none, []) := by decide

theorem test_chwr_invalid_channel :
    seen (step (ready [.command 0x20100000])) =
      some ([.cmd 0x20100000, .resp (.error .invalidChannel) 0], .ready, none, []) := by decide

theorem test_chrd :
    seen (step (ready [.command 0x21030200, .readAnswer (.ok 0xC9)])) =
      some ([.cmd 0x21030200, .busR 0x40 0x14 (.ok 0xC9), .resp .ok 0xC9], .ready, some 0xC9, []) := by
  decide

theorem test_chrd_fails :
    seen (step (ready [.command 0x21030300, .readAnswer .err])) =
      some ([.cmd 0x21030300, .busR 0x40 0x15 .err, .resp (.error .transportError) 0], .ready, none,
        []) := by decide

/-! ### The machine -/

/-- Section 2.6: illegal before not usable, not usable before invalid channel, invalid channel before
invalid position. -/
theorem test_error_priority :
    (seen (step (fresh [.command 0x12000008]))).map (·.1) =
      some [.cmd 0x12000008, .resp (.error .illegalCommand) 0] ∧
    (seen (step (block .closed (some 0x40) [.command 0x03100000]))).map (·.1) =
      some [.cmd 0x03100000, .resp (.error .notUsable) 0] ∧
    (seen (step (ready [.command 0x03100000]))).map (·.1) =
      some [.cmd 0x03100000, .resp (.error .invalidChannel) 0] ∧
    (seen (step (ready [.command 0x03030000]))).map (·.1) =
      some [.cmd 0x03030000, .resp (.error .invalidPosition) 0] := by decide

/-- R86: response words of programs P2 and P3. -/
theorem test_response_words :
    responseWord (.error .invalidChannel) 0 = 0x0100 ∧ responseWord (.error .invalidPosition) 0 = 0x0200 ∧
    responseWord .ok 0xC9 = 0x00C9 ∧ responseWord (.error .transportError) 0 = 0x0300 ∧
    responseWord (.error .notUsable) 0 = 0x0400 ∧ responseWord (.error .illegalCommand) 0 = 0x0500 := by
  decide

/-- A SETBIT whose read has been answered and whose write has not: the request stands. -/
def standing : State :=
  { ready [] with cmd := some 0x12000004, t := some 0x80, upc := 1, phase := .executing,
                  pending := some (.busW 0x40 0x00 0x90) }

/-- R247: no answer, no move. R53: the answer ends the wait, and no request is issued twice. -/
theorem test_standing_request :
    step standing = .next standing ∧
    seen (step { standing with inputs := [.writeAnswer .ok] }) =
      some ([.busW 0x40 0x00 0x90 .ok, .resp .ok 0], .ready, some 0x80, []) :=
  ⟨rfl, by decide⟩

/-- R230: reset in mid-command. -/
theorem test_reset_in_mid_command :
    seen (step { standing with inputs := [.reset] }) = some ([], .unopened, none, []) := by decide

/-- The reference device at address 0x40 with `REGS[0x00] = 0x80` (program P4). -/
def device : RefDevice := { da := 0x40, regs := [(0x00, 0x80)] }

/-- R71: a broadcast write reaches every channel; a write of 0 leaves no entry; another address errs. -/
theorem test_reference_device :
    (device.answer (Params.default .halfEven) (.busW 0x40 0xFA 0x64)).2.regs.length = 18 ∧
    Memory.read (device.answer (Params.default .halfEven) (.busW 0x40 0xFA 0x64)).2.regs 0x42 = 0x64 ∧
    (device.answer (Params.default .halfEven) (.busW 0x40 0x00 0x00)).2.regs = [] ∧
    (device.answer (Params.default .halfEven) (.busR 0x41 0x00)).1 = .readAnswer .err := by decide

/-- Program P4, command 2, on the bench: three bench steps, each one move of the environment and one step
of the block, clear bit 4 of `mode1`. -/
def bench : Bench :=
  { block := ready [], device := { da := 0x40, regs := [(0x00, 0x90)] }, program := [0x13000004],
    count := 0, failing := [] }

def benchSeen : Host.Outcome Bench Fault Refusal → Option (List Event × Memory)
  | .next b => some (b.block.trace, b.device.regs)
  | .fault _ => none
  | .refused _ => none

theorem test_bench_clears_a_bit :
    benchSeen (Bench.run 3 bench) =
      some ([.cmd 0x13000004, .busR 0x40 0x00 (.ok 0x90), .busW 0x40 0x00 0x80 .ok, .resp .ok 0],
        [(0x00, 0x80)]) := by decide

/-! ### Witnesses: encoding -/

theorem witness_EncodeOfDecodeIsTheWord : decode 0x01400000 = .ok (.openDevice 0x40) := by decide

theorem witness_IllegalWordsAreTheRowlessOnes :
    decode 0x02000000 = .ok .closeDevice ∧
    (⟨"CLOSE", 0x02000000, 0xFFFFFFFF⟩ : OpcodeRow) ∈ opcodeRows ∧
    (⟨"CLOSE", 0x02000000, 0xFFFFFFFF⟩ : OpcodeRow).admits 0x02000000 = true ∧
    (ready [.command 0x02000001]).params.wf = true ∧
    (ready [.command 0x02000001]).phase = .idle ∧
    (ready [.command 0x02000001]).inputs = [.command 0x02000001] ∧
    legalWord 0x02000001 = false := by decide

theorem witness_AssembledLineDecodesToItsCommand :
    (SourceLine.openDevice 127).wf = true ∧ (SourceLine.openDevice 128).wf = false ∧
    (SourceLine.setpos 255 65535).wf = true ∧ (SourceLine.setpos 255 65536).wf = false := by decide

/-! ### Witnesses: function units -/

theorem witness_BitUtilityLaws : (1 : Nat) ≠ 0 := by decide

theorem witness_GetByteReassembles :
    (0xFF : Nat) < 2 ^ (8 * 1) ∧ (0xFFFFFFFF : Nat) < 2 ^ 32 := by decide

theorem witness_ChannelRegisterAddress :
    ((0 : Int) ≤ 0 ∧ (0 : Int) ≤ 15) ∧ ((0 : Int) ≤ 15 ∧ (15 : Int) ≤ 15) ∧ (-1 : Int) < 0 ∧
    (15 : Int) < 16 := by decide

theorem witness_ChannelRegisterBijection :
    channelRegister .offHigh 14 = .ok 0x41 ∧ channelRegister .offHigh (14 + 1) = .ok 0x45 ∧
    (15 : Nat) ≤ 15 ∧ 0x06 ≤ (0x06 : Byte).toNat ∧ (0x06 : Byte).toNat ≤ 0x45 := by decide

theorem witness_RegisterMapIsInjective :
    (Params.default .halfEven).wf = true ∧
    RegName.address (Params.default .halfEven) .mode1 =
      RegName.address (Params.default .halfEven) .mode1 := by decide

theorem witness_ScaleRoundsToNearest : scaleNumerator 125 % 1000 = 500 := by decide

theorem witness_ScaleShapeAndRange :
    (1 : Nat) ≤ 2 ∧ ((1 : Nat) ≤ 1 ∧ (1 : Nat) ≤ 2999) ∧ ((1 : Nat) ≤ 2999 ∧ (2999 : Nat) ≤ 2999) ∧
    (19580 : Nat) ≤ 19580 := by decide

theorem witness_RoundingTies :
    scaleNumerator 124 % 1000 ≠ 500 ∧
    ((1 : Nat) ≤ 125 ∧ (125 : Nat) ≤ 2999 ∧ scaleNumerator 125 % 1000 = 500) ∧
    ((1 : Nat) ≤ 2875 ∧ (2875 : Nat) ≤ 2999 ∧ scaleNumerator 2875 % 1000 = 500) ∧
    ((125 : Nat) : Int) = 1000 + 125 * (-7) := by decide

theorem witness_PackSplitsATick : (4095 : Nat) ≤ 4095 := by decide

theorem witness_HighByteUpperBitsAreZero :
    (commandOf (Params.default .halfEven) (.openDevice 0x40)).check = none ∧
    (commandOf (Params.default .halfEven) (.openDevice 0x40)).program[4]? =
      some (.uW (Params.default .halfEven).regAllOnH (.lit 0x00)) ∧
    (commandOf (Params.default .halfEven) (.setpos 15 2999)).check = none ∧
    (commandOf (Params.default .halfEven) (.setpos 15 2999)).program[1]? =
      some (.uW (RegName.address (Params.default .halfEven) (.channel .offHigh 15)) (.lit 0x02)) ∧
    (Params.default .halfEven).wf = true ∧ validPosition (Params.default .halfEven) 1 = true ∧
    validPosition (Params.default .halfEven) 2999 = true := by decide

theorem witness_TransportCallFrames :
    ([] : List Byte).length ≠ 1 ∧ ([0, 0] : List Byte).length ≠ 1 := by decide

/-! ### Witnesses: micro-programs -/

theorem witness_MicroProgramTable :
    channelRegister .offHigh (channelOperand 15) = .ok 0x45 ∧ (15 : Byte).toNat ≤ 15 := by decide

theorem witness_ReadModifyWriteTouchesOneBit :
    (commandOf (Params.default .halfEven) .closeDevice).program[1]? = some (.uW 0x00 (.setInT 4)) ∧
    (commandOf (Params.default .halfEven) (.clrbit 0x00 7)).program[1]? =
      some (.uW 0x00 (.clearInT 7)) ∧
    (ready [.readAnswer (.ok 0x11)]).addr = some 0x40 ∧
    (ready [.readAnswer (.ok 0x11)]).inputs = .readAnswer (.ok 0x11) :: [] ∧
    (otherReady []).addr = some 0x40 ∧ (otherReady []).t = some 0xAA ∧
    (0 : Nat) ≠ (7 : BitOffset).toNat := by decide

theorem witness_FailedReadLeavesTWithoutValue :
    (ready [.readAnswer .err]).addr = some 0x40 ∧
    (ready [.readAnswer .err]).inputs = .readAnswer .err :: [] := by decide

theorem witness_OnlyOpenRequestsDelays :
    MicroOp.uD 100 ∈ (commandOf (Params.default .halfEven) (.openDevice 0x40)).program := by decide

/-! ### Witnesses: commands -/

theorem witness_usable : (ready []).Usable 0x40 := ⟨rfl, rfl⟩

theorem witness_not_usable :
    (fresh []).lc ≠ .ready ∧ (block .closed (some 0x40) []).lc ≠ .ready ∧
    (block .failed (some 0x40) []).lc ≠ .ready := by decide

theorem witness_WrregWritesOneByte :
    (opcField 0x10FF00FF = 0x10 ∧ opcField 0x10FF0100 = 0x10) ∧ (fresh []).lc ≠ .ready ∧
    ((ready [.writeAnswer .ok]).lc = .ready ∧ (ready [.writeAnswer .ok]).addr = some 0x40 ∧
      (ready [.writeAnswer .ok]).inputs = .writeAnswer .ok :: []) ∧
    ((ready [.writeAnswer .err]).lc = .ready ∧ (ready [.writeAnswer .err]).addr = some 0x40 ∧
      (ready [.writeAnswer .err]).inputs = .writeAnswer .err :: []) := by decide

theorem witness_RdregReturnsTheByteRead :
    (opcField 0x11FF0000 = 0x11 ∧ opcField 0x11FF0001 = 0x11) ∧ (fresh []).lc ≠ .ready ∧
    ((ready [.readAnswer (.ok 0xFF)]).lc = .ready ∧ (ready [.readAnswer (.ok 0xFF)]).addr = some 0x40 ∧
      (ready [.readAnswer (.ok 0xFF)]).inputs = .readAnswer (.ok 0xFF) :: []) ∧
    ((ready [.readAnswer .err]).lc = .ready ∧ (ready [.readAnswer .err]).addr = some 0x40 ∧
      (ready [.readAnswer .err]).inputs = .readAnswer .err :: []) := by decide

/-- The inputs of a read-modify-write: both answered, the read failing, the write failing. -/
theorem witness_read_modify_write :
    (ready [.readAnswer (.ok 0x80), .writeAnswer .ok]).inputs =
      .readAnswer (.ok 0x80) :: .writeAnswer .ok :: [] ∧
    (ready [.readAnswer .err]).inputs = .readAnswer .err :: [] ∧
    (ready [.readAnswer (.ok 0x80), .writeAnswer .err]).inputs =
      .readAnswer (.ok 0x80) :: .writeAnswer .err :: [] ∧
    (ready [.readAnswer (.ok 0x80), .writeAnswer .ok]).lc = .ready ∧
    (ready [.readAnswer (.ok 0x80), .writeAnswer .ok]).addr = some 0x40 := by decide

theorem witness_SetbitReadsAndWritesBack :
    (opcField 0x12FF0007 = 0x12 ∧ opcField 0x12FF0008 = 0x12) ∧ (fresh []).lc ≠ .ready ∧
    (ready [.readAnswer (.ok 0x80), .writeAnswer .ok]).Usable 0x40 ∧
    (ready [.readAnswer .err]).Usable 0x40 ∧
    (ready [.readAnswer (.ok 0x80), .writeAnswer .err]).Usable 0x40 :=
  ⟨by decide, by decide, ⟨rfl, rfl⟩, ⟨rfl, rfl⟩, ⟨rfl, rfl⟩⟩

theorem witness_ClrbitReadsAndWritesBack :
    (opcField 0x13FF0007 = 0x13 ∧ opcField 0x13FF0008 = 0x13) ∧ (fresh []).lc ≠ .ready ∧
    (ready [.readAnswer (.ok 0x80), .writeAnswer .ok]).Usable 0x40 ∧
    (ready [.readAnswer .err]).Usable 0x40 ∧
    (ready [.readAnswer (.ok 0x80), .writeAnswer .err]).Usable 0x40 :=
  ⟨by decide, by decide, ⟨rfl, rfl⟩, ⟨rfl, rfl⟩, ⟨rfl, rfl⟩⟩

/-- Channel 15 is the last accepted, 16 the first refused. -/
theorem witness_ChwrWritesTheChannelRegister :
    (opcField 0x200F03FF = 0x20 ∧ opcField 0x20000400 = 0x20) ∧ (fresh []).lc ≠ .ready ∧
    ((ready []).lc = .ready ∧ 15 < (16 : Byte).toNat ∧ 15 < (255 : Byte).toNat) ∧
    (15 : Byte).toNat ≤ 15 ∧ (0 : Byte).toNat ≤ 15 ∧
    (ready [.writeAnswer .ok]).Usable 0x40 ∧ (ready [.writeAnswer .err]).Usable 0x40 :=
  ⟨by decide, by decide, by decide, by decide, by decide, ⟨rfl, rfl⟩, ⟨rfl, rfl⟩⟩

theorem witness_ChrdReturnsTheChannelRegister :
    (opcField 0x210F0300 = 0x21 ∧ opcField 0x21000001 = 0x21) ∧ (fresh []).lc ≠ .ready ∧
    ((ready []).lc = .ready ∧ 15 < (16 : Byte).toNat ∧ 15 < (255 : Byte).toNat) ∧
    (15 : Byte).toNat ≤ 15 ∧ (0 : Byte).toNat ≤ 15 ∧
    (ready [.readAnswer (.ok 0xC9)]).Usable 0x40 ∧ (ready [.readAnswer .err]).Usable 0x40 :=
  ⟨by decide, by decide, by decide, by decide, by decide, ⟨rfl, rfl⟩, ⟨rfl, rfl⟩⟩

/-- Positions 1 and 2999 are the first and the last accepted, 0, 3000 and 65535 are refused. -/
theorem witness_positions :
    (0 < (1 : Position).toNat ∧ (1 : Position).toNat < (ready []).params.posMaxExcl) ∧
    (0 < (2999 : Position).toNat ∧ (2999 : Position).toNat < (ready []).params.posMaxExcl) ∧
    (0 : Position).toNat = 0 ∧ (ready []).params.posMaxExcl ≤ (3000 : Position).toNat ∧
    (ready []).params.posMaxExcl ≤ (65535 : Position).toNat := by decide

theorem witness_SetposWritesLowThenHigh :
    opcField 0x03FFFFFF = 0x03 ∧ (fresh []).lc ≠ .ready ∧
    ((ready []).lc = .ready ∧ 15 < (16 : Byte).toNat) ∧ (15 : Byte).toNat ≤ 15 ∧
    (ready [.writeAnswer .ok, .writeAnswer .ok]).Usable 0x40 ∧
    (ready [.writeAnswer .ok, .writeAnswer .ok]).inputs = .writeAnswer .ok :: .writeAnswer .ok :: [] :=
  ⟨by decide, by decide, by decide, by decide, ⟨rfl, rfl⟩, rfl⟩

theorem witness_SetposWritesLowThenHigh_errors :
    (ready [.writeAnswer .err]).Usable 0x40 ∧
    (ready [.writeAnswer .err]).inputs = .writeAnswer .err :: [] ∧
    (ready [.writeAnswer .ok, .writeAnswer .err]).Usable 0x40 ∧
    (ready [.writeAnswer .ok, .writeAnswer .err]).inputs = .writeAnswer .ok :: .writeAnswer .err :: [] :=
  ⟨⟨rfl, rfl⟩, rfl, ⟨rfl, rfl⟩, rfl⟩

theorem witness_SetposTraceIsAFunctionOfItsOperands :
    (ready []).addr = (otherReady []).addr ∧ (ready []).params = (otherReady []).params ∧
    (∃ t, exec (.setpos 0 1500) (ready [.writeAnswer .ok, .writeAnswer .ok]) = .next t ∧
      t.trace = (ready []).trace ++ [.busW 0x40 0x08 0x97 .ok, .busW 0x40 0x09 0x01 .ok] ++
        [.resp .ok 0]) ∧
    (∃ t, exec (.setpos 0 1500) (otherReady [.writeAnswer .ok, .writeAnswer .ok]) = .next t ∧
      t.trace = (otherReady []).trace ++ [.busW 0x40 0x08 0x97 .ok, .busW 0x40 0x09 0x01 .ok] ++
        [.resp .ok 0]) :=
  ⟨rfl, rfl, ⟨_, rfl, by decide⟩, ⟨_, rfl, by decide⟩⟩

theorem witness_OpenBringsTheDeviceUp :
    (opcField 0x017F0000 = 0x01 ∧ opcField 0x01800000 = 0x01) ∧ (ready []).lc = .ready ∧
    (fresh (openAnswers 0x11 0x10 0x00)).lc ≠ .ready ∧
    (fresh (openAnswers 0x11 0x10 0x00)).inputs = openAnswers 0x11 0x10 0x00 ++ [] := by decide

/-- Micro-operations 0 and 11, the first and the last of OPEN's bus micro-operations. -/
theorem witness_OpenFailsAtAnyTransaction :
    ((openAnswers 0x11 0x10 0x00)[0]? = some (.writeAnswer .ok) ∧
      (openEvents (fresh []).params 0x40 0x11 0x10 0x00)[0]? = some (.busW 0x40 0xFE 0x79 .ok) ∧
      Input.writeAnswer .ok ≠ .delayDone ∧
      (fresh [.writeAnswer .err]).inputs =
        (openAnswers 0x11 0x10 0x00).take 0 ++ (Input.writeAnswer .ok).asFailed :: []) ∧
    ((openAnswers 0x11 0x10 0x00)[11]? = some (.writeAnswer .ok) ∧
      (openEvents (fresh []).params 0x40 0x11 0x10 0x00)[11]? = some (.busW 0x40 0x00 0x80 .ok) ∧
      (fresh ((openAnswers 0x11 0x10 0x00).take 11 ++ [.writeAnswer .err])).inputs =
        (openAnswers 0x11 0x10 0x00).take 11 ++ (Input.writeAnswer .ok).asFailed :: []) ∧
    (fresh []).lc ≠ .ready ∧ (block .failed (some 0x40) []).lc = .failed := by decide

theorem witness_CloseSetsTheSleepBit :
    (opcField 0x02000000 = 0x02 ∧ opcField 0x02000001 = 0x02) ∧ (fresh []).lc ≠ .ready ∧
    (ready [.readAnswer (.ok 0x10), .writeAnswer .ok]).Usable 0x40 ∧
    (ready [.readAnswer (.ok 0x10), .writeAnswer .ok]).inputs =
      .readAnswer (.ok 0x10) :: .writeAnswer .ok :: [] :=
  ⟨by decide, by decide, ⟨rfl, rfl⟩, rfl⟩

theorem witness_CloseSetsTheSleepBit_errors :
    (ready [.readAnswer .err]).Usable 0x40 ∧
    (ready [.readAnswer .err]).inputs = .readAnswer .err :: [] ∧
    (ready [.readAnswer (.ok 0xA0), .writeAnswer .err]).Usable 0x40 ∧
    (ready [.readAnswer (.ok 0xA0), .writeAnswer .err]).inputs =
      .readAnswer (.ok 0xA0) :: .writeAnswer .err :: [] :=
  ⟨⟨rfl, rfl⟩, rfl, ⟨rfl, rfl⟩, rfl⟩

/-! ### Witnesses: errors -/

/-- A refused command (OPEN when READY) and an admitted one that completes. -/
theorem witness_LifecycleGate :
    (ready []).lc = .ready ∧ (fresh []).lc = .unopened ∧
    (∃ t, exec (.wrreg 0x01 0x04) (ready [.writeAnswer .ok]) = .next t ∧
      t.trace = (ready [.writeAnswer .ok]).trace ++ [.busW 0x40 0x01 0x04 .ok, .resp .ok 0]) :=
  ⟨rfl, rfl, _, rfl, by decide⟩

theorem witness_InvalidChannelHasNoTraffic : (ready []).lc = .ready ∧ 15 < (16 : Byte).toNat := by
  decide

theorem witness_InvalidPositionHasNoTraffic :
    (ready []).lc = .ready ∧ (15 : Byte).toNat ≤ 15 ∧
    (ready []).params.posMaxExcl ≤ (3000 : Position).toNat := by decide

/-- One word for each error of `refusalOf`, and one that passes all checks. -/
theorem witness_ErrorPriority :
    (ready [.command 0x03100000]).params.wf = true ∧ (ready [.command 0x03100000]).phase = .idle ∧
    (ready [.command 0x03100000]).inputs = .command 0x03100000 :: [] ∧
    refusalOf (ready []).params .unopened 0x12000008 = some .illegalCommand ∧
    refusalOf (ready []).params .closed 0x03100000 = some .notUsable ∧
    refusalOf (ready []).params .ready 0x03100000 = some .invalidChannel ∧
    refusalOf (ready []).params .ready 0x03030000 = some .invalidPosition ∧
    refusalOf (ready []).params .ready 0x03030BB8 = some .invalidPosition ∧
    refusalOf (ready []).params .ready 0x030F0BB7 = none ∧
    (∃ t, step (ready [.command 0x030F0BB7, .writeAnswer .err]) = .next t) :=
  ⟨by decide, by decide, by decide, by decide, by decide, by decide, by decide, by decide, by decide,
    ⟨_, rfl⟩⟩

/-- A command as it is accepted, and one that goes on with its write outstanding. -/
theorem witness_TransportErrorIsPrecise :
    (∃ t, exec (.setpos 7 2000) (ready [.writeAnswer .ok, .writeAnswer .err]) = .next t ∧
      t.trace = (ready []).trace ++ [.busW 0x40 0x24 0xFD .ok, .busW 0x40 0x25 0x01 .err,
        .resp (.error .transportError) 0]) ∧
    (standing.phase = .executing ∧ standing.cmd = some 0x12000004 ∧
      decode 0x12000004 = .ok (.setbit 0x00 4) ∧
      ∃ t, step { standing with inputs := [.writeAnswer .err] } = .next t ∧
        t.trace = standing.trace ++ [.busW 0x40 0x00 0x90 .err, .resp (.error .transportError) 0]) :=
  ⟨⟨_, rfl, by decide⟩, rfl, rfl, by decide, ⟨_, rfl, by decide⟩⟩

/-! ### Witnesses: the machine -/

/-- A command that responds, one whose request stands, and one that goes on to its response. -/
theorem witness_ExactlyOneResponsePerCommand :
    (∃ t, exec (.wrreg 0x01 0x04) (ready [.writeAnswer .ok]) = .next t ∧ t.phase = .idle) ∧
    (∃ t, exec (.wrreg 0x01 0x04) (ready []) = .next t ∧ t.phase = .executing) ∧
    (standing.phase = .executing ∧
      ∃ t, step { standing with inputs := [.writeAnswer .ok] } = .next t ∧ t.phase = .idle) :=
  ⟨⟨_, rfl, by decide⟩, ⟨_, rfl, by decide⟩, rfl, ⟨_, rfl, by decide⟩⟩

/-- For AllTrafficIsAtAddr, StepOnlyExtendsTheTrace and CommandFrame: a step with a transaction. -/
theorem witness_step_with_traffic :
    (∃ t, step (ready [.command 0x10010004, .writeAnswer .ok]) = .next t) ∧
    (∃ t, exec (.wrreg 0x01 0x04) (ready [.writeAnswer .ok]) = .next t) :=
  ⟨⟨_, rfl⟩, ⟨_, rfl⟩⟩

/-- For LifecycleTransitions and AddrIsWrittenByOpenAlone: steps that change `LC` and `ADDR`. -/
theorem witness_lifecycle_changes :
    (∃ t, step (fresh (.command 0x01400000 :: openAnswers 0x11 0x10 0x00)) = .next t ∧
      t.lc = .ready ∧ t.addr = some 0x40) ∧
    (∃ t, step (ready [.reset]) = .next t ∧ t.lc = .unopened ∧ t.addr = none) ∧
    (∃ t, step (ready [.command 0x02000000, .readAnswer .err]) = .next t ∧ t.lc = .closed) :=
  ⟨⟨_, rfl, by decide, by decide⟩, ⟨_, rfl, by decide, by decide⟩, ⟨_, rfl, by decide⟩⟩

theorem witness_StepRunsTheDecodedCommand :
    (ready [.command 0x10010004]).params.wf = true ∧ (ready [.command 0x10010004]).phase = .idle ∧
    (ready [.command 0x10010004]).inputs = .command 0x10010004 :: [] ∧
    decode 0x10010004 = .ok (.wrreg 0x01 0x04) ∧
    (standing.params.wf = true ∧ standing.phase = .executing ∧ standing.cmd = some 0x12000004 ∧
      decode 0x12000004 = .ok (.setbit 0x00 4) ∧ standing.inputs = []) := by decide

theorem idle_inv : (ready [.command 0x10010004]).Inv :=
  ⟨by decide, by decide, by simp [ready, block]⟩

/-- A busy state with the invariant: SETBIT with its write outstanding. -/
theorem standing_inv : standing.Inv where
  addr_held := by decide
  idle_quiet := by decide
  busy_sound _ :=
    ⟨0x12000004, .setbit 0x00 4, by decide, by decide,
      { admitted := by decide
        valid := by decide
        addr_held := by decide
        addr_new := by decide
        outstanding := ⟨.uW 0x00 (.setInT 4), .busW 0x40 0x00 0x90, by decide, by decide, by decide⟩ }⟩

theorem witness_EveryStepKeepsTheInvariant :
    standing.Inv ∧ (∃ t, step standing = .next t) ∧ (ready [.command 0x10010004]).Inv :=
  ⟨standing_inv, ⟨_, rfl⟩, idle_inv⟩

theorem witness_NoRunReadsAnAbsentRegister : standing.Inv ∧ standing.params.wf = true :=
  ⟨standing_inv, by decide⟩

theorem witness_SmallStepsAgreeWithTheBigStep :
    { standing with inputs := [.command 0x02000000] }.phase = .executing ∧
    (∃ t, microStep { standing with inputs := [.command 0x02000000] } = .next t) :=
  ⟨rfl, ⟨_, rfl⟩⟩

theorem witness_NoStepPastAPendingRequest :
    standing.Inv ∧ standing.params.wf = true ∧ standing.pending = some (.busW 0x40 0x00 0x90) ∧
    (∀ x rest, standing.inputs = x :: rest → ¬ x.answers (.busW 0x40 0x00 0x90) ∧ x ≠ .reset) ∧
    { standing with inputs := [.reset] }.inputs = .reset :: [] :=
  ⟨standing_inv, by decide, rfl, by simp [standing, ready, block], rfl⟩

theorem witness_UnansweredCommandStands :
    (commandOf (ready []).params (.setpos 15 2999)).gate.admits (ready []).lc = true ∧
    (commandOf (ready []).params (.setpos 15 2999)).check = none ∧ (ready []).addr ≠ none ∧
    (ready []).inputs = [] ∧
    (commandOf (fresh []).params (.openDevice 0x40)).gate.admits (fresh []).lc = true ∧
    (commandOf (fresh []).params (.openDevice 0x40)).check = none ∧ (fresh []).addr = none ∧
    (fresh []).inputs = [] := by decide

theorem witness_AfterResetOnlyOpenIsAdmitted : ∀ a, Instr.closeDevice ≠ .openDevice a := by simp

theorem witness_ResetDiscardsTheCommand :
    (ready [.reset]).params.wf = true ∧ (ready [.reset]).phase = .idle ∧
    (ready [.reset]).inputs = .reset :: [] ∧ standing.pending ≠ none := by decide

theorem witness_ResetValuesAndAbsentReads :
    (fresh []).addr = none ∧ (fresh []).t = none ∧ (fresh []).cmd = none := by decide

theorem witness_ParametersAreChecked :
    { ready [] with params := collidingBits }.params.wf = false := by decide

theorem witness_ReferenceDeviceAnswers :
    (Params.default .halfEven).wf = true ∧ device.regs.wf = true ∧ (0x41 : DevAddr) ≠ device.da := by
  decide

theorem witness_ReferenceMemoryStaysCanonical :
    device.regs.wf = true ∧ Memory.wf [] = true ∧ (∀ a, Memory.read device.regs a = Memory.read device.regs a) :=
  ⟨by decide, by decide, fun _ => rfl⟩

end Sys2Proof.Tests
end

section
/-! The reset values and the reads of a register without value (`spec/10_state.md` R40). -/

namespace Sys2Proof.Machine

/-! ### Reads of an absent value: the counterparts of `readAddr_some` and `readT_some` -/

@[simp] theorem readAddr_none {s : State} (h : s.addr = none) : s.readAddr = .error .absentAddr := by
  simp [State.readAddr, h]

@[simp] theorem readT_none {s : State} (h : s.t = none) : s.readT = .error .absentT := by
  simp [State.readT, h]

/-- `CMD` is read only to go on with the current command (`State.resume`). -/
@[simp] theorem resume_cmd_none {s : State} (h : s.cmd = none) : s.resume = .fault .absentCmd := by
  simp [State.resume, h]

/-- Settles O56: the reset values are the fields of `State.reset`, and each read faults by its own rule
for the absent value. -/
theorem resetValuesAndAbsentReads : Obligations.ResetValuesAndAbsentReads := by
  unfold Obligations.ResetValuesAndAbsentReads
  refine ⟨?resetValues, fun _ => readAddr_none, fun _ => readT_none, fun _ => resume_cmd_none⟩
  case resetValues => exact ⟨rfl, rfl, rfl, rfl, rfl⟩

end Sys2Proof.Machine
end

section
/-! The reference device: what a write changes, read back at every register (`spec/20_memory.md` R71). -/

namespace Sys2Proof.Machine

/-! ### Channel and broadcast registers -/

/-- The name of the broadcast register of a kind (R32). -/
def broadcastName : Kind → RegName
  | .onLow => .allOnLow
  | .onHigh => .allOnHigh
  | .offLow => .allOffLow
  | .offHigh => .allOffHigh

/-- The highest channel register is 0x45, so no channel address is truncated to a byte. -/
theorem toNat_address_channel (p : Params) (k : Kind) (c : Fin 16) :
    (RegName.address p (.channel k c)).toNat = kindBase k + Config.chStride * c.val := by
  have hc := c.isLt
  have hsmall : kindBase k + Config.chStride * c.val < 2 ^ 8 := by
    rw [kindBase_eq, Config.chStride]
    split <;> omega
  rw [RegName.address, BitVec.toNat_ofNat, Nat.mod_eq_of_lt hsmall]

/-- A register broadcasts to a kind iff it is that kind's broadcast register: the chain of tests in
`broadcastKind` loses none of the four, because R8 makes their addresses distinct. -/
theorem broadcastKind_eq_some_iff {p : Params} (hp : p.wf = true) (reg : Byte) (k : Kind) :
    broadcastKind p reg = some k ↔ reg = (broadcastName k).address p := by
  simp only [Params.wf, Params.regsDistinct, Bool.and_eq_true, decide_eq_true_eq] at hp
  obtain ⟨⟨⟨hdistinct, -⟩, -⟩, -⟩ := hp
  simp only [Params.specialRegs, List.nodup_cons, List.mem_cons, not_or] at hdistinct
  unfold broadcastKind
  cases k <;> simp only [broadcastName, RegName.address] <;> grind

/-- The registers a broadcast reaches, kind by kind. -/
theorem exists_broadcastKind_iff {p : Params} (hp : p.wf = true) (reg x : Byte) :
    (∃ k, broadcastKind p reg = some k ∧ ∃ c : Fin 16, x = RegName.address p (.channel k c)) ↔
      ∃ c : Fin 16,
        (reg = p.regAllOnL ∧ x = RegName.address p (.channel .onLow c)) ∨
        (reg = p.regAllOnH ∧ x = RegName.address p (.channel .onHigh c)) ∨
        (reg = p.regAllOffL ∧ x = RegName.address p (.channel .offLow c)) ∨
        (reg = p.regAllOffH ∧ x = RegName.address p (.channel .offHigh c)) := by
  simp only [broadcastKind_eq_some_iff hp]
  constructor
  · rintro ⟨k, hreg, c, hx⟩
    refine ⟨c, ?_⟩
    cases k
    case onLow => exact .inl ⟨hreg, hx⟩
    case onHigh => exact .inr (.inl ⟨hreg, hx⟩)
    case offLow => exact .inr (.inr (.inl ⟨hreg, hx⟩))
    case offHigh => exact .inr (.inr (.inr ⟨hreg, hx⟩))
  · rintro ⟨c, ⟨hreg, hx⟩ | ⟨hreg, hx⟩ | ⟨hreg, hx⟩ | ⟨hreg, hx⟩⟩
    · exact ⟨.onLow, hreg, c, hx⟩
    · exact ⟨.onHigh, hreg, c, hx⟩
    · exact ⟨.offLow, hreg, c, hx⟩
    · exact ⟨.offHigh, hreg, c, hx⟩

/-! ### Reading after a write of the device -/

/-- A broadcast write changes the registers of its kind below the channel bound, and no other. -/
theorem read_broadcastWrite (k : Kind) (v : Byte) (n : Nat) {m : Memory} (h : m.Sorted) (x : Nat) :
    Memory.read (broadcastWrite k v n m) x =
      if ∃ c < n, x = kindBase k + Config.chStride * c then v else Memory.read m x := by
  induction n generalizing m with
  | zero => simp [broadcastWrite]
  | succ n ih =>
    simp only [broadcastWrite, ih (sorted_write h _ v), read_write h, Nat.exists_lt_succ_right, ite_or]

/-- What a register holds after a store. -/
theorem read_store (p : Params) {d : RefDevice} (h : d.regs.Sorted) (reg v x : Byte) :
    Memory.read (d.store p reg v).regs x.toNat =
      if x = reg ∨ ∃ k, broadcastKind p reg = some k ∧
          ∃ c : Fin 16, x = RegName.address p (.channel k c)
      then v else Memory.read d.regs x.toNat := by
  have hwrite : Memory.read (Memory.write d.regs reg.toNat v) x.toNat =
      if x = reg then v else Memory.read d.regs x.toNat := by
    simp only [read_write h, BitVec.toNat_inj]
  unfold RefDevice.store
  cases broadcastKind p reg with
  | none => simpa using hwrite
  | some k =>
    have hchannel : (∃ c < Config.nChannels, x.toNat = kindBase k + Config.chStride * c) ↔
        ∃ c : Fin 16, x = RegName.address p (.channel k c) := by
      simp only [← BitVec.toNat_inj, toNat_address_channel, Fin.exists_iff, Config.nChannels,
        exists_prop]
    simp only [read_broadcastWrite k v _ (sorted_write h _ v), hchannel, hwrite, Option.some.injEq,
      exists_eq_left', or_comm (a := x = reg), ite_or]

/-! ### The answers -/

@[simp] theorem answer_busW_same (p : Params) (d : RefDevice) (reg v : Byte) :
    d.answer p (.busW d.da reg v) = (.writeAnswer .ok, d.store p reg v) := if_pos rfl

@[simp] theorem answer_busR_same (p : Params) (d : RefDevice) (reg : Byte) :
    d.answer p (.busR d.da reg) = (.readAnswer (.ok (Memory.read d.regs reg.toNat)), d) := if_pos rfl

theorem answer_busW_of_ne (p : Params) {d : RefDevice} {a : DevAddr} (h : a ≠ d.da) (reg v : Byte) :
    d.answer p (.busW a reg v) = (.writeAnswer .err, d) := if_neg h

theorem answer_busR_of_ne (p : Params) {d : RefDevice} {a : DevAddr} (h : a ≠ d.da) (reg : Byte) :
    d.answer p (.busR a reg) = (.readAnswer .err, d) := if_neg h

/-- A store keeps the device address. -/
@[simp] theorem store_da (p : Params) (d : RefDevice) (reg v : Byte) : (d.store p reg v).da = d.da := rfl

/-- Settles O58: the answers are the branches of `RefDevice.answer`; after a write, `read_store` says what
each register holds, and R8 identifies the broadcast registers. -/
theorem referenceDeviceAnswers : Obligations.ReferenceDeviceAnswers := by
  unfold Obligations.ReferenceDeviceAnswers
  intro p d hp hd
  refine ⟨?otherAddress, answer_busR_same p d, ?write⟩
  case otherAddress =>
    exact fun a reg v ha => ⟨answer_busW_of_ne p ha reg v, answer_busR_of_ne p ha reg⟩
  case write =>
    intro reg v
    refine ⟨d.store p reg v, answer_busW_same p d reg v, store_da p d reg v, fun x => ?_⟩
    have hsorted : d.regs.Sorted := ((wf_iff d.regs).1 hd).1
    simp only [read_store p hsorted, exists_broadcastKind_iff hp]

end Sys2Proof.Machine
end

section
/-! The frames of the transport port (`spec/20_memory.md` R51, R52, R56, `spec/30_encoding.md` R88, R89). -/

namespace Sys2Proof.Machine

/-- The transport owes one byte for one byte asked: more or fewer is its error (R56, D20). -/
theorem readAnswerOfBytes_of_length_ne_one {bs : List Byte} (h : bs.length ≠ 1) :
    readAnswerOfBytes bs = .err := by
  match bs, h with
  | [], _ => rfl
  | [_], h => exact absurd rfl h
  | _ :: _ :: _, _ => rfl

/-- Settles O18: the device address of both calls is the zero extension of `a`; the rest are the branches
of `Request.call` and `readAnswerOfBytes`. -/
theorem transportCallFrames : Obligations.TransportCallFrames := by
  unfold Obligations.TransportCallFrames
  refine ⟨?busCalls, fun _ => rfl, fun _ => rfl, fun _ => readAnswerOfBytes_of_length_ne_one⟩
  case busCalls =>
    intro a reg v
    have hzeroExtended : (a.setWidth 8).toNat = a.toNat := BitVec.toNat_setWidth_of_le (by decide)
    exact ⟨a.setWidth 8, hzeroExtended, rfl, rfl⟩

end Sys2Proof.Machine
end

section
/-! The match/mask table against the decoder (`spec/30_encoding.md` R87): under the opcode of a row, the
decoder's test of the reserved bits is the row's test of the whole word. -/

namespace Sys2Proof

/-! ### Words and masks, field by field -/

theorem eq_iff_fields (w w' : CommandWord) :
    w = w' ↔ opcField w = opcField w' ∧ aField w = aField w' ∧ bField w = bField w' := by
  constructor
  · rintro rfl
    exact ⟨rfl, rfl, rfl⟩
  · rintro ⟨hopc, ha, hb⟩
    rw [← wordOfFields_fields w, hopc, ha, hb, wordOfFields_fields]

@[simp] theorem opcField_and (w m : CommandWord) : opcField (w &&& m) = opcField w &&& opcField m :=
  BitVec.extractLsb'_and

@[simp] theorem aField_and (w m : CommandWord) : aField (w &&& m) = aField w &&& aField m :=
  BitVec.extractLsb'_and

@[simp] theorem bField_and (w m : CommandWord) : bField (w &&& m) = bField w &&& bField m :=
  BitVec.extractLsb'_and

/-! ### Reserved ranges -/

/-- The mask of the `len` bits from bit `start` on. -/
def bitRange (n start len : Nat) : BitVec n := (BitVec.allOnes len).setWidth n <<< start

theorem getLsbD_bitRange (n start len i : Nat) :
    (bitRange n start len).getLsbD i = decide (i < n ∧ start ≤ i ∧ i < start + len) := by
  simp only [bitRange, BitVec.getLsbD_shiftLeft, BitVec.getLsbD_setWidth, BitVec.getLsbD_allOnes]
  grind

/-- A range is tested for zero by its mask as by extraction. -/
theorem and_bitRange_eq_zero_iff {n : Nat} (x : BitVec n) (start len : Nat) :
    x &&& bitRange n start len = 0#n ↔ x.extractLsb' start len = 0#len := by
  simp only [BitVec.eq_of_getLsbD_eq_iff, BitVec.getLsbD_and, getLsbD_bitRange,
    BitVec.getLsbD_extractLsb', BitVec.getLsbD_zero]
  constructor
  · intro h i hi
    have hmasked := h (start + i)
    have houtside := BitVec.getLsbD_of_ge x (start + i)
    grind
  · intro h i hi
    have hextracted := h (i - start)
    grind

/-! ### The table of R87 -/

/-- The match/mask table field by field: a row fixes `OPC`, and 0 in the bits its format reserves (R82). -/
theorem opcodeRows_eq_fields : opcodeRows =
    [ ⟨"OPEN", wordOfFields 0x01 0 0, wordOfFields 0xFF (bitRange 8 7 1) (bitRange 16 0 16)⟩,
      ⟨"CLOSE", wordOfFields 0x02 0 0, wordOfFields 0xFF (bitRange 8 0 8) (bitRange 16 0 16)⟩,
      ⟨"SETPOS", wordOfFields 0x03 0 0, wordOfFields 0xFF 0 0⟩,
      ⟨"WRREG", wordOfFields 0x10 0 0, wordOfFields 0xFF 0 (bitRange 16 8 8)⟩,
      ⟨"RDREG", wordOfFields 0x11 0 0, wordOfFields 0xFF 0 (bitRange 16 0 16)⟩,
      ⟨"SETBIT", wordOfFields 0x12 0 0, wordOfFields 0xFF 0 (bitRange 16 3 13)⟩,
      ⟨"CLRBIT", wordOfFields 0x13 0 0, wordOfFields 0xFF 0 (bitRange 16 3 13)⟩,
      ⟨"CHWR", wordOfFields 0x20 0 0, wordOfFields 0xFF 0 (bitRange 16 10 6)⟩,
      ⟨"CHRD", wordOfFields 0x21 0 0,
        wordOfFields 0xFF 0 (bitRange 16 10 6 ||| bitRange 16 0 8)⟩ ] := by
  decide

/-- A row is known by its mnemonic. -/
theorem row_eq_of_mnemonic_eq : ∀ r ∈ opcodeRows, ∀ r' ∈ opcodeRows,
    r.mnemonic = r'.mnemonic → r = r' := by
  decide

/-- A row tests `OPC` for its opcode, and the two other fields for zero under its mask. -/
theorem admits_iff_fields {r : OpcodeRow} (hr : r ∈ opcodeRows) (w : CommandWord) :
    r.admits w = true ↔ opcField w = opcField r.matchBits ∧
      aField w &&& aField r.maskBits = 0 ∧ bField w &&& bField r.maskBits = 0 := by
  have hfixed : ∀ r ∈ opcodeRows, opcField r.maskBits = BitVec.allOnes 8 ∧
      aField r.matchBits = 0 ∧ bField r.matchBits = 0 := by decide
  obtain ⟨hopc, ha, hb⟩ := hfixed r hr
  rw [OpcodeRow.admits, beq_iff_eq, eq_iff_fields, opcField_and, aField_and, bField_and, hopc, ha, hb,
    BitVec.and_allOnes]

/-- Every command has a row: of its mnemonic, and fixing its opcode. -/
theorem exists_row (i : Instr) :
    ∃ r ∈ opcodeRows, r.mnemonic = i.mnemonic ∧ opcField r.matchBits = i.opcode := by
  cases i <;> simp [opcodeRows_eq_fields, Instr.mnemonic, Instr.opcode]

/-- The row of a command fixes the command's opcode. -/
theorem opcField_matchBits {r : OpcodeRow} (hr : r ∈ opcodeRows) {i : Instr}
    (h : i.mnemonic = r.mnemonic) : opcField r.matchBits = i.opcode := by
  obtain ⟨r', hr', hname, hopc⟩ := exists_row i
  rwa [row_eq_of_mnemonic_eq r hr r' hr' (h.symm.trans hname.symm)]

/-! ### The decoder -/

theorem checkedFormat_eq_ok_iff {opc : Byte} {reservedZero : Bool} {i j : Instr} :
    checkedFormat opc reservedZero i = .ok j ↔ reservedZero = true ∧ i = j := by
  cases reservedZero <;> simp [checkedFormat]

/-- `OPC` alone selects the command (R83). -/
theorem opcode_of_decode {w : CommandWord} {i : Instr} (h : decode w = .ok i) :
    i.opcode = opcField w := by
  simp only [decode] at h
  split_ifs at h
  all_goals
    obtain ⟨-, rfl⟩ := checkedFormat_eq_ok_iff.1 h
    exact Eq.symm ‹_›

/-- Under the opcode of a row, the decoder's test of the reserved bits is the row's. -/
theorem admits_iff_decode_of_opcField {r : OpcodeRow} (hr : r ∈ opcodeRows) {w : CommandWord}
    (h : opcField w = opcField r.matchBits) :
    r.admits w = true ↔ ∃ i, decode w = .ok i ∧ i.mnemonic = r.mnemonic := by
  rw [admits_iff_fields hr, and_iff_right h]
  simp only [opcodeRows_eq_fields, List.mem_cons, List.not_mem_nil, or_false] at hr
  rcases hr with rfl | rfl | rfl | rfl | rfl | rfl | rfl | rfl | rfl
  all_goals
    simp only [opcField_wordOfFields] at h
    simp [decode, h, checkedFormat_eq_ok_iff, Instr.mnemonic, and_bitRange_eq_zero_iff,
      BitVec.and_or_distrib_left]

/-- A row admits the words that decode to its command, and no other. -/
theorem admits_iff_decode {r : OpcodeRow} (hr : r ∈ opcodeRows) (w : CommandWord) :
    r.admits w = true ↔ ∃ i, decode w = .ok i ∧ i.mnemonic = r.mnemonic := by
  constructor
  · intro h
    exact (admits_iff_decode_of_opcField hr ((admits_iff_fields hr w).1 h).1).1 h
  · rintro ⟨i, hdecode, hname⟩
    have hopc : opcField w = opcField r.matchBits := by
      rw [opcField_matchBits hr hname, opcode_of_decode hdecode]
    exact (admits_iff_decode_of_opcField hr hopc).2 ⟨i, hdecode, hname⟩

theorem exists_decode_iff_legalWord (w : CommandWord) :
    (∃ i, decode w = .ok i) ↔ legalWord w = true := by
  simp only [legalWord, List.any_eq_true]
  constructor
  · rintro ⟨i, hdecode⟩
    obtain ⟨r, hr, hname, -⟩ := exists_row i
    exact ⟨r, hr, (admits_iff_decode hr w).2 ⟨i, hdecode, hname.symm⟩⟩
  · rintro ⟨r, hr, hadmits⟩
    obtain ⟨i, hdecode, -⟩ := (admits_iff_decode hr w).1 hadmits
    exact ⟨i, hdecode⟩

/-- No word satisfies two rows. -/
theorem row_eq_of_admits {r r' : OpcodeRow} (hr : r ∈ opcodeRows) (hr' : r' ∈ opcodeRows)
    {w : CommandWord} (h : r.admits w = true) (h' : r'.admits w = true) : r = r' := by
  obtain ⟨i, hdecode, hname⟩ := (admits_iff_decode hr w).1 h
  obtain ⟨i', hdecode', hname'⟩ := (admits_iff_decode hr' w).1 h'
  obtain rfl : i = i' := Except.ok.inj (hdecode.symm.trans hdecode')
  exact row_eq_of_mnemonic_eq r hr r' hr' (hname.symm.trans hname')

end Sys2Proof

namespace Sys2Proof.Machine

/-! ### An illegal word on the command port -/

/-- An idle block takes the command word at the head of its inputs (R80). -/
theorem activity_command {s : State} {w : CommandWord} {rest : List Input} (hidle : s.phase = .idle)
    (hinputs : s.inputs = .command w :: rest) :
    s.activity = .command w { s with inputs := rest } := by
  simp [State.activity, hidle, hinputs]

/-- What the block does with a word that does not decode (R205). -/
theorem step_illegal {s : State} {w : CommandWord} {rest : List Input} {e : IllegalWord}
    (hparams : s.params.wf = true) (hidle : s.phase = .idle) (hinputs : s.inputs = .command w :: rest)
    (hdecode : decode w = .error e) :
    step s = .next { s.finished 0 rest [.cmd w, .resp (.error .illegalCommand) 0] with
      cmd := some w } := by
  have hstep : step s = .next ({ s with inputs := rest }.latch w).rejectWord := by
    simp [step, hparams, activity_command hidle hinputs, hdecode]
  simp [hstep, State.rejectWord, accept_raise, State.finished, State.latch]

/-- Settles O3: a row admits exactly the words of its command (`admits_iff_decode`), and a word that no
row admits does not decode, so the block refuses it before the lifecycle test. -/
theorem illegalWordsAreTheRowlessOnes : Obligations.IllegalWordsAreTheRowlessOnes := by
  unfold Obligations.IllegalWordsAreTheRowlessOnes
  refine ⟨exists_decode_iff_legalWord, ?itsRow, fun w r r' hr hr' => row_eq_of_admits hr hr', ?illegal⟩
  case itsRow =>
    intro w i r hdecode hr
    simp only [admits_iff_decode hr, hdecode, Except.ok.injEq, exists_eq_left', eq_comm]
  case illegal =>
    intro s w rest hparams hidle hinputs hillegal
    cases hdecode : decode w with
    | ok i => simp [(exists_decode_iff_legalWord w).1 ⟨i, hdecode⟩] at hillegal
    | error e => exact step_illegal hparams hidle hinputs hdecode

end Sys2Proof.Machine
end

section
/-! The laws of the bit utilities (`spec/40_bit_utilities.md` R113, R115): two values are equal when `test_bit`
reads the same everywhere, so what `set_bit` and `clear_bit` do to each bit gives their laws; the bytes of a
value reassemble one at a time. -/

namespace Sys2Proof.Machine

/-! ### Reading bits -/

theorem testBit_xor (v w i : Nat) : testBit (v ^^^ w) i = (testBit v i ^^ testBit w i) := by
  simp only [testBit_eq, Nat.testBit_xor]

theorem testBit_one_shiftLeft (o i : Nat) : testBit (1 <<< o) i = decide (o = i) := by
  simp only [testBit_eq, Nat.one_shiftLeft, Nat.testBit_two_pow]

/-- A value is known by what `test_bit` reads of it. -/
theorem eq_of_testBit_eq {v w : Nat} (h : ∀ i, testBit v i = testBit w i) : v = w :=
  Nat.eq_of_testBit_eq fun i => by simpa only [testBit_eq] using h i

theorem testBit_setBit_same (v o : Nat) : testBit (setBit v o) o = true := by
  simp [testBit_setBit]

theorem testBit_clearBit_same (v o : Nat) : testBit (clearBit v o) o = false := by
  simp [testBit_clearBit]

theorem testBit_setBit_of_ne (v : Nat) {o i : Nat} (h : i ≠ o) :
    testBit (setBit v o) i = testBit v i := by
  simp [testBit_setBit, h.symm]

theorem testBit_clearBit_of_ne (v : Nat) {o i : Nat} (h : i ≠ o) :
    testBit (clearBit v o) i = testBit v i := by
  simp [testBit_clearBit, h.symm]

/-! ### The difference -/

/-- Values that agree outside one bit differ by that bit or not at all. -/
theorem xor_eq_zero_or_eq_bit {v w o : Nat} (h : ∀ i, i ≠ o → testBit w i = testBit v i) :
    w ^^^ v = 0 ∨ w ^^^ v = 1 <<< o := by
  by_cases ho : testBit w o = testBit v o
  · left
    have heq : w = v := eq_of_testBit_eq fun i => by
      by_cases hi : i = o
      · rwa [hi]
      · exact h i hi
    rw [heq, Nat.xor_self]
  · right
    refine eq_of_testBit_eq fun i => ?_
    rw [testBit_xor, testBit_one_shiftLeft]
    by_cases hi : i = o
    · subst hi
      simpa using ho
    · simp [h i hi, Ne.symm hi]

theorem setBit_xor_self (v o : Nat) : setBit v o ^^^ v = 0 ∨ setBit v o ^^^ v = 1 <<< o :=
  xor_eq_zero_or_eq_bit fun _ => testBit_setBit_of_ne v

theorem clearBit_xor_self (v o : Nat) : clearBit v o ^^^ v = 0 ∨ clearBit v o ^^^ v = 1 <<< o :=
  xor_eq_zero_or_eq_bit fun _ => testBit_clearBit_of_ne v

/-! ### One offset: the later operation decides -/

theorem setBit_setBit_same (v o : Nat) : setBit (setBit v o) o = setBit v o :=
  eq_of_testBit_eq fun i => by simp only [testBit_setBit, Bool.or_self_left]

theorem clearBit_clearBit_same (v o : Nat) : clearBit (clearBit v o) o = clearBit v o :=
  eq_of_testBit_eq fun i => by simp only [testBit_clearBit, Bool.and_self_left]

theorem clearBit_setBit_same (v o : Nat) : clearBit (setBit v o) o = clearBit v o :=
  eq_of_testBit_eq fun i => by
    simp only [testBit_clearBit, testBit_setBit, Bool.and_or_distrib_left, Bool.not_and_self,
      Bool.false_or]

theorem setBit_clearBit_same (v o : Nat) : setBit (clearBit v o) o = setBit v o :=
  eq_of_testBit_eq fun i => by
    simp only [testBit_setBit, testBit_clearBit, Bool.or_and_distrib_left, Bool.or_not_self,
      Bool.true_and]

/-! ### Different offsets: the operations commute -/

/-- Two settings commute at any offsets. -/
theorem setBit_comm (v o o' : Nat) : setBit (setBit v o) o' = setBit (setBit v o') o :=
  eq_of_testBit_eq fun i => by simp only [testBit_setBit, Bool.or_left_comm]

/-- Two clearings commute at any offsets. -/
theorem clearBit_comm (v o o' : Nat) : clearBit (clearBit v o) o' = clearBit (clearBit v o') o :=
  eq_of_testBit_eq fun i => by simp only [testBit_clearBit, Bool.and_left_comm]

/-- Setting and clearing commute at different offsets only: at one offset the later decides. -/
theorem setBit_clearBit_of_ne (v : Nat) {o o' : Nat} (h : o' ≠ o) :
    setBit (clearBit v o) o' = clearBit (setBit v o') o := by
  refine eq_of_testBit_eq fun i => ?_
  by_cases hi : i = o
  · subst hi
    rw [testBit_clearBit_same, testBit_setBit_of_ne _ h.symm, testBit_clearBit_same]
  · rw [testBit_clearBit_of_ne _ hi, testBit_setBit, testBit_setBit, testBit_clearBit_of_ne _ hi]

/-- Settles O6: each law is read off the bits (`testBit_setBit`, `testBit_clearBit`). -/
theorem bitUtilityLaws : Obligations.BitUtilityLaws := by
  unfold Obligations.BitUtilityLaws
  refine ⟨?target, ?others, ?difference, ?idempotent, ?absorb, ?commute⟩
  case target => exact fun v o => ⟨testBit_setBit_same v o, testBit_clearBit_same v o⟩
  case others => exact fun v _ _ h => ⟨testBit_setBit_of_ne v h, testBit_clearBit_of_ne v h⟩
  case difference => exact fun v o => ⟨setBit_xor_self v o, clearBit_xor_self v o⟩
  case idempotent => exact fun v o => ⟨setBit_setBit_same v o, clearBit_clearBit_same v o⟩
  case absorb => exact fun v o => ⟨clearBit_setBit_same v o, setBit_clearBit_same v o⟩
  case commute =>
    exact fun v o o' h => ⟨setBit_comm v o o', clearBit_comm v o o', setBit_clearBit_of_ne v h⟩

/-! ### The bytes of a value -/

/-- `get_byte` is a digit of the value in base 256. -/
theorem getByte_eq (v n : Nat) : getByte v n = v / 2 ^ (8 * n) % 256 := by
  rw [getByte, Nat.shiftRight_eq_div_pow]
  exact Nat.and_two_pow_sub_one_eq_mod _ 8

theorem getByte_le (v n : Nat) : getByte v n ≤ 255 := by
  rw [getByte_eq]
  omega

theorem getByte_of_lt {v n : Nat} (h : v < 2 ^ (8 * n)) : getByte v n = 0 := by
  rw [getByte_eq, Nat.div_eq_of_lt h]

/-- One step of reassembly: byte `n` put above the bytes below it. -/
theorem mod_or_getByte_shiftLeft (v n : Nat) :
    v % 2 ^ (8 * n) ||| getByte v n <<< (8 * n) = v % 2 ^ (8 * (n + 1)) := by
  have hlow : v % 2 ^ (8 * n) < 2 ^ (8 * n) := Nat.mod_lt _ (Nat.two_pow_pos _)
  calc v % 2 ^ (8 * n) ||| getByte v n <<< (8 * n)
      = getByte v n <<< (8 * n) + v % 2 ^ (8 * n) := by
        rw [Nat.or_comm, Nat.shiftLeft_add_eq_or_of_lt hlow]
    _ = v % 2 ^ (8 * n) + 2 ^ (8 * n) * (v / 2 ^ (8 * n) % 256) := by
        rw [getByte_eq, Nat.shiftLeft_eq, Nat.mul_comm (_ % 256), Nat.add_comm]
    _ = v % 2 ^ (8 * (n + 1)) := by rw [← Nat.mod_mul, Nat.mul_succ 8, Nat.pow_add]

/-- The four low bytes give the low 32 bits. -/
theorem four_bytes_reassemble (v : Nat) :
    getByte v 0 ||| getByte v 1 <<< 8 ||| getByte v 2 <<< 16 ||| getByte v 3 <<< 24 = v % 2 ^ 32 := by
  have h0 : getByte v 0 = v % 2 ^ 8 := by simp [getByte_eq]
  have h1 : v % 2 ^ 8 ||| getByte v 1 <<< 8 = v % 2 ^ 16 := mod_or_getByte_shiftLeft v 1
  have h2 : v % 2 ^ 16 ||| getByte v 2 <<< 16 = v % 2 ^ 24 := mod_or_getByte_shiftLeft v 2
  have h3 : v % 2 ^ 24 ||| getByte v 3 <<< 24 = v % 2 ^ 32 := mod_or_getByte_shiftLeft v 3
  rw [h0, h1, h2, h3]

/-- Settles O8: `get_byte` is a base-256 digit, and a value below 2^32 is its low 32 bits. -/
theorem getByteReassembles : Obligations.GetByteReassembles := by
  unfold Obligations.GetByteReassembles
  refine ⟨fun v n => ⟨getByte_le v n, getByte_eq v n⟩, fun _ _ => getByte_of_lt, ?roundTrip⟩
  case roundTrip =>
    intro v hv
    rw [four_bytes_reassemble, Nat.mod_eq_of_lt hv]

end Sys2Proof.Machine
end

section
/-! The small-step machine against the big step (`spec/41_register_access.md` R133): performing the
micro-operation at `UPC` leaves the rest of the micro-program to perform, so the small steps of a command in
progress are its run. -/

namespace Sys2Proof.Machine

/-! ### The micro-programs of the commands with a channel operand -/

theorem program_setpos (p : Params) {c : Byte} (h : c.toNat ≤ 15) (pos : Position) :
    (commandOf p (.setpos c pos)).program =
      [.uW (BitVec.ofNat 8 (0x08 + 4 * c.toNat)) (.lit (byteOf (scale p.roundTie pos.toNat) 0)),
       .uW (BitVec.ofNat 8 (0x09 + 4 * c.toNat)) (.lit (byteOf (scale p.roundTie pos.toNat) 1))] := by
  simp [commandOf, setposCommand, setposProgram, channelRegister_operand h, kindBase_eq, pack]

theorem program_setpos_invalid (p : Params) {c : Byte} (h : 15 < c.toNat) (pos : Position) :
    (commandOf p (.setpos c pos)).program = [] := by
  simp [commandOf, setposCommand, setposProgram, channelRegister_operand_invalid h]

theorem program_chwr (p : Params) {k : Kind} {c r : Byte}
    (h : channelRegister k (channelOperand c) = .ok r) (v : Byte) :
    (commandOf p (.chwr k c v)).program = [.uW r (.lit v)] := by
  simp [commandOf, chwrCommand, h]

theorem program_chwr_invalid (p : Params) {c : Byte} (h : 15 < c.toNat) (k : Kind) (v : Byte) :
    (commandOf p (.chwr k c v)).program = [] := by
  simp [commandOf, chwrCommand, channelRegister_operand_invalid h]

theorem program_chrd (p : Params) {k : Kind} {c r : Byte}
    (h : channelRegister k (channelOperand c) = .ok r) :
    (commandOf p (.chrd k c)).program = [.uR r] := by
  simp [commandOf, chrdCommand, h]

theorem program_chrd_invalid (p : Params) {c : Byte} (h : 15 < c.toNat) (k : Kind) :
    (commandOf p (.chrd k c)).program = [] := by
  simp [commandOf, chrdCommand, channelRegister_operand_invalid h]

/-- The longest micro-program is that of OPEN, so `UPC`, of 4 bits, never wraps within one. -/
theorem program_length_le (p : Params) (i : Instr) : (commandOf p i).program.length ≤ 13 := by
  cases i with
  | openDevice a => exact Nat.le_refl 13
  | closeDevice => exact Nat.le_add_left 2 11
  | wrreg r v => exact Nat.le_add_left 1 12
  | rdreg r => exact Nat.le_add_left 1 12
  | setbit r b => exact Nat.le_add_left 2 11
  | clrbit r b => exact Nat.le_add_left 2 11
  | setpos c pos =>
    rcases channelOperand_cases c with h | h
    · simp [program_setpos p h]
    · simp [program_setpos_invalid p h]
  | chwr k c v =>
    rcases channelOperand_cases c with h | h
    · simp [program_chwr p (channelRegister_operand h k)]
    · simp [program_chwr_invalid p h]
  | chrd k c =>
    rcases channelOperand_cases c with h | h
    · simp [program_chrd p (channelRegister_operand h k)]
    · simp [program_chrd_invalid p h]

/-! ### A command in progress on the small-step machine -/

@[simp] theorem microRun_one (s : State) : microRun 1 s = microStep s := by
  unfold microRun
  cases microStep s <;> rfl

theorem microRun_succ {s t : State} (h : microStep s = .next t) (n : Nat) :
    microRun (n + 1) s = microRun n t := by
  simp [microRun, h]

/-- A busy block with nothing outstanding goes on, whatever the environment's next move is (log 6). -/
theorem activity_of_quiet {s : State} (hbusy : s.phase = .executing) (hquiet : s.pending = none) :
    s.activity = .goOn := by
  simp [State.activity, hbusy, hquiet]

/-- A busy block is not idle for a command word (R80, R240). -/
theorem activity_busy_command {s : State} {w : CommandWord} {rest : List Input}
    (hbusy : s.phase = .executing) (hinputs : s.inputs = .command w :: rest) :
    s.activity = .goOn := by
  simp [State.activity, hbusy, hinputs]

/-- A block takes a command word only when idle, from the head of its inputs (R80). -/
theorem eq_of_activity_command {s s' : State} {w : CommandWord} (h : s.activity = .command w s') :
    ∃ rest, s' = { s with inputs := rest } := by
  unfold State.activity at h
  split at h
  · split at h <;> cases h
    exact ⟨_, rfl⟩
  · split at h <;> cases h

/-- Only a busy block goes on. -/
theorem phase_of_goOn {s : State} (h : s.activity = .goOn) : s.phase = .executing := by
  unfold State.activity at h
  cases hphase : s.phase with
  | executing => rfl
  | idle =>
    rw [hphase] at h
    dsimp only at h
    split at h <;> cases h

/-- The next small step of `s` performs a micro-operation of the command `i`, or its response. -/
structure State.Executes (s : State) (i : Instr) : Prop where
  params_wf : s.params.wf = true
  goesOn : s.activity = .goOn
  word : ∃ w, s.cmd = some w ∧ decode w = .ok i

theorem State.Executes.microStep_eq {s : State} {i : Instr} (h : s.Executes i) :
    microStep s = (commandOf s.params i).microStep s := by
  obtain ⟨w, hcmd, hdecode⟩ := h.word
  simp [microStep, h.params_wf, h.goesOn, hcmd, hdecode]

theorem State.Executes.step_eq {s : State} {i : Instr} (h : s.Executes i) :
    step s = (commandOf s.params i).resume s := by
  obtain ⟨w, hcmd, hdecode⟩ := h.word
  simp [step, h.params_wf, h.goesOn, State.resume, hcmd, hdecode]

/-- A completed micro-operation leaves the command in progress. -/
theorem State.Executes.advanced {s s' : State} {i : Instr} {m : MicroOp} (h : s.Executes i)
    (hm : m.perform s = .advanced s') : s'.Executes i := by
  obtain ⟨-, -, -, hkept, -, hphase, hquiet, -, -⟩ := perform_advanced hm
  refine ⟨?_, activity_of_quiet (hphase.trans (phase_of_goOn h.goesOn)) hquiet, ?_⟩
  · rw [hkept.params]; exact h.params_wf
  · rw [hkept.cmd]; exact h.word

/-- After a completed micro-operation, `UPC` stands at the next one. -/
theorem rest_advanced {c : Command} {s s' : State} {m : MicroOp} {ms : List MicroOp}
    (hlength : c.program.length ≤ 15) (hrest : c.rest s = m :: ms)
    (hm : m.perform s = .advanced s') : c.rest s' = ms := by
  obtain ⟨-, -, -, -, -, -, -, hupc, -⟩ := perform_advanced hm
  have hlt : s.upc.toNat < c.program.length := by
    have hleft := congrArg List.length hrest
    simp only [Command.rest, List.length_drop, List.length_cons] at hleft
    omega
  have hnext : s'.upc.toNat = s.upc.toNat + 1 := by
    rw [hupc, BitVec.toNat_add]
    exact Nat.mod_eq_of_lt (by simp; omega)
  rw [Command.rest, hnext, ← List.tail_drop, ← Command.rest, hrest, List.tail_cons]

theorem microStep_at_end {c : Command} {s : State} (h : c.rest s = []) :
    c.microStep s = c.complete s := by
  simp [Command.microStep, h]

/-- A micro-operation that does not complete ends the run as it ends the small step. -/
theorem microStep_eq_run {c : Command} {s : State} {m : MicroOp} {ms : List MicroOp}
    (hrest : c.rest s = m :: ms) (h : ∀ s', m.perform s ≠ .advanced s') :
    c.microStep s = c.run (m :: ms) s := by
  cases hm : m.perform s with
  | advanced s' => exact absurd hm (h s')
  | failed s' => simp [Command.microStep, hrest, hm, run_failed hm]
  | waiting s' => simp [Command.microStep, hrest, hm, run_waiting hm]
  | stopped f => simp [Command.microStep, hrest, hm, run_stopped hm]

theorem microStep_advanced {c : Command} {s s' : State} {m : MicroOp} {ms : List MicroOp}
    (hrest : c.rest s = m :: ms) (hm : m.perform s = .advanced s') :
    c.microStep s = .next s' := by
  simp [Command.microStep, hrest, hm]

/-- One small step for each micro-operation still to perform and one for the response reach what the run of
the rest of the micro-program reaches; a run that ends before its response takes fewer. -/
theorem microRun_eq_run {s : State} {i : Instr} {ms : List MicroOp} (h : s.Executes i)
    (hrest : (commandOf s.params i).rest s = ms) :
    ∃ n, 1 ≤ n ∧ n ≤ ms.length + 1 ∧ microRun n s = (commandOf s.params i).run ms s := by
  induction ms generalizing s with
  | nil =>
    exact ⟨1, le_rfl, le_rfl, by rw [microRun_one, h.microStep_eq, microStep_at_end hrest, run_nil]⟩
  | cons m ms ih =>
    by_cases hadvance : ∃ s', m.perform s = .advanced s'
    · obtain ⟨s', hm⟩ := hadvance
      obtain ⟨-, -, -, hkept, -⟩ := perform_advanced hm
      have hrest' : (commandOf s'.params i).rest s' = ms := by
        rw [hkept.params]
        exact rest_advanced ((program_length_le s.params i).trans (by decide)) hrest hm
      obtain ⟨n, -, hle, hrun⟩ := ih (h.advanced hm) hrest'
      refine ⟨n + 1, Nat.le_add_left 1 n, Nat.succ_le_succ hle, ?_⟩
      rw [microRun_succ (h.microStep_eq.trans (microStep_advanced hrest hm)), hrun, hkept.params,
        run_advanced hm]
    · refine ⟨1, le_rfl, Nat.le_add_left 1 _, ?_⟩
      rw [microRun_one, h.microStep_eq, microStep_eq_run hrest (not_exists.1 hadvance)]

/-- The small steps of a command in progress, from the micro-operation at `UPC` on. -/
theorem microRun_eq_resume {s : State} {i : Instr} (h : s.Executes i) :
    ∃ n, 1 ≤ n ∧ n ≤ 14 ∧ microRun n s = (commandOf s.params i).resume s := by
  obtain ⟨n, hpos, hle, hrun⟩ := microRun_eq_run h rfl
  have hlength := program_length_le s.params i
  have hdrop : ((commandOf s.params i).rest s).length ≤ (commandOf s.params i).program.length := by
    simp [Command.rest]
  exact ⟨n, hpos, by omega, hrun⟩

/-! ### One big step -/

/-- Acceptance and the small steps after it reach what executing the command reaches: after a refusal there
are none, and an admitted command is then in progress at `UPC` 0. -/
theorem microRun_begin {s : State} {w : CommandWord} {i : Instr} (hparams : s.params.wf = true)
    (hcmd : s.cmd = some w) (hdecode : decode w = .ok i) :
    ∃ n, n ≤ 14 ∧ microRun n ((commandOf s.params i).begin? s) = exec i s := by
  rw [exec_eq_execute]
  cases hadmission : (commandOf s.params i).admission s.accept with
  | error e => exact ⟨0, Nat.zero_le _, by simp [microRun, Command.begin?, Command.execute, hadmission]⟩
  | ok start =>
    obtain ⟨-, h⟩ | ⟨e, -, -, h⟩ | ⟨-, -, h⟩ := admit_cases (commandOf s.params i) s.accept
    all_goals
      rw [hadmission] at h
      cases h
    have hexecutes : ((commandOf s.params i).enter s.accept).Executes i :=
      ⟨by simpa using hparams, activity_of_quiet (by simp) (by simp), w, by simpa using hcmd, hdecode⟩
    obtain ⟨n, -, hle, hrun⟩ := microRun_eq_resume hexecutes
    refine ⟨n, hle, ?_⟩
    simpa [Command.begin?, Command.execute, hadmission, Command.resume, Command.rest] using hrun

theorem microRun_eq_step (s : State) : ∃ n, 1 ≤ n ∧ n ≤ 15 ∧ microRun n s = step s := by
  have one : microStep s = step s → ∃ n, 1 ≤ n ∧ n ≤ 15 ∧ microRun n s = step s := fun h =>
    ⟨1, le_rfl, by omega, (microRun_one s).trans h⟩
  cases hparams : s.params.wf with
  | false => exact one (by simp [microStep, step, hparams])
  | true =>
    cases hactivity : s.activity with
    | reset s' => exact one (by simp [microStep, step, hparams, hactivity])
    | wait => exact one (by simp [microStep, step, hparams, hactivity])
    | command w s' =>
      cases hdecode : decode w with
      | error e => exact one (by simp [microStep, step, hparams, hactivity, hdecode])
      | ok i =>
        obtain ⟨rest, rfl⟩ := eq_of_activity_command hactivity
        have hbegin : microStep s =
            .next ((commandOf s.params i).begin? ({ s with inputs := rest }.latch w)) := by
          simp [microStep, hparams, hactivity, hdecode]
        have hstep : step s = exec i ({ s with inputs := rest }.latch w) := by
          simp [step, hparams, hactivity, hdecode]
        obtain ⟨n, hle, hrun⟩ :=
          microRun_begin (s := { s with inputs := rest }.latch w) hparams rfl hdecode
        exact ⟨n + 1, by omega, by omega, (microRun_succ hbegin n).trans (hrun.trans hstep.symm)⟩
    | goOn =>
      cases hcmd : s.cmd with
      | none => exact one (by simp [microStep, step, State.resume, hparams, hactivity, hcmd])
      | some w =>
        cases hdecode : decode w with
        | error e => exact one (by simp [microStep, step, State.resume, hparams, hactivity, hcmd, hdecode])
        | ok i =>
          have hexecutes : s.Executes i := ⟨hparams, hactivity, w, hcmd, hdecode⟩
          obtain ⟨n, hpos, hle, hrun⟩ := microRun_eq_resume hexecutes
          exact ⟨n, hpos, by omega, hrun.trans hexecutes.step_eq.symm⟩

/-! ### A busy block takes no command word -/

theorem complete_keeps_inputs {c : Command} {s t : State} (h : c.complete s = .next t) :
    t.inputs = s.inputs := by
  obtain ⟨b, hb⟩ | ⟨-, -, hf⟩ := complete_cases c s
  · rw [hb] at h; cases h; rfl
  · rw [hf] at h; cases h

/-- A command word is no answer: the micro-operation waits, or stops at an absent register. -/
theorem perform_of_command {s : State} {w : CommandWord} {rest : List Input}
    (hinputs : s.inputs = .command w :: rest) (m : MicroOp) :
    (∃ r, m.perform s = .waiting (s.issue r)) ∨ ∃ f, m.perform s = .stopped f := by
  cases hrequest : m.request s with
  | error f => exact .inr ⟨f, perform_of_absent hrequest⟩
  | ok r =>
    refine .inl ⟨r, perform_waiting hrequest ?_⟩
    rintro x _ hx
    cases hinputs.symm.trans hx
    exact id

theorem commandMicroStep_keeps_inputs {c : Command} {s t : State} {w : CommandWord} {rest : List Input}
    (hinputs : s.inputs = .command w :: rest) (h : c.microStep s = .next t) : t.inputs = s.inputs := by
  cases hrest : c.rest s with
  | nil => exact complete_keeps_inputs ((microStep_at_end hrest).symm.trans h)
  | cons m ms =>
    obtain ⟨r, hm⟩ | ⟨f, hm⟩ := perform_of_command hinputs m
    all_goals
      simp only [Command.microStep, hrest, hm] at h
      cases h
    exact State.issue_inputs s r

theorem microStep_keeps_inputs {s t : State} {w : CommandWord} {rest : List Input}
    (hbusy : s.phase = .executing) (hinputs : s.inputs = .command w :: rest)
    (h : microStep s = .next t) : t.inputs = s.inputs := by
  unfold microStep at h
  rw [activity_busy_command hbusy hinputs] at h
  dsimp only at h
  split at h
  case isFalse => cases h
  case isTrue =>
    split at h
    · cases h
    · split at h
      · cases h; rfl
      · exact commandMicroStep_keeps_inputs hinputs h

/-- Settles O51: after acceptance the small steps are the run of the micro-program (`microRun_eq_run`, by
induction on what is left of it), and a command word at the head is no answer to a busy block's request. -/
theorem smallStepsAgreeWithTheBigStep : Obligations.SmallStepsAgreeWithTheBigStep := by
  unfold Obligations.SmallStepsAgreeWithTheBigStep
  exact ⟨microRun_eq_step, fun _ _ _ _ => microStep_keeps_inputs⟩

end Sys2Proof.Machine
end

section
/-! The micro-programs (`spec/41_register_access.md` R131), and the read that stands before every write computed
from `T` (R138). -/

namespace Sys2Proof.Machine

/-- Settles O20: a command without a channel operand has its list by definition, one with a channel operand
once the operand is a channel (`program_setpos`, `program_chwr`, `program_chrd`). -/
theorem microProgramTable : Obligations.MicroProgramTable := by
  unfold Obligations.MicroProgramTable
  exact fun p => ⟨fun _ _ => rfl, fun _ => rfl, fun _ _ => ⟨rfl, rfl⟩,
    fun _ _ v _ h => ⟨program_chwr p h v, program_chrd p h⟩, fun _ pos h => program_setpos p h pos, rfl,
    fun _ => rfl⟩

/-! ### Read-modify-write -/

/-- Where the later of two neighbours is a write computed from `T`, the earlier reads the same register. -/
def MicroOp.ReadsFor (earlier later : MicroOp) : Prop :=
  ∀ reg o, later = .uW reg (.setInT o) ∨ later = .uW reg (.clearInT o) → earlier = .uR reg

@[simp] theorem readsFor_uR (m : MicroOp) (reg : Byte) : m.ReadsFor (.uR reg) := by
  simp [MicroOp.ReadsFor]

@[simp] theorem readsFor_uD (m : MicroOp) (ms : Nat) : m.ReadsFor (.uD ms) := by
  simp [MicroOp.ReadsFor]

@[simp] theorem readsFor_lit (m : MicroOp) (reg v : Byte) : m.ReadsFor (.uW reg (.lit v)) := by
  simp [MicroOp.ReadsFor]

@[simp] theorem readsFor_setInT (m : MicroOp) (reg : Byte) (o : BitOffset) :
    m.ReadsFor (.uW reg (.setInT o)) ↔ m = .uR reg := by
  simp [MicroOp.ReadsFor]

@[simp] theorem readsFor_clearInT (m : MicroOp) (reg : Byte) (o : BitOffset) :
    m.ReadsFor (.uW reg (.clearInT o)) ↔ m = .uR reg := by
  simp [MicroOp.ReadsFor]

/-- In every micro-program each write computed from `T` has its read before it. The delay put in front stands
for what ran before the command, so the first micro-operation has a neighbour too. -/
theorem program_readsFor (p : Params) (i : Instr) :
    (MicroOp.uD 0 :: (commandOf p i).program).IsChain MicroOp.ReadsFor := by
  cases i with
  | openDevice a => simp [commandOf, openCommand, openProgramSetup, openProgramStart]
  | closeDevice => simp [commandOf, closeCommand]
  | wrreg r v => simp [commandOf, wrregCommand]
  | rdreg r => simp [commandOf, rdregCommand]
  | setbit r b => simp [commandOf, setbitCommand]
  | clrbit r b => simp [commandOf, clrbitCommand]
  | setpos c pos =>
    rcases channelOperand_cases c with h | h
    · simp [program_setpos p h]
    · simp [program_setpos_invalid p h]
  | chwr k c v =>
    rcases channelOperand_cases c with h | h
    · simp [program_chwr p (channelRegister_operand h k)]
    · simp [program_chwr_invalid p h]
  | chrd k c =>
    rcases channelOperand_cases c with h | h
    · simp [program_chrd p (channelRegister_operand h k)]
    · simp [program_chrd_invalid p h]

/-- Neighbours in a micro-program, read off the chain. -/
theorem exists_read_before {p : Params} {i : Instr} {n : Nat} {reg : Byte} {o : BitOffset}
    (h : (commandOf p i).program[n]? = some (.uW reg (.setInT o)) ∨
      (commandOf p i).program[n]? = some (.uW reg (.clearInT o))) :
    ∃ m, n = m + 1 ∧ (commandOf p i).program[m]? = some (.uR reg) := by
  obtain ⟨later, hlater, hwrite⟩ : ∃ later, (commandOf p i).program[n]? = some later ∧
      (later = .uW reg (.setInT o) ∨ later = .uW reg (.clearInT o)) := by
    rcases h with h | h
    · exact ⟨_, h, .inl rfl⟩
    · exact ⟨_, h, .inr rfl⟩
  obtain ⟨hn, rfl⟩ := List.getElem?_eq_some_iff.1 hlater
  have hearlier := List.isChain_iff_getElem.1 (program_readsFor p i) n (by simpa using hn) reg o hwrite
  cases n with
  | zero => cases hearlier
  | succ m => exact ⟨m, rfl, List.getElem?_eq_some_iff.2 ⟨by omega, hearlier⟩⟩

theorem getLsbD_setBitByte (b : Byte) (o : BitOffset) (j : Nat) :
    (setBitByte b o).getLsbD j = (decide (o.toNat = j) || b.getLsbD j) := by
  have ho := o.isLt
  have hb := BitVec.getLsbD_of_ge b j
  rw [setBitByte, BitVec.getLsbD_ofNat, ← testBit_eq, testBit_setBit, testBit_eq, BitVec.testBit_toNat]
  grind

theorem getLsbD_clearBitByte (b : Byte) (o : BitOffset) (j : Nat) :
    (clearBitByte b o).getLsbD j = (!decide (o.toNat = j) && b.getLsbD j) := by
  have hb := BitVec.getLsbD_of_ge b j
  rw [clearBitByte, BitVec.getLsbD_ofNat, ← testBit_eq, testBit_clearBit, testBit_eq, BitVec.testBit_toNat]
  grind

/-- Settles O21: the chain of neighbours gives the read (`program_readsFor`), the rules for one
micro-operation its `T` and the byte of the write, and the bits of that byte are those of `set_bit` and
`clear_bit`. -/
theorem readModifyWriteTouchesOneBit : Obligations.ReadModifyWriteTouchesOneBit := by
  unfold Obligations.ReadModifyWriteTouchesOneBit
  refine ⟨fun _ _ _ _ _ => exists_read_before, ?read, ?write, ?otherBits, ?targetBit⟩
  case read =>
    intro s a reg b rest haddr hinputs
    exact ⟨_, perform_read_ok (request_uR haddr reg) hinputs, rfl, haddr, rfl⟩
  case write =>
    intro s a reg b o haddr ht
    exact ⟨request_uW_set haddr ht reg o, request_uW_clear haddr ht reg o⟩
  case otherBits =>
    intro b o j hj
    simp [getLsbD_setBitByte, getLsbD_clearBitByte, hj.symm]
  case targetBit =>
    intro b o
    simp [getLsbD_setBitByte, getLsbD_clearBitByte]

end Sys2Proof.Machine
end

section
/-! The register access commands (`spec/41_register_access.md` R134 to R137). The state in the middle of a
command is written as `State.running`, beside `State.finished` for the state after it, so that each
micro-operation is one rewriting step. -/

namespace Sys2Proof.Machine

/-! ### A command in the middle of its micro-program -/

/-- `s` with a command in progress that has reached `upc`: nothing outstanding, the moves `rest` left, the
events `events` recorded; every other field as in `s`. -/
def State.running (s : State) (upc : BitVec 4) (rest : List Input) (events : List Event) : State :=
  { s with upc := upc, phase := .executing, pending := none, inputs := rest, trace := s.trace ++ events }

theorem accept_eq_running (s : State) : s.accept = s.running 0 s.inputs [] := by
  simp [State.running, State.accept]

section Running

variable {s : State} {a : DevAddr} {c : Command} {ms : List MicroOp} {upc : BitVec 4} {rest : List Input}
  {events : List Event}

/-- The response of a command that returns no byte. -/
theorem complete_running (hdata : c.returnsT = false) :
    c.complete (s.running upc rest events) =
      .next ((s.setLc c.lcDone).finished upc rest (events ++ [.resp .ok 0])) := by
  rw [complete_plain hdata]
  simp [State.running, State.finished, State.respond, State.setLc]

/-- The response of a command that returns `T`. -/
theorem complete_running_returning (hdata : c.returnsT = true) {b : Byte} (ht : s.t = some b) :
    c.complete (s.running upc rest events) =
      .next ((s.setLc c.lcDone).finished upc rest (events ++ [.resp .ok b])) := by
  rw [complete_returning hdata (show (s.running upc rest events).t = some b from ht)]
  simp [State.running, State.finished, State.respond, State.setLc]

theorem abort_running (event : Event) (left : List Input) :
    c.abort ((s.running upc left events).failAt rest event) =
      (s.setLc c.lcError).finished upc rest (events ++ [event, .resp (.error .transportError) 0]) := by
  simp [Command.abort, State.running, State.finished, State.raise, State.respond, State.setLc, State.failAt]

theorem run_write_ok {m : MicroOp} {reg v : Byte}
    (hrequest : m.request (s.running upc (.writeAnswer .ok :: rest) events) = .ok (.busW a reg v)) :
    c.run (m :: ms) (s.running upc (.writeAnswer .ok :: rest) events) =
      c.run ms (s.running (upc + 1) rest (events ++ [.busW a reg v .ok])) := by
  rw [run_advanced (perform_write_ok hrequest rfl)]
  simp [State.running, State.advance]

theorem run_write_err {m : MicroOp} {reg v : Byte}
    (hrequest : m.request (s.running upc (.writeAnswer .err :: rest) events) = .ok (.busW a reg v)) :
    c.run (m :: ms) (s.running upc (.writeAnswer .err :: rest) events) =
      .next ((s.setLc c.lcError).finished upc rest
        (events ++ [.busW a reg v .err, .resp (.error .transportError) 0])) := by
  rw [run_failed (perform_write_err hrequest rfl), abort_running]

theorem run_read_ok (haddr : s.addr = some a) (reg b : Byte) :
    c.run (.uR reg :: ms) (s.running upc (.readAnswer (.ok b) :: rest) events) =
      c.run ms
        (State.running { s with t := some b } (upc + 1) rest (events ++ [.busR a reg (.ok b)])) := by
  have hrequest : (MicroOp.uR reg).request (s.running upc (.readAnswer (.ok b) :: rest) events) =
      .ok (.busR a reg) := request_uR haddr reg
  rw [run_advanced (perform_read_ok hrequest rfl)]
  simp [State.running, State.advance]

theorem run_read_err (haddr : s.addr = some a) (reg : Byte) :
    c.run (.uR reg :: ms) (s.running upc (.readAnswer .err :: rest) events) =
      .next ((State.setLc c.lcError { s with t := none }).finished upc rest
        (events ++ [.busR a reg .err, .resp (.error .transportError) 0])) := by
  have hrequest : (MicroOp.uR reg).request (s.running upc (.readAnswer .err :: rest) events) =
      .ok (.busR a reg) := request_uR haddr reg
  rw [run_failed (perform_read_err hrequest rfl)]
  exact congrArg _ (abort_running (s := { s with t := none }) ..)

end Running

/-! ### Commands of a usable block that only reach a register -/

/-- A command that needs a live driver, validates no operand and changes neither `ADDR` nor `LC`. -/
structure Command.RegisterAccess (c : Command) : Prop where
  gate : c.gate = .ready
  check : c.check = none
  newAddr : c.newAddr = none
  lcDone : c.lcDone = none
  lcError : c.lcError = none

/-- A command that needs a live driver is refused without one (R204). -/
theorem execute_notUsable {c : Command} {s : State} (hgate : c.gate = .ready) (hlc : s.lc ≠ .ready) :
    c.execute s = .next (s.finished 0 s.inputs [.resp (.error .notUsable) 0]) := by
  have hrefused : c.gate.admits s.lc = false := by
    rw [hgate, ← Bool.not_eq_true, gate_ready_admits]
    exact hlc
  rw [execute_refused hrefused, accept_raise]

namespace Command.RegisterAccess

variable {c : Command} {s : State} {a : DevAddr} {rest : List Input}

theorem execute_eq_run {inputs : List Input} (hc : c.RegisterAccess) (hs : s.Usable a)
    (hinputs : s.inputs = inputs) : c.execute s = c.run c.program (s.running 0 inputs []) := by
  have hadmitted : c.gate.admits s.lc = true := by
    rw [hc.gate, gate_ready_admits]
    exact hs.1
  rw [execute_admitted hadmitted hc.check, ← hinputs, ← accept_eq_running]
  simp [Command.enter, hc.newAddr]

/-- A failed first read ends the command (R203), with nothing said of `T` (R24). -/
theorem execute_read_err (hc : c.RegisterAccess) {reg : Byte} {ms : List MicroOp}
    (hprogram : c.program = .uR reg :: ms) (hs : s.Usable a) (hinputs : s.inputs = .readAnswer .err :: rest) :
    ∃ t, c.execute s =
      .next { s.finished 0 rest [.busR a reg .err, .resp (.error .transportError) 0] with t := t } := by
  refine ⟨none, ?_⟩
  rw [hc.execute_eq_run hs hinputs, hprogram, run_read_err hs.2 reg, hc.lcError]
  rfl

/-! #### Read-modify-write: a read, then the write-back of a function of the byte read -/

section ReadModifyWrite

variable (hc : c.RegisterAccess) {reg b v : Byte} {e : ByteExpr}
  (hprogram : c.program = [.uR reg, .uW reg e])
  (hrequest : ∀ s' : State, s'.addr = some a → s'.t = some b →
    (MicroOp.uW reg e).request s' = .ok (.busW a reg v))
  (hs : s.Usable a)

include hc hprogram hrequest hs

theorem execute_readModifyWrite (hdata : c.returnsT = false)
    (hinputs : s.inputs = .readAnswer (.ok b) :: .writeAnswer .ok :: rest) :
    c.execute s = .next { s.finished 2 rest
      [.busR a reg (.ok b), .busW a reg v .ok, .resp .ok 0] with t := some b } := by
  calc c.execute s
      = c.run [.uR reg, .uW reg e] (s.running 0 (.readAnswer (.ok b) :: .writeAnswer .ok :: rest) []) := by
        rw [hc.execute_eq_run hs hinputs, hprogram]
    _ = c.run [.uW reg e] (State.running { s with t := some b } 1 (.writeAnswer .ok :: rest)
          [.busR a reg (.ok b)]) := run_read_ok hs.2 reg b
    _ = c.run [] (State.running { s with t := some b } 2 rest
          [.busR a reg (.ok b), .busW a reg v .ok]) := run_write_ok (hrequest _ hs.2 rfl)
    _ = .next { s.finished 2 rest
          [.busR a reg (.ok b), .busW a reg v .ok, .resp .ok 0] with t := some b } := by
        rw [run_nil, complete_running hdata, hc.lcDone]
        rfl

theorem execute_readModifyWrite_err
    (hinputs : s.inputs = .readAnswer (.ok b) :: .writeAnswer .err :: rest) :
    c.execute s = .next { s.finished 1 rest
      [.busR a reg (.ok b), .busW a reg v .err, .resp (.error .transportError) 0] with t := some b } := by
  calc c.execute s
      = c.run [.uR reg, .uW reg e] (s.running 0 (.readAnswer (.ok b) :: .writeAnswer .err :: rest) []) := by
        rw [hc.execute_eq_run hs hinputs, hprogram]
    _ = c.run [.uW reg e] (State.running { s with t := some b } 1 (.writeAnswer .err :: rest)
          [.busR a reg (.ok b)]) := run_read_ok hs.2 reg b
    _ = .next ((State.setLc c.lcError { s with t := some b }).finished 1 rest
          [.busR a reg (.ok b), .busW a reg v .err, .resp (.error .transportError) 0]) :=
        run_write_err (hrequest _ hs.2 rfl)
    _ = .next { s.finished 1 rest
          [.busR a reg (.ok b), .busW a reg v .err, .resp (.error .transportError) 0] with
          t := some b } := by
        rw [hc.lcError]
        rfl

end ReadModifyWrite

end Command.RegisterAccess

/-! ### WRREG, RDREG, SETBIT, CLRBIT -/

theorem wrregCommand_registerAccess (r v : Byte) : (wrregCommand r v).RegisterAccess :=
  ⟨rfl, rfl, rfl, rfl, rfl⟩

theorem rdregCommand_registerAccess (r : Byte) : (rdregCommand r).RegisterAccess :=
  ⟨rfl, rfl, rfl, rfl, rfl⟩

theorem setbitCommand_registerAccess (r : Byte) (o : BitOffset) : (setbitCommand r o).RegisterAccess :=
  ⟨rfl, rfl, rfl, rfl, rfl⟩

theorem clrbitCommand_registerAccess (r : Byte) (o : BitOffset) : (clrbitCommand r o).RegisterAccess :=
  ⟨rfl, rfl, rfl, rfl, rfl⟩

/-- Settles O24: one write between acceptance and response (`run_write_ok`, `run_write_err`). -/
theorem wrregWritesOneByte : Obligations.WrregWritesOneByte := by
  unfold Obligations.WrregWritesOneByte
  refine ⟨?decoding, fun r v s hlc => execute_notUsable rfl hlc, ?ok, ?err⟩
  case decoding =>
    intro w hopc
    simp [decode, hopc, checkedFormat]
  case ok =>
    intro r v s a rest hs hinputs
    calc exec (.wrreg r v) s
        = (wrregCommand r v).run [.uW r (.lit v)] (s.running 0 (.writeAnswer .ok :: rest) []) :=
          (wrregCommand_registerAccess r v).execute_eq_run hs hinputs
      _ = (wrregCommand r v).run [] (s.running 1 rest [.busW a r v .ok]) :=
          run_write_ok (request_uW_lit hs.2 r v)
      _ = .next (s.finished 1 rest [.busW a r v .ok, .resp .ok 0]) := complete_running rfl
  case err =>
    intro r v s a rest hs hinputs
    calc exec (.wrreg r v) s
        = (wrregCommand r v).run [.uW r (.lit v)] (s.running 0 (.writeAnswer .err :: rest) []) :=
          (wrregCommand_registerAccess r v).execute_eq_run hs hinputs
      _ = .next (s.finished 0 rest [.busW a r v .err, .resp (.error .transportError) 0]) :=
          run_write_err (request_uW_lit hs.2 r v)

/-- Settles O25: one read between acceptance and response, whose byte is in `T` when the response takes it. -/
theorem rdregReturnsTheByteRead : Obligations.RdregReturnsTheByteRead := by
  unfold Obligations.RdregReturnsTheByteRead
  refine ⟨?decoding, fun r s hlc => execute_notUsable rfl hlc, ?ok,
    fun r _ _ _ => (rdregCommand_registerAccess r).execute_read_err rfl⟩
  case decoding =>
    intro w hopc
    simp [decode, hopc, checkedFormat]
  case ok =>
    intro r s a b rest hs hinputs
    calc exec (.rdreg r) s
        = (rdregCommand r).run [.uR r] (s.running 0 (.readAnswer (.ok b) :: rest) []) :=
          (rdregCommand_registerAccess r).execute_eq_run hs hinputs
      _ = (rdregCommand r).run [] (State.running { s with t := some b } 1 rest [.busR a r (.ok b)]) :=
          run_read_ok hs.2 r b
      _ = .next { s.finished 1 rest [.busR a r (.ok b), .resp .ok b] with t := some b } :=
          complete_running_returning (s := { s with t := some b }) rfl rfl

/-- Settles O26: a read-modify-write with `set_bit`, which is the bitwise or (`setBitByte_eq`). -/
theorem setbitReadsAndWritesBack : Obligations.SetbitReadsAndWritesBack := by
  unfold Obligations.SetbitReadsAndWritesBack
  simp only [← setBitByte_eq]
  refine ⟨?decoding, fun r o s hlc => execute_notUsable rfl hlc, ?ok,
    fun r o _ _ _ => (setbitCommand_registerAccess r o).execute_read_err rfl, ?err⟩
  case decoding =>
    intro w hopc
    simp [decode, hopc, checkedFormat]
  case ok =>
    intro r o s a b rest hs
    exact (setbitCommand_registerAccess r o).execute_readModifyWrite rfl
      (fun _ haddr ht => request_uW_set haddr ht r o) hs rfl
  case err =>
    intro r o s a b rest hs
    exact (setbitCommand_registerAccess r o).execute_readModifyWrite_err rfl
      (fun _ haddr ht => request_uW_set haddr ht r o) hs

/-- Settles O27: a read-modify-write with `clear_bit`, which is the bitwise and with the complement
(`clearBitByte_eq`). -/
theorem clrbitReadsAndWritesBack : Obligations.ClrbitReadsAndWritesBack := by
  unfold Obligations.ClrbitReadsAndWritesBack
  simp only [← clearBitByte_eq]
  refine ⟨?decoding, fun r o s hlc => execute_notUsable rfl hlc, ?ok,
    fun r o _ _ _ => (clrbitCommand_registerAccess r o).execute_read_err rfl, ?err⟩
  case decoding =>
    intro w hopc
    simp [decode, hopc, checkedFormat]
  case ok =>
    intro r o s a b rest hs
    exact (clrbitCommand_registerAccess r o).execute_readModifyWrite rfl
      (fun _ haddr ht => request_uW_clear haddr ht r o) hs rfl
  case err =>
    intro r o s a b rest hs
    exact (clrbitCommand_registerAccess r o).execute_readModifyWrite_err rfl
      (fun _ haddr ht => request_uW_clear haddr ht r o) hs

end Sys2Proof.Machine
end

section
/-! The lifecycle commands (`spec/42_lifecycle.md` R150 to R163). A bring-up is a list of exchanges, each a
micro-operation with the answer it gets and the event it leaves; the run of a command over such a list, to
its end or to a failing one, is proved once by induction on the list. -/

namespace Sys2Proof.Machine

/-! ### Exchanges with the transport and the delay provider -/

/-- At device address `a`, with `t` in `T`: a micro-operation, the move that answers it with success, the
event it leaves, and what `T` holds afterwards. -/
inductive Exchange (a : DevAddr) (t : Option Byte) : MicroOp → Input → Event → Option Byte → Prop
  | write {reg v : Byte} {e : ByteExpr}
    (hrequest : ∀ s : State, s.addr = some a → s.t = t →
      (MicroOp.uW reg e).request s = .ok (.busW a reg v)) :
    Exchange a t (.uW reg e) (.writeAnswer .ok) (.busW a reg v .ok) t
  | read (reg b : Byte) : Exchange a t (.uR reg) (.readAnswer (.ok b)) (.busR a reg (.ok b)) (some b)
  | delay (ms : Nat) : Exchange a t (.uD ms) .delayDone (.delay ms) t

/-- A list of exchanges, each with the `T` that the one before it left. -/
inductive Exchanges (a : DevAddr) :
    Option Byte → List MicroOp → List Input → List Event → Option Byte → Prop
  | nil {t : Option Byte} : Exchanges a t [] [] [] t
  | cons {t t' t'' : Option Byte} {m : MicroOp} {ms : List MicroOp} {x : Input} {xs : List Input}
    {e : Event} {es : List Event} (first : Exchange a t m x e t') (others : Exchanges a t' ms xs es t'') :
    Exchanges a t (m :: ms) (x :: xs) (e :: es) t''

/-- The write-back of `set_bit`, its byte as a bitwise or (R112). -/
theorem request_uW_or {s : State} {a : DevAddr} {b : Byte} (haddr : s.addr = some a) (ht : s.t = some b)
    (reg : Byte) (o : BitOffset) :
    (MicroOp.uW reg (.setInT o)).request s = .ok (.busW a reg (b ||| ((1 : Byte) <<< o.toNat))) := by
  rw [request_uW_set haddr ht, setBitByte_eq]

/-- The write-back of `clear_bit`, its byte as a bitwise and with the complement (R114). -/
theorem request_uW_andNot {s : State} {a : DevAddr} {b : Byte} (haddr : s.addr = some a)
    (ht : s.t = some b) (reg : Byte) (o : BitOffset) :
    (MicroOp.uW reg (.clearInT o)).request s =
      .ok (.busW a reg (b &&& ~~~((1 : Byte) <<< o.toNat))) := by
  rw [request_uW_clear haddr ht, clearBitByte_eq]

theorem Exchange.literal {a : DevAddr} {t : Option Byte} (reg v : Byte) :
    Exchange a t (.uW reg (.lit v)) (.writeAnswer .ok) (.busW a reg v .ok) t :=
  .write fun _ haddr _ => request_uW_lit haddr reg v

theorem Exchange.setInT {a : DevAddr} (reg b : Byte) (o : BitOffset) :
    Exchange a (some b) (.uW reg (.setInT o)) (.writeAnswer .ok)
      (.busW a reg (b ||| ((1 : Byte) <<< o.toNat)) .ok) (some b) :=
  .write fun _ haddr ht => request_uW_or haddr ht reg o

theorem Exchange.clearInT {a : DevAddr} (reg b : Byte) (o : BitOffset) :
    Exchange a (some b) (.uW reg (.clearInT o)) (.writeAnswer .ok)
      (.busW a reg (b &&& ~~~((1 : Byte) <<< o.toNat)) .ok) (some b) :=
  .write fun _ haddr ht => request_uW_andNot haddr ht reg o

section Running

variable {a : DevAddr} {c : Command} {m : MicroOp} {ms : List MicroOp} {x : Input} {xs rest : List Input}
  {e : Event} {es events : List Event} {t t' : Option Byte} {s : State} {upc : BitVec 4}

theorem run_delay_done (duration : Nat) :
    c.run (.uD duration :: ms) (s.running upc (.delayDone :: rest) events) =
      c.run ms (s.running (upc + 1) rest (events ++ [.delay duration])) := by
  rw [run_advanced (perform_delay_done rfl rfl)]
  simp [State.running, State.advance]

theorem Exchange.run_eq (h : Exchange a t m x e t') (haddr : s.addr = some a) (ht : s.t = t) :
    c.run (m :: ms) (s.running upc (x :: rest) events) =
      c.run ms (State.running { s with t := t' } (upc + 1) rest (events ++ [e])) := by
  subst ht
  cases h with
  | write hrequest => exact run_write_ok (hrequest _ haddr rfl)
  | read reg b => exact run_read_ok haddr reg b
  | delay duration => exact run_delay_done duration

/-- A bus exchange that the transport answers `err` instead ends the command (R156, R163, R203); a failed
read leaves no `T` (R24). -/
theorem Exchange.run_failed (h : Exchange a t m x e t') (haddr : s.addr = some a) (ht : s.t = t)
    (hbus : x ≠ .delayDone) :
    ∃ tEnd, c.run (m :: ms) (s.running upc (x.asFailed :: rest) events) =
      .next { (s.setLc c.lcError).finished upc rest
        (events ++ [e.asFailed, .resp (.error .transportError) 0]) with t := tEnd } := by
  cases h with
  | write hrequest => exact ⟨s.t, run_write_err (hrequest _ haddr ht)⟩
  | read reg b => exact ⟨none, run_read_err haddr reg⟩
  | delay duration => exact absurd rfl hbus

/-- `UPC` after one exchange and `n` more. -/
theorem upc_add_succ (upc : BitVec 4) (n : Nat) :
    upc + 1 + BitVec.ofNat 4 n = upc + BitVec.ofNat 4 (n + 1) := by
  rw [BitVec.ofNat_add, BitVec.add_comm (BitVec.ofNat 4 n), BitVec.add_assoc]
  rfl

/-- A run whose exchanges all succeed reaches the response. -/
theorem Exchanges.run_eq (h : Exchanges a t ms xs es t') (haddr : s.addr = some a) (ht : s.t = t)
    (hdata : c.returnsT = false) :
    c.run ms (s.running upc (xs ++ rest) events) =
      .next { (s.setLc c.lcDone).finished (upc + BitVec.ofNat 4 ms.length) rest
        (events ++ es ++ [.resp .ok 0]) with t := t' } := by
  induction h generalizing s upc events with
  | nil =>
    subst ht
    rw [run_nil, List.nil_append, complete_running hdata]
    simp [State.finished]
  | @cons _ tNext _ _ _ _ _ _ _ first others ih =>
    rw [List.cons_append, first.run_eq haddr ht, ih (s := { s with t := tNext }) haddr rfl, upc_add_succ]
    simp [State.finished, State.setLc]

/-- A run whose exchange `k` fails: the exchanges before it as in the run that succeeds, nothing after it. -/
theorem Exchanges.run_failed_at {k : Nat} (h : Exchanges a t ms xs es t') (haddr : s.addr = some a)
    (ht : s.t = t) (hx : xs[k]? = some x) (he : es[k]? = some e) (hbus : x ≠ .delayDone) :
    ∃ tEnd, c.run ms (s.running upc (xs.take k ++ x.asFailed :: rest) events) =
      .next { (s.setLc c.lcError).finished (upc + BitVec.ofNat 4 k) rest
        (events ++ es.take k ++ [e.asFailed, .resp (.error .transportError) 0]) with t := tEnd } := by
  induction h generalizing s upc events k with
  | nil => simp at hx
  | @cons _ tNext _ _ _ _ _ _ _ first others ih =>
    cases k with
    | zero =>
      obtain rfl : _ = x := by simpa using hx
      obtain rfl : _ = e := by simpa using he
      simpa using first.run_failed (upc := upc) haddr ht hbus
    | succ k =>
      obtain ⟨tEnd, hrun⟩ := ih (s := { s with t := tNext }) haddr rfl hx he
      refine ⟨tEnd, ?_⟩
      rw [List.take_succ_cons, List.cons_append, first.run_eq haddr ht, hrun, upc_add_succ]
      simp [State.finished, State.setLc]

end Running

/-! ### Executing a command whose exchanges are known -/

section Executing

variable {a : DevAddr} {c : Command} {s : State} {answers rest : List Input} {events : List Event}
  {t' : Option Byte}

/-- An admitted command starts its micro-program with what R132 steps 2 to 4 leave. -/
theorem execute_eq_run_enter {inputs : List Input} (hgate : c.gate.admits s.lc = true)
    (hcheck : c.check = none) (hinputs : s.inputs = inputs) :
    c.execute s = c.run c.program ((c.enter s).running 0 inputs []) := by
  rw [execute_admitted hgate hcheck, ← hinputs]
  unfold Command.enter
  cases c.newAddr <;> simp [State.running, State.accept]

variable (hgate : c.gate.admits s.lc = true) (hcheck : c.check = none)
  (hexchanges : Exchanges a s.t c.program answers events t') (haddr : (c.enter s).addr = some a)

include hgate hcheck hexchanges haddr

theorem execute_completes (hdata : c.returnsT = false) (hinputs : s.inputs = answers ++ rest) :
    c.execute s = .next { ((c.enter s).setLc c.lcDone).finished (BitVec.ofNat 4 c.program.length) rest
      (events ++ [.resp .ok 0]) with t := t' } := by
  rw [execute_eq_run_enter hgate hcheck hinputs, hexchanges.run_eq haddr (Command.enter_t ..) hdata]
  simp

theorem execute_fails_at {k : Nat} {x : Input} {e : Event} (hx : answers[k]? = some x)
    (he : events[k]? = some e) (hbus : x ≠ .delayDone)
    (hinputs : s.inputs = answers.take k ++ x.asFailed :: rest) :
    ∃ t, c.execute s = .next { ((c.enter s).setLc c.lcError).finished (BitVec.ofNat 4 k) rest
      (events.take k ++ [e.asFailed, .resp (.error .transportError) 0]) with t := t } := by
  rw [execute_eq_run_enter hgate hcheck hinputs]
  simpa using hexchanges.run_failed_at (upc := 0) (events := []) haddr (Command.enter_t ..) hx he hbus

end Executing

/-! ### OPEN -/

/-- The micro-program of OPEN against the trace E8 (R150 to R155): the constants of R7 are the bytes 0x79,
0x64, 0x00, 0x97 and 0x01 there, and the mask 0xEF is the `sleep` bit cleared. -/
theorem openCommand_exchanges (p : Params) (a : DevAddr) (t : Option Byte) (m1 m2 m3 : Byte) :
    Exchanges a t (openCommand p a).program (openAnswers m1 m2 m3) (openEvents p a m1 m2 m3) (some m3) :=
  .cons (.literal p.regPreScale 0x79) <|
  .cons (.read p.regMode1 m1) <| .cons (.clearInT p.regMode1 m1 p.bitAllcall) <|
  .cons (.literal p.regAllOnL 0x64) <| .cons (.literal p.regAllOnH 0x00) <|
  .cons (.literal p.regAllOffL 0x97) <| .cons (.literal p.regAllOffH 0x01) <|
  .cons (.read p.regMode1 m2) <| .cons (.clearInT p.regMode1 m2 Config.bitSleep) <| .cons (.delay 100) <|
  .cons (.read p.regMode1 m3) <| .cons (.setInT p.regMode1 m3 p.bitRestart) <| .cons (.delay 100) .nil

/-- Settles O32: refused when READY by its gate, else the exchanges of `openCommand_exchanges` to the end. -/
theorem openBringsTheDeviceUp : Obligations.OpenBringsTheDeviceUp := by
  unfold Obligations.OpenBringsTheDeviceUp
  refine ⟨?decoding, ?refused, ?completes⟩
  case decoding =>
    intro w hopc
    simp [decode, hopc, checkedFormat]
  case refused =>
    intro a s hlc
    have hrefused : (openCommand s.params a).gate.admits s.lc = false := by rw [hlc]; rfl
    exact execute_refused hrefused
  case completes =>
    intro a s m1 m2 m3 rest hlc hinputs
    exact execute_completes (c := openCommand s.params a) (gate_noDriver_admits.2 hlc) rfl
      (openCommand_exchanges s.params a s.t m1 m2 m3) rfl rfl hinputs

/-- Every command but OPEN needs a live driver (R204). -/
theorem gate_eq_ready {i : Instr} (hi : ∀ a, i ≠ .openDevice a) (p : Params) :
    (commandOf p i).gate = .ready := by
  cases i with
  | openDevice a => exact absurd rfl (hi a)
  | _ => rfl

/-- Settles O33: the exchanges of `openCommand_exchanges` up to the failing one (`execute_fails_at`, for
every `k` at once); without a live driver, only OPEN is admitted. -/
theorem openFailsAtAnyTransaction : Obligations.OpenFailsAtAnyTransaction := by
  unfold Obligations.OpenFailsAtAnyTransaction
  refine ⟨?fails, ?refused⟩
  case fails =>
    intro a s m1 m2 m3 rest k x e hlc hx he hbus hinputs
    obtain ⟨t, hexec⟩ := execute_fails_at (c := openCommand s.params a) (gate_noDriver_admits.2 hlc) rfl
      (openCommand_exchanges s.params a s.t m1 m2 m3) rfl hx he hbus hinputs
    exact ⟨_, hexec, rfl, rfl, rfl, rfl, rfl, rfl, rfl, rfl, (List.append_assoc ..).symm⟩
  case refused =>
    intro i s hlc hi
    have hnotReady : s.lc ≠ .ready := by simp [hlc]
    rw [exec_eq_execute, execute_notUsable (gate_eq_ready hi s.params) hnotReady]

/-! ### CLOSE -/

/-- The two exchanges of CLOSE (R160): the bit that `sleep` is, offset 4, is 0x10. -/
theorem closeCommand_exchanges (p : Params) (a : DevAddr) (t : Option Byte) (b : Byte) :
    Exchanges a t (closeCommand p).program [.readAnswer (.ok b), .writeAnswer .ok]
      [.busR a p.regMode1 (.ok b), .busW a p.regMode1 (b ||| 0x10) .ok] (some b) :=
  .cons (.read p.regMode1 b) <| .cons (.setInT p.regMode1 b Config.bitSleep) .nil

/-- Settles O34: the two exchanges of CLOSE to the end, or to the one that fails; `lcDone` and `lcError` are
both CLOSED. -/
theorem closeSetsTheSleepBit : Obligations.CloseSetsTheSleepBit := by
  unfold Obligations.CloseSetsTheSleepBit
  refine ⟨?decoding, fun s hlc => execute_notUsable rfl hlc, ?ok, ?readFails, ?writeFails⟩
  case decoding =>
    intro w hopc
    simp [decode, hopc, checkedFormat]
  case ok =>
    intro s a b rest hs hinputs
    exact execute_completes (c := closeCommand s.params) (gate_ready_admits.2 hs.1) rfl
      (closeCommand_exchanges s.params a s.t b) hs.2 rfl hinputs
  case readFails =>
    intro s a rest hs hinputs
    exact execute_fails_at (c := closeCommand s.params) (k := 0) (gate_ready_admits.2 hs.1) rfl
      (closeCommand_exchanges s.params a s.t 0) hs.2 rfl rfl (by simp) hinputs
  case writeFails =>
    intro s a b rest hs hinputs
    calc exec .closeDevice s
        = (closeCommand s.params).run (closeCommand s.params).program
            (s.running 0 (.readAnswer (.ok b) :: .writeAnswer .err :: rest) []) :=
          execute_eq_run_enter (c := closeCommand s.params) (gate_ready_admits.2 hs.1) rfl hinputs
      _ = (closeCommand s.params).run [.uW s.params.regMode1 (.setInT Config.bitSleep)]
            (State.running { s with t := some b } 1 (.writeAnswer .err :: rest)
              [.busR a s.params.regMode1 (.ok b)]) := run_read_ok hs.2 s.params.regMode1 b
      _ = .next { s.finished 1 rest
            [.busR a s.params.regMode1 (.ok b), .busW a s.params.regMode1 (b ||| 0x10) .err,
             .resp (.error .transportError) 0] with lc := .closed, t := some b } :=
          run_write_err (s := { s with t := some b })
            (request_uW_or (s := State.running { s with t := some b } 1 _ _) hs.2 rfl
              s.params.regMode1 Config.bitSleep)

end Sys2Proof.Machine
end

section
/-! Channel addressing (`spec/43_channel_addressing.md` R170, R171), and CHWR and CHRD (R174, R175): on a
channel of 0 to 15 they are WRREG and RDREG at the channel's register. -/

namespace Sys2Proof

/-- The number of a kind determines it (R85). -/
theorem kind_code_injective : Function.Injective Kind.code :=
  Function.LeftInverse.injective kind_ofCode_code

end Sys2Proof

namespace Sys2Proof.Machine

/-! ### The address of a channel register -/

/-- A kind's number is its base address minus 0x06 (R85). -/
theorem kindBase_eq_code (k : Kind) : kindBase k = 0x06 + k.code.toNat := by
  cases k <;> rfl

theorem channelRegister_of_invalid (k : Kind) {c : Int} (h : c < 0 ∨ 15 < c) :
    channelRegister k c = .error .invalidChannel :=
  if_pos h

theorem channelRegister_natCast (k : Kind) {n : Nat} (h : n ≤ 15) :
    channelRegister k n = .ok (BitVec.ofNat 8 (0x06 + 4 * n + k.code.toNat)) := by
  have hvalid : ¬((n : Int) < 0 ∨ (n : Int) > 15) := by omega
  rw [channelRegister, if_neg hvalid, kindBase_eq_code, Config.chStride, Int.toNat_natCast,
    Nat.add_right_comm]

/-- The highest channel register is 0x45, so the sum is not truncated to a byte. -/
theorem toNat_channelAddress (k : Kind) {n : Nat} (h : n ≤ 15) :
    (BitVec.ofNat 8 (0x06 + 4 * n + k.code.toNat)).toNat = 0x06 + 4 * n + k.code.toNat := by
  have hk := k.code.isLt
  exact Nat.mod_eq_of_lt (by omega)

/-- What `channel_register` answers, and when: R170 and R171 are read off this. -/
theorem channelRegister_eq_ok_iff {k : Kind} {c : Int} {r : Byte} :
    channelRegister k c = .ok r ↔
      0 ≤ c ∧ c ≤ 15 ∧ (r.toNat : Int) = 0x06 + 4 * c + k.code.toNat := by
  by_cases hc : c < 0 ∨ 15 < c
  · simp only [channelRegister_of_invalid k hc, reduceCtorEq, false_iff]
    omega
  · obtain ⟨n, rfl⟩ := Int.eq_ofNat_of_zero_le (a := c) (by omega)
    have hn : n ≤ 15 := by omega
    rw [channelRegister_natCast k hn, Except.ok.injEq, ← BitVec.toNat_inj, toNat_channelAddress k hn]
    omega

/-- An address minus 0x06 is 4c + k with k below 4, so it determines both. -/
theorem channelRegister_injective {k k' : Kind} {c c' : Int} {r : Byte}
    (h : channelRegister k c = .ok r) (h' : channelRegister k' c' = .ok r) : k = k' ∧ c = c' := by
  obtain ⟨-, -, hr⟩ := channelRegister_eq_ok_iff.1 h
  obtain ⟨-, -, hr'⟩ := channelRegister_eq_ok_iff.1 h'
  have hk := k.code.isLt
  have hk' := k'.code.isLt
  have hcode : k.code.toNat = k'.code.toNat := by omega
  exact ⟨kind_code_injective (BitVec.eq_of_toNat_eq hcode), by omega⟩

theorem exists_channelRegister_eq_ok_iff (r : Byte) :
    (∃ (k : Kind) (c : Int), channelRegister k c = .ok r) ↔ 0x06 ≤ r.toNat ∧ r.toNat ≤ 0x45 := by
  simp only [channelRegister_eq_ok_iff]
  constructor
  · rintro ⟨k, c, hlow, hhigh, hr⟩
    have hk := k.code.isLt
    omega
  · rintro ⟨hlow, hhigh⟩
    refine ⟨Kind.ofCode (BitVec.ofNat 2 (r.toNat - 6)), ((r.toNat - 6) / 4 : Nat), ?_⟩
    rw [kind_code_ofCode, BitVec.toNat_ofNat]
    omega

/-- Settles O9: an address is the base of its kind plus 4 times the channel (`channelRegister_natCast`), and
no sum wraps. -/
theorem channelRegisterAddress : Obligations.ChannelRegisterAddress := by
  unfold Obligations.ChannelRegisterAddress
  refine fun k c => ⟨?valid, channelRegister_of_invalid k⟩
  case valid =>
    intro hlow hhigh
    obtain ⟨n, rfl⟩ := Int.eq_ofNat_of_zero_le hlow
    have hn : n ≤ 15 := by omega
    refine ⟨_, channelRegister_natCast k hn, ?_⟩
    rw [toNat_channelAddress k hn]
    cases k <;> simp [Kind.code] <;> omega

/-- Settles O10: the address as a number, 0x06 + 4c + k with k below 4 (`channelRegister_eq_ok_iff`), gives
the step, the injectivity and the image. -/
theorem channelRegisterBijection : Obligations.ChannelRegisterBijection := by
  unfold Obligations.ChannelRegisterBijection
  refine ⟨?step, fun k _ => channelRegister_natCast k, fun _ _ _ _ _ => channelRegister_injective,
    exists_channelRegister_eq_ok_iff⟩
  case step =>
    intro k c r r' h h'
    obtain ⟨-, -, hr⟩ := channelRegister_eq_ok_iff.1 h
    obtain ⟨-, -, hr'⟩ := channelRegister_eq_ok_iff.1 h'
    omega

/-! ### CHWR and CHRD -/

theorem chwrCommand_eq_wrregCommand {k : Kind} {c r : Byte}
    (h : channelRegister k (channelOperand c) = .ok r) (v : Byte) :
    chwrCommand k c v = wrregCommand r v := by
  simp [chwrCommand, wrregCommand, h]

theorem chrdCommand_eq_rdregCommand {k : Kind} {c r : Byte}
    (h : channelRegister k (channelOperand c) = .ok r) : chrdCommand k c = rdregCommand r := by
  simp [chrdCommand, rdregCommand, h]

theorem exec_chwr_eq_wrreg (k : Kind) {c : Byte} (h : c.toNat ≤ 15) (v : Byte) (s : State) :
    exec (.chwr k c v) s =
      exec (.wrreg (BitVec.ofNat 8 (0x06 + 4 * c.toNat + k.code.toNat)) v) s :=
  congrArg (·.execute s) (chwrCommand_eq_wrregCommand (channelRegister_natCast k h) v)

theorem exec_chrd_eq_rdreg (k : Kind) {c : Byte} (h : c.toNat ≤ 15) (s : State) :
    exec (.chrd k c) s = exec (.rdreg (BitVec.ofNat 8 (0x06 + 4 * c.toNat + k.code.toNat))) s :=
  congrArg (·.execute s) (chrdCommand_eq_rdregCommand (channelRegister_natCast k h))

/-- A command of a live driver whose operand validation fails is refused with the error it finds (R206). -/
theorem execute_checkFails {c : Command} {s : State} {e : ErrorKind} (hgate : c.gate = .ready)
    (hlc : s.lc = .ready) (hcheck : c.check = some e) :
    c.execute s = .next (s.finished 0 s.inputs [.resp (.error e) 0]) := by
  have hadmitted : c.gate.admits s.lc = true := by
    rw [hgate]
    exact gate_ready_admits.2 hlc
  rw [execute_invalid hadmitted hcheck, accept_raise]

theorem check_chwr_invalid {c : Byte} (h : 15 < c.toNat) (k : Kind) (v : Byte) :
    (chwrCommand k c v).check = some .invalidChannel := by
  simp [chwrCommand, channelRegister_operand_invalid h]

theorem check_chrd_invalid {c : Byte} (h : 15 < c.toNat) (k : Kind) :
    (chrdCommand k c).check = some .invalidChannel := by
  simp [chrdCommand, channelRegister_operand_invalid h]

/-- Settles O28: on a channel CHWR is WRREG at the channel's register (`exec_chwr_eq_wrreg`), beyond 15 its
operand validation fails. -/
theorem chwrWritesTheChannelRegister : Obligations.ChwrWritesTheChannelRegister := by
  unfold Obligations.ChwrWritesTheChannelRegister
  obtain ⟨-, -, wrreg_ok, wrreg_err⟩ := wrregWritesOneByte
  refine ⟨?decoding, fun k c v s hlc => execute_notUsable rfl hlc,
    fun k c v s hlc hc => execute_checkFails rfl hlc (check_chwr_invalid hc k v), ?ok, ?err⟩
  case decoding =>
    intro w hopc
    simp [decode, hopc, checkedFormat]
  case ok =>
    intro k c v s a rest hs hc hinputs
    rw [exec_chwr_eq_wrreg k hc, wrreg_ok _ v s a rest hs hinputs]
  case err =>
    intro k c v s a rest hs hc hinputs
    rw [exec_chwr_eq_wrreg k hc, wrreg_err _ v s a rest hs hinputs]

/-- Settles O29: on a channel CHRD is RDREG at the channel's register (`exec_chrd_eq_rdreg`), so its byte is
returned as received; beyond 15 its operand validation fails. -/
theorem chrdReturnsTheChannelRegister : Obligations.ChrdReturnsTheChannelRegister := by
  unfold Obligations.ChrdReturnsTheChannelRegister
  obtain ⟨-, -, rdreg_ok, rdreg_err⟩ := rdregReturnsTheByteRead
  refine ⟨?decoding, fun k c s hlc => execute_notUsable rfl hlc,
    fun k c s hlc hc => execute_checkFails rfl hlc (check_chrd_invalid hc k), ?ok, ?err⟩
  case decoding =>
    intro w hopc
    simp [decode, hopc, checkedFormat]
  case ok =>
    intro k c s a b rest hs hc hinputs
    rw [exec_chrd_eq_rdreg k hc, rdreg_ok _ s a b rest hs hinputs]
  case err =>
    intro k c s a rest hs hc hinputs
    rw [exec_chrd_eq_rdreg k hc]
    exact rdreg_err _ s a rest hs hinputs

end Sys2Proof.Machine
end

section
/-! The scaler and the packing of a tick (`spec/44_position_control.md` R186 to R189). From the three cases of
`scale` comes that it rounds to the nearest integer (`scale_nearest`). That determines the result off a tie, under
either tie rule, and gives monotonicity; only the ties need the rule. -/

namespace Sys2Proof.Machine

/-! ### Rounding to the nearest integer -/

theorem scale_of_lt {p : Nat} (h : scaleNumerator p % 1000 < 500) (tie : RoundTie) :
    scale tie p = scaleNumerator p / 1000 := by
  simp [scale, h]

theorem scale_of_gt {p : Nat} (h : 500 < scaleNumerator p % 1000) (tie : RoundTie) :
    scale tie p = scaleNumerator p / 1000 + 1 := by
  simp [scale, h, Nat.lt_asymm h]

/-- An exact half is left to the tie rule. -/
theorem scale_of_tie {p : Nat} (h : scaleNumerator p % 1000 = 500) (tie : RoundTie) :
    scale tie p = roundHalf tie (scaleNumerator p / 1000) := by
  simp [scale, h]

theorem roundHalf_halfUp (q : Nat) : roundHalf .halfUp q = q + 1 := rfl

theorem roundHalf_halfEven (q : Nat) :
    roundHalf .halfEven q = if q % 2 = 0 then q else q + 1 := rfl

theorem roundHalf_halfEven_even (q : Nat) : roundHalf .halfEven q % 2 = 0 := by
  rw [roundHalf_halfEven]
  split <;> omega

/-- A tie rule takes one of the two neighbours. -/
theorem roundHalf_cases (tie : RoundTie) (q : Nat) : roundHalf tie q = q ∨ roundHalf tie q = q + 1 := by
  cases tie with
  | halfUp => exact .inr (roundHalf_halfUp q)
  | halfEven =>
    rw [roundHalf_halfEven]
    split
    · exact .inl rfl
    · exact .inr rfl

/-- The scaler is within a half of `N(p) / 1000`, on a tie by exactly a half. -/
theorem scale_nearest (tie : RoundTie) (p : Nat) :
    1000 * scale tie p ≤ scaleNumerator p + 500 ∧ scaleNumerator p ≤ 1000 * scale tie p + 500 := by
  rcases Nat.lt_trichotomy (scaleNumerator p % 1000) 500 with h | h | h
  · rw [scale_of_lt h]
    omega
  · rw [scale_of_tie h]
    rcases roundHalf_cases tie (scaleNumerator p / 1000) with hround | hround <;> omega
  · rw [scale_of_gt h]
    omega

/-- A tick nearer to `N(p) / 1000` than a half is the result under either tie rule. -/
theorem scale_eq_of_near {p t : Nat} (hlow : 1000 * t < scaleNumerator p + 500)
    (hhigh : scaleNumerator p < 1000 * t + 500) (tie : RoundTie) : scale tie p = t := by
  obtain ⟨hle, hge⟩ := scale_nearest tie p
  omega

/-- Settles O12: the nearest integer by `scale_nearest`; on a tie the result is that of `roundHalf`. -/
theorem scaleRoundsToNearest : Obligations.ScaleRoundsToNearest := by
  unfold Obligations.ScaleRoundsToNearest
  refine ⟨?formula, scale_nearest, ?ties⟩
  case formula =>
    intro p
    simp only [scaleNumerator]
    omega
  case ties =>
    intro p h
    rw [scale_of_tie h, scale_of_tie h]
    refine ⟨?_, roundHalf_halfEven_even _⟩
    rw [roundHalf_halfUp]
    omega

/-! ### The bytes of a tick -/

/-- A digit in base 256 is not truncated to a byte. -/
theorem toNat_byteOf (v n : Nat) : (byteOf v n).toNat = getByte v n :=
  Nat.mod_eq_of_lt (Nat.lt_succ_of_le (getByte_le v n))

theorem toNat_pack_fst (t : Nat) : (pack t).1.toNat = t % 256 := by
  simp [pack, toNat_byteOf, getByte_eq]

/-- Above the low byte, a tick of 12 bits has a high nibble alone. -/
theorem toNat_pack_snd {t : Nat} (h : t ≤ 4095) : (pack t).2.toNat = t / 256 := by
  have hdigit : (pack t).2.toNat = t / 256 % 256 := by simp [pack, toNat_byteOf, getByte_eq]
  omega

/-- Settles O15: the two bytes are the quotient and the remainder by 256. -/
theorem packSplitsATick : Obligations.PackSplitsATick := by
  unfold Obligations.PackSplitsATick
  intro t ht
  rw [toNat_pack_fst, toNat_pack_snd ht]
  refine ⟨(Nat.and_two_pow_sub_one_eq_mod t 8).symm, (Nat.shiftRight_eq_div_pow t 8).symm, by omega, ?_⟩
  calc (t / 256) <<< 8 ||| t % 256
      = (t / 256) <<< 8 + t % 256 := (Nat.shiftLeft_add_eq_or_of_lt (Nat.mod_lt t (by decide)) _).symm
    _ = t := by rw [Nat.shiftLeft_eq]; omega

/-! ### Shape and range -/

/-- A later position has `N` greater by at least 204, and the two roundings move it by at most 500 each, so the
results are out of order by less than one tick. -/
theorem scale_mono (tie : RoundTie) {p p' : Nat} (h : p ≤ p') : scale tie p ≤ scale tie p' := by
  obtain rfl | hlt := Nat.eq_or_lt_of_le h
  · exact Nat.le_refl _
  · obtain ⟨hle, -⟩ := scale_nearest tie p
    obtain ⟨-, hge⟩ := scale_nearest tie p'
    unfold scaleNumerator at hle hge
    omega

/-- Settles O13: the values lie off the ties (`scale_eq_of_near`), the bounds follow from the values at the ends
(`scale_mono`). -/
theorem scaleShapeAndRange : Obligations.ScaleShapeAndRange := by
  unfold Obligations.ScaleShapeAndRange
  have h1 : ∀ tie, scale tie 1 = 101 := scale_eq_of_near (by decide) (by decide)
  have h2999 : ∀ tie, scale tie 2999 = 713 := scale_eq_of_near (by decide) (by decide)
  have h19580 : ∀ tie, scale tie 19580 = 4095 := scale_eq_of_near (by decide) (by decide)
  refine ⟨fun tie p p' => scale_mono tie, ?values, ?domain, ?shared, ?bound, ?ends⟩
  case values =>
    exact fun tie => ⟨h1 tie, h2999 tie, scale_eq_of_near (by decide) (by decide) tie,
      scale_eq_of_near (by decide) (by decide) tie, scale_eq_of_near (by decide) (by decide) tie⟩
  case domain =>
    intro tie p hlow hhigh
    have hmin : 101 ≤ scale tie p := h1 tie ▸ scale_mono tie hlow
    have hmax : scale tie p ≤ 713 := h2999 tie ▸ scale_mono tie hhigh
    rw [toNat_pack_snd (by omega), Config.pulseStart]
    omega
  case shared =>
    exact fun tie => ⟨scale_eq_of_near (by decide) (by decide) tie,
      scale_eq_of_near (by decide) (by decide) tie, scale_eq_of_near (by decide) (by decide) tie⟩
  case bound =>
    exact fun tie p h => h19580 tie ▸ scale_mono tie h
  case ends =>
    exact fun tie => ⟨h19580 tie, scale_eq_of_near (by decide) (by decide) tie⟩

/-! ### The ties -/

/-- 51 has an inverse modulo 250, so one residue class makes all the ties. -/
theorem tie_iff (p : Nat) : scaleNumerator p % 1000 = 500 ↔ p % 250 = 125 := by
  unfold scaleNumerator
  omega

/-- The ties in order: `N` there, 51 ticks apart. -/
theorem scaleNumerator_of_tie (k : Nat) : scaleNumerator (125 + 250 * k) = 1000 * (126 + 51 * k) + 500 := by
  unfold scaleNumerator
  omega

/-- The result at the `k`-th tie. -/
theorem scale_at_tie (tie : RoundTie) (k : Nat) :
    scale tie (125 + 250 * k) = roundHalf tie (126 + 51 * k) := by
  have hN := scaleNumerator_of_tie k
  rw [scale_of_tie (by omega)]
  congr 1
  omega

/-- Off the ties the tie rule is not asked. -/
theorem scale_eq_of_not_tie {p : Nat} (h : scaleNumerator p % 1000 ≠ 500) (tie tie' : RoundTie) :
    scale tie p = scale tie' p := by
  obtain ⟨hle, hge⟩ := scale_nearest tie p
  obtain ⟨hle', hge'⟩ := scale_nearest tie' p
  omega

/-- Settles O14: the ties are the positions 125 + 250k (`tie_iff`), of which the default domain has those with k
below 12. -/
theorem roundingTies : Obligations.RoundingTies := by
  unfold Obligations.RoundingTies
  refine ⟨?location, ?value, fun p h => scale_eq_of_not_tie h _ _, ?table⟩
  case location =>
    intro p
    rw [tie_iff]
    constructor
    · intro h
      exact ⟨((p : Int) - 1000) / 125, by omega, by omega⟩
    · rintro ⟨m, hodd, hp⟩
      omega
  case value =>
    intro p m hp
    unfold scaleNumerator
    omega
  case table =>
    intro p _ hhigh h
    have htie := (tie_iff p).1 h
    obtain ⟨k, rfl⟩ : ∃ k, p = 125 + 250 * k := ⟨p / 250, by omega⟩
    have hk : k < 12 := by omega
    rw [scale_at_tie, scale_at_tie]
    interval_cases k <;> decide

end Sys2Proof.Machine
end

section
/-! SETPOS (`spec/44_position_control.md` R190 to R192). With valid operands it is two literal writes; what a run
of literal writes can show is said once, by induction on the list, and R192 follows. -/

namespace Sys2Proof.Machine

/-! ### The validation of the operands -/

theorem check_setpos_invalidChannel (p : Params) {c : Byte} (h : 15 < c.toNat) (pos : Position) :
    (setposCommand p c pos).check = some .invalidChannel := by
  simp [setposCommand, setposCheck, channelRegister_operand_invalid h]

theorem check_setpos_of_channel (p : Params) {c : Byte} (h : c.toNat ≤ 15) (pos : Position) :
    (setposCommand p c pos).check =
      if validPosition p pos.toNat then none else some .invalidPosition := by
  simp [setposCommand, setposCheck, channelRegister_operand h]

theorem check_setpos_invalidPosition {p : Params} {c : Byte} (h : c.toNat ≤ 15) {pos : Position}
    (hpos : pos.toNat = 0 ∨ p.posMaxExcl ≤ pos.toNat) :
    (setposCommand p c pos).check = some .invalidPosition := by
  rw [check_setpos_of_channel p h, if_neg]
  rw [validPosition_iff]
  omega

theorem channel_le_of_check_setpos {p : Params} {c : Byte} {pos : Position}
    (h : (setposCommand p c pos).check = none) : c.toNat ≤ 15 := by
  by_contra hc
  rw [check_setpos_invalidChannel p (Nat.lt_of_not_le hc)] at h
  cases h

/-- With valid operands SETPOS only reaches registers. -/
theorem setposCommand_registerAccess {p : Params} {c : Byte} {pos : Position} (h : c.toNat ≤ 15)
    (hlow : 0 < pos.toNat) (hhigh : pos.toNat < p.posMaxExcl) : (setposCommand p c pos).RegisterAccess where
  gate := rfl
  check := by rw [check_setpos_of_channel p h, if_pos ((validPosition_iff p _).2 ⟨hlow, hhigh⟩)]
  newAddr := rfl
  lcDone := rfl
  lcError := rfl

/-! ### Runs of literal writes -/

/-- A register, and the byte to write there. -/
abbrev RegisterWrite := Byte × Byte

/-- Its micro-operation (R130). -/
def RegisterWrite.microOp (w : RegisterWrite) : MicroOp := .uW w.1 (.lit w.2)

/-- Its transaction at device address `a`, with the transport's answer. -/
def RegisterWrite.event (a : DevAddr) (answer : WriteAnswer) (w : RegisterWrite) : Event :=
  .busW a w.1 w.2 answer

section LiteralWrites

variable {s t : State} {a : DevAddr} {c : Command} {w : RegisterWrite} {ws : List RegisterWrite}
  {ms : List MicroOp} {upc : BitVec 4} {rest : List Input} {events : List Event}

theorem request_registerWrite (haddr : s.addr = some a) (w : RegisterWrite) :
    w.microOp.request s = .ok (.busW a w.1 w.2) :=
  request_uW_lit haddr w.1 w.2

theorem run_registerWrite_ok (haddr : s.addr = some a) :
    c.run (w.microOp :: ms) (s.running upc (.writeAnswer .ok :: rest) events) =
      c.run ms (s.running (upc + 1) rest (events ++ [w.event a .ok])) :=
  run_write_ok (request_registerWrite haddr w)

theorem run_registerWrite_err (haddr : s.addr = some a) :
    c.run (w.microOp :: ms) (s.running upc (.writeAnswer .err :: rest) events) =
      .next ((s.setLc c.lcError).finished upc rest
        (events ++ [w.event a .err, .resp (.error .transportError) 0])) :=
  run_write_err (request_registerWrite haddr w)

/-- Without an address in `ADDR` a run stops at its first write. -/
theorem run_registerWrite_absent (haddr : s.addr = none) :
    c.run (w.microOp :: ms) s = .fault .absentAddr := by
  have hrequest : w.microOp.request s = .error .absentAddr := by
    simp [RegisterWrite.microOp, MicroOp.request, readAddr_none haddr, Except.bind]
  exact run_stopped (perform_of_absent hrequest)

/-- What performing a literal write can do, by the transport's answer. -/
theorem perform_registerWrite_cases (haddr : s.addr = some a) (w : RegisterWrite) :
    (∃ rest, w.microOp.perform s = .advanced (s.advance rest [w.event a .ok])) ∨
    (∃ rest, w.microOp.perform s = .failed (s.failAt rest (w.event a .err))) ∨
    w.microOp.perform s = .waiting (s.issue (.busW a w.1 w.2)) := by
  have hrequest := request_registerWrite haddr w
  rcases takeAnswer_cases (.busW a w.1 w.2) (s.issue (.busW a w.1 w.2)) with
    ⟨_, _, _, rest, -, hinputs, -⟩ | ⟨_, _, _, rest, -, hinputs, -⟩ | ⟨_, _, _, _, hbus, -⟩ |
    ⟨_, _, _, hbus, -⟩ | ⟨_, _, hbus, -⟩ | hwaiting
  · rw [State.issue_inputs] at hinputs
    exact .inl ⟨rest, perform_write_ok hrequest hinputs⟩
  · rw [State.issue_inputs] at hinputs
    exact .inr (.inl ⟨rest, perform_write_err hrequest hinputs⟩)
  · cases hbus
  · cases hbus
  · cases hbus
  · exact .inr (.inr ((perform_of_request hrequest).trans hwaiting))

/-- A run of literal writes shows all of them and then its response, or no response `OK`. -/
theorem run_registerWrites_trace (haddr : s.addr = some a)
    (hrun : c.run (ws.map RegisterWrite.microOp) s = .next t) :
    (∃ data, t.trace = s.trace ++ ws.map (RegisterWrite.event a .ok) ++ [.resp .ok data]) ∨
    (∃ events, t.trace = s.trace ++ events ∧ ∀ data, .resp .ok data ∉ events) := by
  induction ws generalizing s with
  | nil =>
    rw [List.map_nil, run_nil] at hrun
    rcases complete_cases c s with ⟨data, hcomplete⟩ | ⟨-, -, hfault⟩
    · rw [hcomplete] at hrun
      cases hrun
      exact .inl ⟨data, by simp⟩
    · rw [hfault] at hrun
      cases hrun
  | cons w ws ih =>
    rw [List.map_cons] at hrun
    rcases perform_registerWrite_cases haddr w with ⟨rest, hperform⟩ | ⟨rest, hperform⟩ | hperform
    · rw [run_advanced hperform] at hrun
      rcases ih (s := s.advance rest [w.event a .ok]) haddr hrun with
        ⟨data, htrace⟩ | ⟨events, htrace, hquiet⟩
      · exact .inl ⟨data, by simpa using htrace⟩
      · exact .inr ⟨w.event a .ok :: events, by simpa using htrace,
          by simpa [RegisterWrite.event] using hquiet⟩
    · rw [run_failed hperform] at hrun
      cases hrun
      exact .inr ⟨[w.event a .err, .resp (.error .transportError) 0], by simp [Command.abort],
        by simp [RegisterWrite.event]⟩
    · rw [run_waiting hperform] at hrun
      cases hrun
      exact .inr ⟨[], by simp, by simp⟩

end LiteralWrites

/-! ### SETPOS -/

/-- The two writes of SETPOS on a valid channel, low byte first (R190). -/
def setposWrites (p : Params) (c : Byte) (pos : Position) : List RegisterWrite :=
  [(BitVec.ofNat 8 (0x08 + 4 * c.toNat), byteOf (scale p.roundTie pos.toNat) 0),
   (BitVec.ofNat 8 (0x09 + 4 * c.toNat), byteOf (scale p.roundTie pos.toNat) 1)]

theorem program_setpos_eq_writes (p : Params) {c : Byte} (h : c.toNat ≤ 15) (pos : Position) :
    (setposCommand p c pos).program = (setposWrites p c pos).map RegisterWrite.microOp :=
  program_setpos p h pos

theorem exec_setpos_eq_run {c : Byte} {pos : Position} {s : State} {a : DevAddr} {inputs : List Input}
    (hs : s.Usable a) (hc : c.toNat ≤ 15) (hlow : 0 < pos.toNat) (hhigh : pos.toNat < s.params.posMaxExcl)
    (hinputs : s.inputs = inputs) :
    exec (.setpos c pos) s = (setposCommand s.params c pos).run
      ((setposWrites s.params c pos).map RegisterWrite.microOp) (s.running 0 inputs []) := by
  rw [← program_setpos_eq_writes s.params hc]
  exact (setposCommand_registerAccess hc hlow hhigh).execute_eq_run hs hinputs

/-- Settles O30: the refusals are the gate's and the validation's; else each write is one rule, for its answer
`ok` (`run_registerWrite_ok`) or `err` (`run_registerWrite_err`). -/
theorem setposWritesLowThenHigh : Obligations.SetposWritesLowThenHigh := by
  unfold Obligations.SetposWritesLowThenHigh
  refine ⟨?decoding, fun c p s hlc => execute_notUsable rfl hlc,
    fun c p s hlc hc => execute_checkFails rfl hlc (check_setpos_invalidChannel s.params hc p),
    fun c p s hlc hc hp => execute_checkFails rfl hlc (check_setpos_invalidPosition hc hp),
    ?ok, ?firstFails, ?secondFails⟩
  case decoding =>
    intro w hopc
    simp [decode, hopc, checkedFormat]
  case ok =>
    intro c p s a rest hs hc hlow hhigh hinputs
    rw [exec_setpos_eq_run hs hc hlow hhigh hinputs, setposWrites, List.map_cons, List.map_singleton,
      run_registerWrite_ok hs.2, run_registerWrite_ok hs.2, run_nil, complete_running rfl]
    rfl
  case firstFails =>
    intro c p s a rest hs hc hlow hhigh hinputs
    rw [exec_setpos_eq_run hs hc hlow hhigh hinputs, setposWrites, List.map_cons,
      run_registerWrite_err hs.2]
    rfl
  case secondFails =>
    intro c p s a rest hs hc hlow hhigh hinputs
    rw [exec_setpos_eq_run hs hc hlow hhigh hinputs, setposWrites, List.map_cons, List.map_singleton,
      run_registerWrite_ok hs.2, run_registerWrite_err hs.2]
    rfl

/-- A SETPOS that responds `OK` has shown its two writes, whatever state it ran in. -/
theorem exec_setpos_ok_events {c : Byte} {pos : Position} {s t : State} {events : List Event}
    (hexec : exec (.setpos c pos) s = .next t) (htrace : t.trace = s.trace ++ events ++ [.resp .ok 0]) :
    ∃ a, s.addr = some a ∧ events = (setposWrites s.params c pos).map (RegisterWrite.event a .ok) := by
  rcases execute_next hexec with ⟨e, -, rfl⟩ | ⟨-, hcheck, hrun⟩
  · have hresp := congrArg List.getLast? htrace
    simp at hresp
  · rw [program_setpos_eq_writes s.params (channel_le_of_check_setpos hcheck)] at hrun
    change Command.run _ _ s.accept = .next t at hrun
    cases haddr : s.addr with
    | none =>
      have hfault := (run_registerWrite_absent (s := s.accept) haddr).symm.trans hrun
      cases hfault
    | some a =>
      refine ⟨a, rfl, ?_⟩
      rcases run_registerWrites_trace (s := s.accept) haddr hrun with
        ⟨data, hall⟩ | ⟨others, hothers, hquiet⟩
      · have hsame := htrace.symm.trans hall
        rw [State.accept_trace, List.append_assoc, List.append_assoc, List.append_cancel_left_eq] at hsame
        exact (List.append_inj' hsame rfl).1
      · have hsame := htrace.symm.trans hothers
        rw [State.accept_trace, List.append_assoc, List.append_cancel_left_eq] at hsame
        exact absurd (hsame ▸ List.mem_append_right events (List.mem_singleton_self _)) (hquiet 0)

/-- Settles O31: the events are those of `setposWrites` at `ADDR`. -/
theorem setposTraceIsAFunctionOfItsOperands : Obligations.SetposTraceIsAFunctionOfItsOperands := by
  unfold Obligations.SetposTraceIsAFunctionOfItsOperands
  intro c p s s' t t' evs evs' haddr hparams hexec htrace hexec' htrace'
  obtain ⟨a, ha, rfl⟩ := exec_setpos_ok_events hexec htrace
  obtain ⟨a', ha', rfl⟩ := exec_setpos_ok_events hexec' htrace'
  obtain rfl : a = a' := Option.some.inj (ha.symm.trans (haddr.trans ha'))
  rw [hparams]

end Sys2Proof.Machine
end

section
/-! The errors of a command word (`spec/60_exceptions.md` R201 to R206). A decoded command is refused by its gate
or by its operand validation; what refuses it is one value, `Command.refusal`, which is R206's table read from
the word's fields. A command that nothing refuses runs, and every end of a run reports at most a transport
error. -/

namespace Sys2Proof.Machine

/-! ### What refuses a command -/

/-- R132 steps 2 and 3: the error that refuses a command in lifecycle `lc`, if any; the gate comes first
(R206). -/
def Command.refusal (c : Command) (lc : Lifecycle) : Option ErrorKind :=
  if c.gate.admits lc then c.check else some .notUsable

theorem refusal_of_gate_ready {c : Command} (hgate : c.gate = .ready) (lc : Lifecycle) :
    c.refusal lc = if lc = .ready then c.check else some .notUsable := by
  simp only [Command.refusal, hgate, gate_ready_admits]

theorem refusal_of_gate_noDriver {c : Command} (hgate : c.gate = .noDriver) (lc : Lifecycle) :
    c.refusal lc = if lc = .ready then some .notUsable else c.check := by
  simp only [Command.refusal, hgate, gate_noDriver_admits, ite_not]

/-- A refused command is answered with its error and changes nothing but `UPC` (R201, R202, R204). -/
theorem execute_of_refusal {c : Command} {s : State} {e : ErrorKind} (h : c.refusal s.lc = some e) :
    c.execute s = .next (s.finished 0 s.inputs [.resp (.error e) 0]) := by
  unfold Command.refusal at h
  split at h
  case isTrue hadmits => rw [execute_invalid hadmits h, accept_raise]
  case isFalse hrefused =>
    cases h
    rw [execute_refused (Bool.eq_false_of_not_eq_true hrefused), accept_raise]

/-- A command that nothing refuses is run, and ends in one of the ways of `RunEnd`. -/
theorem runEnd_of_not_refused {c : Command} {s t : State} (h : c.refusal s.lc = none)
    (hexec : c.execute s = .next t) :
    ∃ evs, t.trace = s.trace ++ evs ∧ RunEnd c (c.enter s.accept) t evs := by
  unfold Command.refusal at h
  split at h
  case isTrue hadmits =>
    rw [execute_admitted hadmits h] at hexec
    obtain ⟨evs, htrace, -, hend⟩ := run_next hexec
    exact ⟨evs, by simpa using htrace, hend⟩
  case isFalse => cases h

/-! ### What the end of a run reports -/

@[simp] theorem isBusError_resp (code : Code) (data : Byte) : (Event.resp code data).isBusError = false := rfl

@[simp] theorem isResponse_resp (code : Code) (data : Byte) : (Event.resp code data).isResponse = true := rfl

theorem CleanEvents.filter_isBusError {addr : Option DevAddr} {evs : List Event}
    (h : CleanEvents addr evs) : evs.filter Event.isBusError = [] := by
  simpa [List.filter_eq_nil_iff] using h.good

theorem CleanEvents.filter_isResponse {addr : Option DevAddr} {evs : List Event}
    (h : CleanEvents addr evs) : evs.filter Event.isResponse = [] := by
  simpa [List.filter_eq_nil_iff] using h.quiet

/-- A response is among the responses. -/
theorem resp_mem_iff {evs : List Event} {code : Code} {data : Byte} :
    .resp code data ∈ evs ↔ .resp code data ∈ evs.filter Event.isResponse := by
  simp

namespace RunEnd

variable {c : Command} {s t : State} {evs : List Event}

/-- The failing transactions of a run and its responses, in order: none failed, or one did and the response is
the transport error (R203, R207). -/
theorem reports (h : RunEnd c s t evs) :
    (evs.filter Event.isBusError = [] ∧
      (evs.filter Event.isResponse = [] ∨ ∃ data, evs.filter Event.isResponse = [.resp .ok data])) ∨
    (∃ e, evs.filter Event.isBusError = [e] ∧
      evs.filter Event.isResponse = [.resp (.error .transportError) 0]) := by
  cases h with
  | done before data h clean =>
    subst h
    refine .inl ⟨?_, .inr ⟨data, ?_⟩⟩
    · simp [clean.filter_isBusError]
    · simp [clean.filter_isResponse]
  | failed before e h clean err noresp =>
    subst h
    refine .inr ⟨e, ?_, ?_⟩
    · simp [clean.filter_isBusError, err]
    · simp [clean.filter_isResponse, List.filter_cons, noresp]
  | waiting clean => exact .inl ⟨clean.filter_isBusError, .inl clean.filter_isResponse⟩

/-- The only error a run can report is the transport error. -/
theorem error_eq_transportError (h : RunEnd c s t evs) {e : ErrorKind} {d : Byte}
    (hresp : .resp (.error e) d ∈ evs) : e = .transportError := by
  rw [resp_mem_iff] at hresp
  obtain ⟨-, hnone | ⟨data, hok⟩⟩ | ⟨x, -, herr⟩ := h.reports
  · simp [hnone] at hresp
  · simp [hok] at hresp
  · simp only [herr, List.mem_singleton, Event.resp.injEq, Code.error.injEq] at hresp
    exact hresp.1

/-- A run reports the transaction that fails. -/
theorem busError_reported (h : RunEnd c s t evs) {e : Event} (he : e ∈ evs)
    (herror : e.isBusError = true) : .resp (.error .transportError) 0 ∈ evs := by
  obtain ⟨hgood, -⟩ | ⟨x, -, hresp⟩ := h.reports
  · have hmem : e ∈ evs.filter Event.isBusError := List.mem_filter.2 ⟨he, herror⟩
    simp [hgood] at hmem
  · rw [resp_mem_iff, hresp]
    exact List.mem_singleton_self _

theorem busErrors_le_one (h : RunEnd c s t evs) : (evs.filter Event.isBusError).length ≤ 1 := by
  obtain ⟨hgood, -⟩ | ⟨x, hone, -⟩ := h.reports
  · simp [hgood]
  · simp [hone]

theorem responses_le_one (h : RunEnd c s t evs) : (evs.filter Event.isResponse).length ≤ 1 := by
  obtain ⟨-, hnone | ⟨data, hok⟩⟩ | ⟨x, -, herr⟩ := h.reports
  · simp [hnone]
  · simp [hok]
  · simp [herr]

end RunEnd

/-! ### The operand validations -/

theorem check_chwr (k : Kind) (c v : Byte) :
    (chwrCommand k c v).check = if 15 < c.toNat then some .invalidChannel else none := by
  split
  case isTrue h => exact check_chwr_invalid h k v
  case isFalse h => simp [chwrCommand, channelRegister_operand (Nat.le_of_not_lt h)]

theorem check_chrd (k : Kind) (c : Byte) :
    (chrdCommand k c).check = if 15 < c.toNat then some .invalidChannel else none := by
  split
  case isTrue h => exact check_chrd_invalid h k
  case isFalse h => simp [chrdCommand, channelRegister_operand (Nat.le_of_not_lt h)]

/-- SETPOS validates its channel before its position (R190, D12). -/
theorem check_setpos (p : Params) (c : Byte) (pos : Position) :
    (setposCommand p c pos).check =
      if 15 < c.toNat then some .invalidChannel
      else if pos.toNat = 0 ∨ p.posMaxExcl ≤ pos.toNat then some .invalidPosition
      else none := by
  split
  case isTrue h => exact check_setpos_invalidChannel p h pos
  case isFalse h =>
    split
    case isTrue hpos => exact check_setpos_invalidPosition (Nat.le_of_not_lt h) hpos
    case isFalse hpos =>
      rw [check_setpos_of_channel p (Nat.le_of_not_lt h), if_pos]
      rw [validPosition_iff]
      omega

/-- No operand validation finds a lifecycle error (R206). -/
theorem check_ne_notUsable (p : Params) (i : Instr) : (commandOf p i).check ≠ some .notUsable := by
  cases i with
  | setpos c pos =>
    rw [commandOf, check_setpos]
    split_ifs <;> simp
  | chwr k c v =>
    rw [commandOf, check_chwr]
    split_ifs <;> simp
  | chrd k c =>
    rw [commandOf, check_chrd]
    split_ifs <;> simp
  | _ => exact Option.some_ne_none _ ∘ Eq.symm

/-- An admitted command is not answered `NotUsable`: an operand validation finds another error, and a run none
but the transport error. -/
theorem exec_admitted_ne_notUsable {i : Instr} {s t : State} {evs : List Event}
    (hadmits : (commandOf s.params i).gate.admits s.lc = true) (hexec : exec i s = .next t)
    (htrace : t.trace = s.trace ++ evs) (d : Byte) : .resp (.error .notUsable) d ∉ evs := by
  rw [exec_eq_execute] at hexec
  cases hrefusal : (commandOf s.params i).refusal s.lc with
  | some e =>
    rw [execute_of_refusal hrefusal] at hexec
    cases hexec
    obtain rfl := List.append_cancel_left htrace
    have hcheck : (commandOf s.params i).check = some e := by
      rwa [Command.refusal, if_pos hadmits] at hrefusal
    intro hmem
    obtain ⟨rfl, -⟩ : .notUsable = e ∧ d = 0 := by simpa using hmem
    exact check_ne_notUsable s.params i hcheck
  | none =>
    obtain ⟨evs', htrace', hend⟩ := runEnd_of_not_refused hrefusal hexec
    obtain rfl := List.append_cancel_left (htrace.symm.trans htrace')
    intro hmem
    cases hend.error_eq_transportError hmem

/-! ### The table of R206 -/

theorem refusalOf_illegal {w : CommandWord} {x : IllegalWord} (h : decode w = .error x) (p : Params)
    (lc : Lifecycle) : refusalOf p lc w = some .illegalCommand := by
  have hillegal : legalWord w = false := by
    rw [← Bool.not_eq_true, ← exists_decode_iff_legalWord]
    simp [h]
  simp [refusalOf, hillegal]

/-! The operand fields that the validations read: `c` is field `A`, `pos` is field `B` (R84). -/

theorem fields_of_decode_setpos {w : CommandWord} {c : Byte} {pos : Position}
    (h : decode w = .ok (.setpos c pos)) : c = aField w ∧ pos = bField w := by
  have hopc : 0x03 = opcField w := opcode_of_decode h
  obtain ⟨decoding, -⟩ := setposWritesLowThenHigh
  rw [decoding w hopc.symm] at h
  cases h
  exact ⟨rfl, rfl⟩

theorem channel_of_decode_chwr {w : CommandWord} {k : Kind} {c v : Byte}
    (h : decode w = .ok (.chwr k c v)) : c = aField w := by
  have hopc : 0x20 = opcField w := opcode_of_decode h
  obtain ⟨decoding, -⟩ := chwrWritesTheChannelRegister
  rw [decoding w hopc.symm] at h
  split at h <;> cases h
  rfl

theorem channel_of_decode_chrd {w : CommandWord} {k : Kind} {c : Byte}
    (h : decode w = .ok (.chrd k c)) : c = aField w := by
  have hopc : 0x21 = opcField w := opcode_of_decode h
  obtain ⟨decoding, -⟩ := chrdReturnsTheChannelRegister
  rw [decoding w hopc.symm] at h
  split at h <;> cases h
  rfl

/-- For a word that decodes, R206's reading of the fields is what refuses the command. -/
theorem refusalOf_decoded {w : CommandWord} {i : Instr} (h : decode w = .ok i) (p : Params)
    (lc : Lifecycle) : refusalOf p lc w = (commandOf p i).refusal lc := by
  have hlegal : legalWord w = true := (exists_decode_iff_legalWord w).1 ⟨i, h⟩
  have hopc : opcField w = i.opcode := (opcode_of_decode h).symm
  cases i with
  | openDevice a =>
    rw [refusal_of_gate_noDriver rfl]
    simp [refusalOf, hlegal, hopc, Instr.opcode, commandOf, openCommand]
  | setpos c pos =>
    obtain ⟨rfl, rfl⟩ := fields_of_decode_setpos h
    rw [refusal_of_gate_ready rfl, commandOf, check_setpos]
    simp [refusalOf, hlegal, hopc, Instr.opcode]
  | chwr k c v =>
    obtain rfl := channel_of_decode_chwr h
    rw [refusal_of_gate_ready rfl, commandOf, check_chwr]
    simp [refusalOf, hlegal, hopc, Instr.opcode]
  | chrd k c =>
    obtain rfl := channel_of_decode_chrd h
    rw [refusal_of_gate_ready rfl, commandOf, check_chrd]
    simp [refusalOf, hlegal, hopc, Instr.opcode]
  | _ =>
    rw [refusal_of_gate_ready rfl]
    simp [refusalOf, hlegal, hopc, Instr.opcode, commandOf, closeCommand, wrregCommand, rdregCommand,
      setbitCommand, clrbitCommand]

/-! ### A command word on the command port -/

/-- An idle block runs the command of the word it takes. -/
theorem step_decoded {s : State} {w : CommandWord} {i : Instr} {rest : List Input}
    (hparams : s.params.wf = true) (hidle : s.phase = .idle) (hinputs : s.inputs = .command w :: rest)
    (hdecode : decode w = .ok i) :
    step s = (commandOf s.params i).execute ({ s with inputs := rest }.latch w) := by
  simp [step, hparams, activity_command hidle hinputs, hdecode, exec_eq_execute]

/-- A word that R206's table refuses is answered with the table's error, and with no transaction. -/
theorem step_refused {s : State} {w : CommandWord} {rest : List Input} {e : ErrorKind}
    (hparams : s.params.wf = true) (hidle : s.phase = .idle) (hinputs : s.inputs = .command w :: rest)
    (hrefusal : refusalOf s.params s.lc w = some e) :
    step s = .next { s.finished 0 rest [.cmd w, .resp (.error e) 0] with cmd := some w } := by
  cases hdecode : decode w with
  | error x =>
    rw [refusalOf_illegal hdecode] at hrefusal
    cases hrefusal
    exact step_illegal hparams hidle hinputs hdecode
  | ok i =>
    rw [refusalOf_decoded hdecode] at hrefusal
    have hanswer := execute_of_refusal (s := State.latch w { s with inputs := rest }) hrefusal
    rw [step_decoded hparams hidle hinputs hdecode, hanswer]
    simp [State.finished, State.latch]

/-- A word that R206's table does not refuse decodes, and its command runs. -/
theorem step_not_refused {s t : State} {w : CommandWord} {rest : List Input}
    (hparams : s.params.wf = true) (hidle : s.phase = .idle) (hinputs : s.inputs = .command w :: rest)
    (hrefusal : refusalOf s.params s.lc w = none) (hstep : step s = .next t) :
    ∃ i start evs, decode w = .ok i ∧ t.trace = s.trace ++ .cmd w :: evs ∧
      RunEnd (commandOf s.params i) start t evs := by
  cases hdecode : decode w with
  | error x =>
    rw [refusalOf_illegal hdecode] at hrefusal
    cases hrefusal
  | ok i =>
    rw [refusalOf_decoded hdecode] at hrefusal
    rw [step_decoded hparams hidle hinputs hdecode] at hstep
    obtain ⟨evs, htrace, hend⟩ :=
      runEnd_of_not_refused (s := State.latch w { s with inputs := rest }) hrefusal hstep
    exact ⟨i, _, evs, rfl, by simpa using htrace, hend⟩

/-! ### The obligations -/

/-- Settles O35: the gate of each command is the table of R204; a refused command is answered by the gate, an
admitted one never with `NotUsable` (`exec_admitted_ne_notUsable`). -/
theorem lifecycleGate : Obligations.LifecycleGate := by
  unfold Obligations.LifecycleGate
  intro i s admitted
  have hgate : admitted ↔ (commandOf s.params i).gate.admits s.lc = true := by
    cases i with
    | openDevice a =>
      change _ ↔ Gate.noDriver.admits s.lc = true
      rw [gate_noDriver_admits]
      cases hlc : s.lc <;> simp [admitted, hlc]
    | _ =>
      change _ ↔ Gate.ready.admits s.lc = true
      rw [gate_ready_admits]
      cases hlc : s.lc <;> simp [admitted, hlc]
  rw [hgate]
  refine ⟨fun hrefused => ?refused, fun hadmits t evs => exec_admitted_ne_notUsable hadmits⟩
  rw [exec_eq_execute, execute_refused (Bool.eq_false_of_not_eq_true hrefused), accept_raise]

/-- Settles O36: the channel is the first operand that each of the three commands validates. -/
theorem invalidChannelHasNoTraffic : Obligations.InvalidChannelHasNoTraffic := by
  unfold Obligations.InvalidChannelHasNoTraffic
  rintro s c hlc hc i (⟨p, rfl⟩ | ⟨k, v, rfl⟩ | ⟨k, rfl⟩)
  · exact execute_checkFails rfl hlc (check_setpos_invalidChannel s.params hc p)
  · exact execute_checkFails rfl hlc (check_chwr_invalid hc k v)
  · exact execute_checkFails rfl hlc (check_chrd_invalid hc k)

/-- Settles O37: with a valid channel, the position is what SETPOS validates. -/
theorem invalidPositionHasNoTraffic : Obligations.InvalidPositionHasNoTraffic := by
  unfold Obligations.InvalidPositionHasNoTraffic
  intro s c p hlc hc hp
  have hpos : p.toNat = 0 ∨ s.params.posMaxExcl ≤ p.toNat := hp.imp_left (congrArg BitVec.toNat)
  exact execute_checkFails rfl hlc (check_setpos_invalidPosition hc hpos)

/-- Settles O38: the table is what refuses (`step_refused`); a word that it does not refuse runs, and the four
facts of the end of a run are those of `RunEnd`. -/
theorem errorPriority : Obligations.ErrorPriority := by
  unfold Obligations.ErrorPriority
  intro s w rest hparams hidle hinputs
  refine ⟨fun e => step_refused hparams hidle hinputs, fun hrefusal t hstep => ?runs⟩
  obtain ⟨_, _, evs, -, htrace, hend⟩ := step_not_refused hparams hidle hinputs hrefusal hstep
  exact ⟨evs, htrace, fun _ _ => hend.error_eq_transportError, fun _ => hend.busError_reported,
    hend.busErrors_le_one, hend.responses_le_one⟩

end Sys2Proof.Machine
end

section
/-! The encoding against the decoder (`spec/30_encoding.md` R82 to R85, R91): both are read field by field, and
a format's field is its reserved bits, its kind and its operand put together. -/

namespace Sys2Proof

/-! ### The parts of a field -/

/-- Reserved bits that are zero, put back before the operand below them. -/
theorem reserved_append {m n : Nat} {x : BitVec (m + n)} (h : x.extractLsb' n m = 0#m) :
    0#m ++ x.extractLsb' 0 n = x := by
  rw [← h, BitVec.extractLsb'_append_extractLsb'_eq_extractLsb' (by simp), BitVec.extractLsb'_eq_self]

/-- `B` of CHWR and CHRD (R82): reserved bits, the kind, a byte. -/
theorem reserved_append_kind {b : BitVec 16} (h : b.extractLsb' 10 6 = 0#6) :
    0#6 ++ b.extractLsb' 8 2 ++ b.extractLsb' 0 8 = b := by
  rw [← h, BitVec.extractLsb'_append_extractLsb'_eq_extractLsb' (by simp)]
  exact (BitVec.extractLsb'_append_extractLsb'_eq_extractLsb' (by simp)).trans BitVec.extractLsb'_eq_self

theorem extract_kind (k : BitVec 2) (v : Byte) : (0#6 ++ k ++ v : BitVec 16).extractLsb' 8 2 = k :=
  (BitVec.extractLsb'_append_eq_of_le (by decide)).trans BitVec.extractLsb'_append_eq_right

theorem extract_aboveKind (k : BitVec 2) (v : Byte) :
    (0#6 ++ k ++ v : BitVec 16).extractLsb' 10 6 = 0#6 :=
  (BitVec.extractLsb'_append_eq_of_le (by decide)).trans BitVec.extractLsb'_append_eq_left

theorem extract_belowKind (k : BitVec 2) (v : Byte) : (0#6 ++ k ++ v : BitVec 16).extractLsb' 0 8 = v :=
  BitVec.extractLsb'_append_eq_right

/-! ### Decoding and encoding -/

/-- Settles O1: `OPC` selects the command's format (`opcField_wordOfFields`), and the parts of its fields
come back as they were put together. -/
theorem decodeOfEncodeIsTheCommand : Obligations.DecodeOfEncodeIsTheCommand := by
  unfold Obligations.DecodeOfEncodeIsTheCommand
  intro i
  cases i
  case closeDevice | setpos c p | rdreg r => simp [encode, decode, Instr.opcode, checkedFormat]
  case openDevice a =>
    simp [encode, decode, Instr.opcode, checkedFormat, BitVec.extractLsb'_append_eq_left (w := 1) (w' := 7),
      BitVec.extractLsb'_append_eq_right (w := 1) (w' := 7)]
  case wrreg r v =>
    simp [encode, decode, Instr.opcode, checkedFormat, BitVec.extractLsb'_append_eq_left (w := 8) (w' := 8),
      BitVec.extractLsb'_append_eq_right (w := 8) (w' := 8)]
  case setbit r b | clrbit r b =>
    simp [encode, decode, Instr.opcode, checkedFormat, BitVec.extractLsb'_append_eq_left (w := 13) (w' := 3),
      BitVec.extractLsb'_append_eq_right (w := 13) (w' := 3)]
  case chwr k c v | chrd k c =>
    simp [encode, decode, Instr.opcode, checkedFormat, extract_kind, extract_aboveKind, extract_belowKind]

/-- Settles O2: the opcode is the command's (`opcode_of_decode`), and under it the decoder has tested the
reserved bits for the zeros that the encoding puts there. -/
theorem encodeOfDecodeIsTheWord : Obligations.EncodeOfDecodeIsTheWord := by
  unfold Obligations.EncodeOfDecodeIsTheWord
  intro w i hdecode
  have hopc : i.opcode = opcField w := opcode_of_decode hdecode
  cases i
  all_goals
    simp [decode, ← hopc, Instr.opcode, checkedFormat_eq_ok_iff] at hdecode
    simp only [encode, eq_iff_fields, opcField_wordOfFields, aField_wordOfFields, bField_wordOfFields]
  case openDevice a =>
    obtain ⟨⟨hreserved, hb⟩, rfl⟩ := hdecode
    exact ⟨hopc, reserved_append (m := 1) (n := 7) hreserved, hb.symm⟩
  case closeDevice => exact ⟨hopc, hdecode.1.symm, hdecode.2.symm⟩
  case setpos c p => exact ⟨hopc, hdecode.1.symm, hdecode.2.symm⟩
  case wrreg r v =>
    obtain ⟨hreserved, ha, rfl⟩ := hdecode
    exact ⟨hopc, ha.symm, reserved_append (m := 8) (n := 8) hreserved⟩
  case rdreg r => exact ⟨hopc, hdecode.2.symm, hdecode.1.symm⟩
  case setbit r b | clrbit r b =>
    obtain ⟨hreserved, ha, rfl⟩ := hdecode
    exact ⟨hopc, ha.symm, reserved_append (m := 13) (n := 3) hreserved⟩
  case chwr k c v =>
    obtain ⟨hreserved, rfl, ha, rfl⟩ := hdecode
    exact ⟨hopc, ha.symm, by rw [kind_code_ofCode, reserved_append_kind hreserved]⟩
  case chrd k c =>
    obtain ⟨⟨hreserved, hlow⟩, rfl, ha⟩ := hdecode
    exact ⟨hopc, ha.symm, by rw [kind_code_ofCode, ← hlow, reserved_append_kind hreserved]⟩

/-! ### Listing lines -/

theorem toNat_wordOfFields (opc a : Byte) (b : BitVec 16) :
    (wordOfFields opc a b).toNat = opc.toNat <<< 24 ||| a.toNat <<< 16 ||| b.toNat := by
  simp only [wordOfFields, BitVec.toNat_append, Nat.shiftLeft_or_distrib, ← Nat.shiftLeft_add]

/-- Reserved bits do not show in a field's number. -/
theorem toNat_reserved_append {m n : Nat} (x : BitVec n) : (0#m ++ x).toNat = x.toNat := by
  simp [BitVec.toNat_append]

theorem toNat_reserved_append_kind (k : BitVec 2) (v : Byte) :
    (0#6 ++ k ++ v : BitVec 16).toNat = k.toNat <<< 8 ||| v.toNat :=
  (BitVec.toNat_append ..).trans (by rw [toNat_reserved_append])

/-- The word column of R91 is the encoding of the line's command: in range, no operand is truncated. -/
theorem toNat_encode_toInstr {l : SourceLine} (h : l.wf = true) : (encode l.toInstr).toNat = l.word := by
  cases l with
  | closeDevice => rfl
  | _ =>
    simp only [SourceLine.wf, Bool.and_eq_true, decide_eq_true_eq] at h
    simp (disch := omega) [encode, SourceLine.toInstr, SourceLine.word, Instr.opcode, toNat_wordOfFields,
      toNat_reserved_append (m := 1) (n := 7), toNat_reserved_append (m := 8) (n := 8),
      toNat_reserved_append (m := 13) (n := 3), toNat_reserved_append_kind, Nat.mod_eq_of_lt, Nat.or_assoc]

/-- Settles O5: the assembled word is the encoding of the line's command (`toNat_encode_toInstr`), which
decodes to it (O1). -/
theorem assembledLineDecodesToItsCommand : Obligations.AssembledLineDecodesToItsCommand := by
  unfold Obligations.AssembledLineDecodesToItsCommand
  refine ⟨fun l hl => ?inRange, fun l hl => ?outOfRange⟩
  case inRange =>
    have hword : BitVec.ofNat 32 l.word = encode l.toInstr := by
      rw [← toNat_encode_toInstr hl, BitVec.ofNat_toNat, BitVec.setWidth_eq]
    refine ⟨if_pos hl, ?_, ?_⟩
    · rw [← toNat_encode_toInstr hl]
      exact (encode l.toInstr).isLt
    · rw [hword]
      exact decodeOfEncodeIsTheCommand l.toInstr
  case outOfRange => simp [SourceLine.assemble, hl]

/-- Settles O4: the decoder evaluated on each word. -/
theorem sampleWordsDecode : Obligations.SampleWordsDecode := by
  unfold Obligations.SampleWordsDecode
  decide

end Sys2Proof
end

section
/-! The constraints on the parameters, and what follows from them for the register map (`spec/00_scope.md` R8,
`spec/10_state.md` R30, R37): names have addresses of their own, so the byte that OPEN writes to a register is
known by the register's name. -/

namespace Sys2Proof.Machine

/-! ### The constraints -/

theorem wf_default (tie : RoundTie) : (Params.default tie).wf = true := by
  cases tie <;> decide

/-- Settles O57: the four checks of `Params.wf` as propositions. -/
theorem parametersAreChecked : Obligations.ParametersAreChecked := by
  unfold Obligations.ParametersAreChecked
  refine ⟨fun p => ?constraints, wf_default, fun s hparams => ?refused⟩
  case constraints =>
    have hregs : p.regsDistinct = true ↔ p.specialRegs.Nodup := decide_eq_true_iff
    have hrange : p.regsOutsideChannels = true ↔
        ∀ r ∈ p.specialRegs, ¬ (0x06 ≤ r.toNat ∧ r.toNat ≤ 0x45) := by
      simp only [Params.regsOutsideChannels, List.all_eq_true, decide_eq_true_eq]
      exact forall₂_congr fun r _ => by omega
    have hbits : p.bitsDistinct = true ↔
        p.bitAllcall ≠ 4 ∧ p.bitRestart ≠ 4 ∧ p.bitAllcall ≠ p.bitRestart := by
      simp only [Params.bitsDistinct, Config.bitSleep, decide_eq_true_eq, List.nodup_cons, List.mem_cons,
        List.not_mem_nil, or_false, not_or, ne_comm (a := p.bitRestart)]
      tauto
    have hpos : p.posBoundOk = true ↔ 2 ≤ p.posMaxExcl ∧ p.posMaxExcl ≤ 19581 := by
      simp [Params.posBoundOk]
    simp only [Params.wf, Bool.and_eq_true, hregs, hrange, hbits, hpos, and_assoc]
    rfl
  case refused => simp [step, hparams]

/-- R8 on the seven special registers. -/
theorem specialRegs_of_wf {p : Params} (hp : p.wf = true) :
    p.specialRegs.Nodup ∧ ∀ r ∈ p.specialRegs, ¬ (0x06 ≤ r.toNat ∧ r.toNat ≤ 0x45) := by
  obtain ⟨hdistinct, hrange, -⟩ := (parametersAreChecked.1 p).1 hp
  exact ⟨hdistinct, hrange⟩

theorem posMaxExcl_le_of_wf {p : Params} (hp : p.wf = true) : p.posMaxExcl ≤ 19581 := by
  obtain ⟨-, -, -, -, -, -, hbound⟩ := (parametersAreChecked.1 p).1 hp
  exact hbound

/-! ### The register map -/

/-- The names of the registers that are no channel's (R30). -/
def specialNames : List RegName :=
  [.mode1, .mode2, .allOnLow, .allOnHigh, .allOffLow, .allOffHigh, .preScale]

theorem map_address_specialNames (p : Params) :
    specialNames.map (RegName.address p) = p.specialRegs := rfl

theorem regName_cases (n : RegName) : n ∈ specialNames ∨ ∃ k c, n = .channel k c := by
  cases n with
  | channel k c => exact .inr ⟨k, c, rfl⟩
  | _ => exact .inl (by decide)

theorem channelRegister_address (p : Params) (k : Kind) (c : Fin 16) :
    channelRegister k c.val = .ok (RegName.address p (.channel k c)) := by
  rw [channelRegister_natCast k (Nat.le_of_lt_succ c.isLt), RegName.address, kindBase_eq_code, Config.chStride,
    Nat.add_right_comm]

/-- No special register lies among the channel registers (R8). -/
theorem address_special_ne_channel {p : Params} (hp : p.wf = true) {n : RegName} (hn : n ∈ specialNames)
    (k : Kind) (c : Fin 16) : n.address p ≠ RegName.address p (.channel k c) := by
  intro heq
  obtain ⟨-, hrange⟩ := specialRegs_of_wf hp
  refine hrange (n.address p) ?_ ?_
  · rw [← map_address_specialNames]
    exact List.mem_map_of_mem hn
  · rw [heq, ← exists_channelRegister_eq_ok_iff]
    exact ⟨k, c.val, channelRegister_address p k c⟩

theorem address_injective {p : Params} (hp : p.wf = true) : Function.Injective (RegName.address p) := by
  intro n n' heq
  obtain ⟨hdistinct, -⟩ := specialRegs_of_wf hp
  rw [← map_address_specialNames] at hdistinct
  rcases regName_cases n with hn | ⟨k, c, rfl⟩ <;> rcases regName_cases n' with hn' | ⟨k', c', rfl⟩
  · exact List.inj_on_of_nodup_map hdistinct hn hn' heq
  · exact absurd heq (address_special_ne_channel hp hn k' c')
  · exact absurd heq.symm (address_special_ne_channel hp hn' k c)
  · obtain ⟨rfl, hc⟩ := channelRegister_injective (channelRegister_address p k c)
      (heq ▸ channelRegister_address p k' c')
    obtain rfl : c = c' := Fin.ext (Int.ofNat.inj hc)
    rfl

/-- Settles O11: the special registers are distinct and outside the range that the channel registers are in one
to one (`channelRegister_injective`). -/
theorem registerMapIsInjective : Obligations.RegisterMapIsInjective := by
  unfold Obligations.RegisterMapIsInjective
  exact fun p hp n n' heq => address_injective hp heq

/-! ### High bytes -/

/-- The registers whose bits 7:4 R37 wants zero. -/
def RegName.IsHigh : RegName → Prop
  | .channel .onHigh _ => True
  | .channel .offHigh _ => True
  | .allOnHigh => True
  | .allOffHigh => True
  | _ => False

/-- A write of `v` at `reg` that keeps R37: the register's name, and the byte where the name is a high one. -/
def KeepsUpperBitsZero (p : Params) (reg v : Byte) : Prop :=
  ∃ n : RegName, reg = n.address p ∧ (n.IsHigh → v &&& 0xF0 = 0)

/-- The high byte of a 12-bit tick. -/
theorem upperBits_pack_snd {tick : Nat} (h : tick ≤ 4095) : (pack tick).2 &&& 0xF0 = 0 := by
  have hsmall : (pack tick).2.toNat < 16 := by
    rw [toNat_pack_snd h]
    omega
  have hnibble : ∀ b : Byte, b.toNat < 16 → b &&& 0xF0 = 0 := by decide
  exact hnibble _ hsmall

theorem scale_le_of_valid {p : Params} (hp : p.wf = true) {pos : Nat} (hpos : validPosition p pos = true) :
    scale p.roundTie pos ≤ 4095 := by
  obtain ⟨-, -, -, -, hrange, -⟩ := scaleShapeAndRange
  have hhigh := ((validPosition_iff p pos).1 hpos).2
  have hbound := posMaxExcl_le_of_wf hp
  exact hrange p.roundTie pos (by omega)

/-- The literal writes of OPEN (R151 to R154): the prescale, and two ticks, each in a low and a high byte. -/
theorem open_keepsUpperBitsZero {p : Params} {a : DevAddr} {reg v : Byte}
    (h : .uW reg (.lit v) ∈ (openCommand p a).program) : KeepsUpperBitsZero p reg v := by
  simp only [openCommand, openProgramSetup, openProgramStart, List.mem_append, List.mem_cons,
    List.not_mem_nil, MicroOp.uW.injEq, ByteExpr.lit.injEq, reduceCtorEq, and_false, or_false,
    false_or] at h
  rcases h with ⟨rfl, -⟩ | ⟨rfl, -⟩ | ⟨rfl, rfl⟩ | ⟨rfl, -⟩ | ⟨rfl, rfl⟩
  · exact ⟨.preScale, rfl, False.elim⟩
  · exact ⟨.allOnLow, rfl, False.elim⟩
  · exact ⟨.allOnHigh, rfl, fun _ => upperBits_pack_snd (tick := Config.pulseStart) (by decide)⟩
  · exact ⟨.allOffLow, rfl, False.elim⟩
  · exact ⟨.allOffHigh, rfl, fun _ => upperBits_pack_snd (tick := Config.pulseEndMid) (by decide)⟩

/-- The two writes of a valid SETPOS (R190): a 12-bit tick in a low and a high byte. -/
theorem setpos_keepsUpperBitsZero {p : Params} (hp : p.wf = true) {c : Byte} {pos : Position} {reg v : Byte}
    (hcheck : (setposCommand p c pos).check = none)
    (h : .uW reg (.lit v) ∈ (setposCommand p c pos).program) : KeepsUpperBitsZero p reg v := by
  have hc : c.toNat ≤ 15 := channel_le_of_check_setpos hcheck
  have hvalid : validPosition p pos.toNat = true := by
    by_contra hinvalid
    rw [check_setpos_of_channel p hc, if_neg hinvalid] at hcheck
    cases hcheck
  rw [program_setpos_eq_writes p hc] at h
  simp only [setposWrites, RegisterWrite.microOp, List.map_cons, List.map_nil, List.mem_cons,
    List.not_mem_nil, MicroOp.uW.injEq, ByteExpr.lit.injEq, or_false] at h
  rcases h with ⟨rfl, -⟩ | ⟨rfl, rfl⟩
  · exact ⟨.channel .offLow ⟨c.toNat, Nat.lt_succ_of_le hc⟩, rfl, False.elim⟩
  · exact ⟨.channel .offHigh ⟨c.toNat, Nat.lt_succ_of_le hc⟩, rfl,
      fun _ => upperBits_pack_snd (scale_le_of_valid hp hvalid)⟩

/-- The high registers of R37 have high names. -/
theorem exists_isHigh {p : Params} {reg : Byte}
    (h : reg = p.regAllOnH ∨ reg = p.regAllOffH ∨ ∃ c : Fin 16,
      reg = RegName.address p (.channel .onHigh c) ∨ reg = RegName.address p (.channel .offHigh c)) :
    ∃ n : RegName, n.IsHigh ∧ n.address p = reg := by
  rcases h with rfl | rfl | ⟨c, rfl | rfl⟩
  · exact ⟨.allOnHigh, trivial, rfl⟩
  · exact ⟨.allOffHigh, trivial, rfl⟩
  · exact ⟨.channel .onHigh c, trivial, rfl⟩
  · exact ⟨.channel .offHigh c, trivial, rfl⟩

/-- Settles O16: each literal write is to a register known by name, and an address has one name
(`address_injective`), so a write that reaches a high register is one of the high bytes. -/
theorem highByteUpperBitsAreZero : Obligations.HighByteUpperBitsAreZero := by
  unfold Obligations.HighByteUpperBitsAreZero
  refine ⟨fun p i n reg v hp hi hcheck hmicroOp hreg => ?writes, fun p pos hp hpos => ?positions,
    upperBits_pack_snd (by decide)⟩
  case writes =>
    have hmem := List.mem_of_getElem? hmicroOp
    have hwrite : KeepsUpperBitsZero p reg v := by
      rcases hi with ⟨a, rfl⟩ | ⟨c, pos, rfl⟩
      · exact open_keepsUpperBitsZero hmem
      · exact setpos_keepsUpperBitsZero hp hcheck hmem
    obtain ⟨name, rfl, hzero⟩ := hwrite
    obtain ⟨high, hhigh, hsame⟩ := exists_isHigh hreg
    exact hzero (address_injective hp hsame ▸ hhigh)
  case positions =>
    have htick := scale_le_of_valid hp hpos
    exact ⟨htick, upperBits_pack_snd htick⟩

/-- Settles O17: the formulas evaluated; neither tie rule is asked, as 407 is exact. -/
theorem designConstantsMatchTheFormulas : Obligations.DesignConstantsMatchTheFormulas := by
  unfold Obligations.DesignConstantsMatchTheFormulas
  decide

end Sys2Proof.Machine
end

section
/-! What a step can do, once: the whole-machine rules about the trace, `ADDR`, `LC` and the responses
(`spec/10_state.md` R20 to R29, `spec/41_register_access.md` R132, `spec/60_exceptions.md` R203, R207,
`spec/70_reset_and_hazards.md` R230) are read off the cases. -/

namespace Sys2Proof.Machine

/-! ### The next activity -/

/-- Reset is taken when the block is idle or a request is outstanding (log 6). -/
theorem activity_reset {s : State} {rest : List Input} (h : s.phase = .idle ∨ s.pending ≠ none)
    (hinputs : s.inputs = .reset :: rest) : s.activity = .reset { s with inputs := rest } := by
  cases hphase : s.phase with
  | idle => simp [State.activity, hphase, hinputs]
  | executing =>
    obtain ⟨r, hr⟩ := Option.ne_none_iff_exists'.1 (h.resolve_left (by simp [hphase]))
    simp [State.activity, hphase, hr, hinputs]

theorem activity_goOn {s : State} (hbusy : s.phase = .executing)
    (hreset : ∀ rest, s.inputs ≠ .reset :: rest) : s.activity = .goOn := by
  unfold State.activity
  rw [hbusy]
  dsimp only
  split
  case h_1 _ hinputs => exact absurd hinputs (hreset _)
  case h_2 => rfl

/-- What the block can do next. -/
theorem activity_cases (s : State) :
    (∃ rest, s.inputs = .reset :: rest ∧ s.activity = .reset { s with inputs := rest }) ∨
    (∃ w rest, s.phase = .idle ∧ s.inputs = .command w :: rest ∧
      s.activity = .command w { s with inputs := rest }) ∨
    (s.phase = .executing ∧ s.activity = .goOn) ∨
    (s.phase = .idle ∧ s.activity = .wait) := by
  cases hphase : s.phase with
  | idle =>
    rcases hinputs : s.inputs with _ | ⟨x, rest⟩
    · simp [State.activity, hphase, hinputs]
    · cases x <;> simp [State.activity, hphase, hinputs]
  | executing =>
    by_cases htaken : s.pending ≠ none ∧ ∃ rest, s.inputs = .reset :: rest
    · obtain ⟨hpending, rest, hinputs⟩ := htaken
      exact .inl ⟨rest, hinputs, hphase ▸ activity_reset (.inr hpending) hinputs⟩
    · refine .inr (.inr (.inl ⟨rfl, ?_⟩))
      by_cases hpending : s.pending = none
      · exact activity_of_quiet hphase hpending
      · exact activity_goOn hphase fun rest hinputs => htaken ⟨hpending, rest, hinputs⟩

/-! ### The cases of a step -/

/-- How a step can end in a next state. -/
inductive StepCase (s t : State) : Prop
  /-- the reset input (R230) -/
  | reset (rest : List Input) (hinputs : s.inputs = .reset :: rest)
      (h : t = { s with inputs := rest }.assertReset)
  /-- an illegal word (R205) -/
  | illegal (w : CommandWord) (rest : List Input) (hidle : s.phase = .idle)
      (hinputs : s.inputs = .command w :: rest) (h : t = ({ s with inputs := rest }.latch w).rejectWord)
  /-- a word accepted and its command executed (R132) -/
  | accepted (w : CommandWord) (i : Instr) (rest : List Input) (hidle : s.phase = .idle)
      (hinputs : s.inputs = .command w :: rest) (hdecode : decode w = .ok i)
      (h : (commandOf s.params i).execute ({ s with inputs := rest }.latch w) = .next t)
  /-- the command in `CMD` gone on with -/
  | resumed (w : CommandWord) (i : Instr) (hbusy : s.phase = .executing) (hcmd : s.cmd = some w)
      (hdecode : decode w = .ok i) (h : (commandOf s.params i).resume s = .next t)
  /-- a word in `CMD` that is no command: no run reaches this (`State.Inv`) -/
  | undecodable (w : CommandWord) (e : IllegalWord) (hbusy : s.phase = .executing) (hcmd : s.cmd = some w)
      (hdecode : decode w = .error e) (h : t = s.rejectWord)
  /-- an idle block without a word to take (R231) -/
  | waits (hidle : s.phase = .idle) (h : t = s)

theorem step_next {s t : State} (h : step s = .next t) : StepCase s t := by
  unfold step at h
  split at h
  case isFalse => cases h
  case isTrue =>
    rcases activity_cases s with ⟨rest, hinputs, hactivity⟩ | ⟨w, rest, hidle, hinputs, hactivity⟩ |
      ⟨hbusy, hactivity⟩ | ⟨hidle, hactivity⟩
    all_goals
      rw [hactivity] at h
      dsimp only at h
    · cases h
      exact .reset rest hinputs rfl
    · cases hdecode : decode w with
      | error e =>
        rw [hdecode] at h
        cases h
        exact .illegal w rest hidle hinputs rfl
      | ok i =>
        rw [hdecode] at h
        exact .accepted w i rest hidle hinputs hdecode ((exec_eq_execute i _).symm.trans h)
    · unfold State.resume at h
      cases hcmd : s.cmd with
      | none =>
        rw [hcmd] at h
        cases h
      | some w =>
        cases hdecode : decode w with
        | error e =>
          simp only [hcmd, hdecode] at h
          cases h
          exact .undecodable w e hbusy hcmd hdecode rfl
        | ok i =>
          simp only [hcmd, hdecode] at h
          exact .resumed w i hbusy hcmd hdecode h
    · cases h
      exact .waits hidle rfl

/-- A busy block takes reset, or goes on with the word in `CMD`. -/
theorem step_busy {s t : State} (hbusy : s.phase = .executing) (h : step s = .next t) :
    (∃ rest, s.inputs = .reset :: rest ∧ t.trace = s.trace) ∨
    (∃ w i, s.cmd = some w ∧ decode w = .ok i ∧ (commandOf s.params i).resume s = .next t) ∨
    (∃ w e, s.cmd = some w ∧ decode w = .error e ∧ t = s.rejectWord) := by
  have hnotIdle : s.phase ≠ .idle := by simp [hbusy]
  cases step_next h with
  | reset rest hinputs h => exact .inl ⟨rest, hinputs, by simp [h]⟩
  | illegal w rest hidle hinputs h => exact absurd hidle hnotIdle
  | accepted w i rest hidle hinputs hdecode h => exact absurd hidle hnotIdle
  | resumed w i hbusy hcmd hdecode h => exact .inr (.inl ⟨w, i, hcmd, hdecode, h⟩)
  | undecodable w e hbusy hcmd hdecode h => exact .inr (.inr ⟨w, e, hcmd, hdecode, h⟩)
  | waits hidle h => exact absurd hidle hnotIdle

/-! ### The cases of a command, as it is accepted or when it goes on -/

/-- Where the micro-operations of a command begin or go on: at `s`, or after R132 steps 2 to 4. -/
structure Command.StartsAt (c : Command) (s start : State) : Prop where
  busy : start.phase = .executing
  lc : start.lc = s.lc
  cmd : start.cmd = s.cmd
  params : start.params = s.params
  inputs : start.inputs = s.inputs
  trace : start.trace = s.trace
  addr : start.addr = s.addr ∨
    ∃ a, c.newAddr = some a ∧ c.gate.admits s.lc = true ∧ start.addr = some a

/-- How a command can end in a next state: refused by its gate or its operand validation, or run. -/
inductive CommandCase (c : Command) (s t : State) : Prop
  | refused (e : ErrorKind) (why : e = .notUsable ∨ c.check = some e)
      (h : t = s.finished 0 s.inputs [.resp (.error e) 0])
  | ran (start : State) (evs : List Event) (starts : c.StartsAt s start)
      (trace : t.trace = s.trace ++ evs) (kept : Kept start t) (ends : RunEnd c start t evs)

theorem Command.StartsAt.commandCase {c : Command} {s start t : State} {ms : List MicroOp}
    (h : c.StartsAt s start) (hrun : c.run ms start = .next t) : CommandCase c s t := by
  obtain ⟨evs, htrace, hkept, hend⟩ := run_next hrun
  exact .ran start evs h (by rw [htrace, h.trace]) hkept hend

theorem execute_commandCase {c : Command} {s t : State} (h : c.execute s = .next t) :
    CommandCase c s t := by
  rcases execute_next h with ⟨e, hwhy, rfl⟩ | ⟨hadmits, -, hrun⟩
  · exact .refused e (hwhy.imp And.right And.right) rfl
  · refine Command.StartsAt.commandCase ⟨by simp, by simp, by simp, by simp, by simp, by simp, ?_⟩ hrun
    cases hnew : c.newAddr with
    | none => exact .inl (by simp [hnew])
    | some a => exact .inr ⟨a, rfl, hadmits, by simp [hnew]⟩

theorem resume_commandCase {c : Command} {s t : State} (hbusy : s.phase = .executing)
    (h : c.resume s = .next t) : CommandCase c s t :=
  Command.StartsAt.commandCase ⟨hbusy, rfl, rfl, rfl, rfl, rfl, .inl rfl⟩ h

namespace CommandCase

variable {c : Command} {s t : State}

theorem cmd (h : CommandCase c s t) : t.cmd = s.cmd := by
  cases h with
  | refused e why h => rw [h, State.finished_cmd]
  | ran start evs starts trace kept ends => exact kept.cmd.trans starts.cmd

theorem params (h : CommandCase c s t) : t.params = s.params := by
  cases h with
  | refused e why h => rw [h, State.finished_params]
  | ran start evs starts trace kept ends => exact kept.params.trans starts.params

/-- `ADDR` is changed by an admitted command that has a new one (R22). -/
theorem addr (h : CommandCase c s t) :
    t.addr = s.addr ∨ ∃ a, c.newAddr = some a ∧ c.gate.admits s.lc = true ∧ t.addr = some a := by
  cases h with
  | refused e why h => exact .inl (by rw [h, State.finished_addr])
  | ran start evs starts trace kept ends =>
    rw [kept.addr]
    exact starts.addr

end CommandCase

/-! ### What every step extends -/

/-- `t` has the events of `s` and more, every new transaction at the address in `ADDR`; the moves left are the
last ones of `s`; the parameters are those of `s`. -/
structure Extends (s t : State) : Prop where
  events : ∃ evs, t.trace = s.trace ++ evs ∧ ∀ e ∈ evs, ∀ a, e.busAddress = some a → t.addr = some a
  inputs : ∃ taken, s.inputs = taken ++ t.inputs
  params : t.params = s.params

/-- Every transaction of a run is at the address in `ADDR`. -/
theorem RunEnd.at_addr {c : Command} {s t : State} {evs : List Event} (h : RunEnd c s t evs) :
    ∀ e ∈ evs, ∀ a, e.busAddress = some a → s.addr = some a := by
  cases h with
  | done before data h clean =>
    subst h
    simpa [or_imp, forall_and, Event.busAddress] using clean.at_addr
  | failed before e h clean err noresp at_addr =>
    subst h
    simpa [or_imp, forall_and, Event.busAddress] using And.intro clean.at_addr at_addr
  | waiting clean => exact clean.at_addr

theorem CommandCase.to_extends {c : Command} {s t : State} (h : CommandCase c s t) : Extends s t := by
  refine ⟨?events, ?inputs, h.params⟩
  case events =>
    cases h with
    | refused e why h => exact ⟨[.resp (.error e) 0], by simp [h], by simp [Event.busAddress]⟩
    | ran start evs starts trace kept ends => exact ⟨evs, trace, kept.addr ▸ ends.at_addr⟩
  case inputs =>
    cases h with
    | refused e why h => exact ⟨[], by simp [h]⟩
    | ran start evs starts trace kept ends => exact starts.inputs ▸ kept.inputs

/-- Taking a command word extends the state by the word and its event. -/
theorem Extends.of_latch {s t : State} {w : CommandWord} {rest : List Input}
    (hinputs : s.inputs = .command w :: rest) (h : Extends ({ s with inputs := rest }.latch w) t) :
    Extends s t := by
  obtain ⟨⟨evs, htrace, haddr⟩, ⟨taken, htaken⟩, hparams⟩ := h
  refine ⟨⟨.cmd w :: evs, by simpa using htrace, ?_⟩, ⟨.command w :: taken, ?_⟩, hparams⟩
  · simpa [Event.busAddress] using haddr
  · rw [hinputs, List.cons_append, ← htaken, State.latch_inputs]

theorem extends_rejectWord (s : State) : Extends s s.rejectWord :=
  ⟨⟨[.resp (.error .illegalCommand) 0], rfl, by simp [Event.busAddress]⟩, ⟨[], rfl⟩, rfl⟩

theorem step_extends {s t : State} (h : step s = .next t) : Extends s t := by
  cases step_next h with
  | reset rest hinputs h =>
    subst h
    exact ⟨⟨[], by simp, by simp⟩, ⟨[.reset], by simp [hinputs]⟩, rfl⟩
  | illegal w rest hidle hinputs h =>
    subst h
    exact .of_latch hinputs (extends_rejectWord _)
  | accepted w i rest hidle hinputs hdecode h => exact .of_latch hinputs (execute_commandCase h).to_extends
  | resumed w i hbusy hcmd hdecode h => exact (resume_commandCase hbusy h).to_extends
  | undecodable w e hbusy hcmd hdecode h =>
    subst h
    exact extends_rejectWord s
  | waits hidle h =>
    subst h
    exact ⟨⟨[], by simp, by simp⟩, ⟨[], rfl⟩, rfl⟩

/-- Settles O41: the events of a step are those of its case (`step_extends`). -/
theorem allTrafficIsAtAddr : Obligations.AllTrafficIsAtAddr := by
  unfold Obligations.AllTrafficIsAtAddr
  exact fun s t hstep => (step_extends hstep).events

/-- Settles O44: every case of a step extends the trace and takes moves from the head (`step_extends`). -/
theorem stepOnlyExtendsTheTrace : Obligations.StepOnlyExtendsTheTrace := by
  unfold Obligations.StepOnlyExtendsTheTrace
  intro s t hstep
  obtain ⟨⟨evs, htrace, -⟩, hinputs, hparams⟩ := step_extends hstep
  exact ⟨⟨evs, htrace⟩, hinputs, hparams⟩

/-! ### Reset, and the command a step runs -/

/-- Settles O55: reset is the block's activity (`activity_reset`), whatever command is in progress. -/
theorem resetDiscardsTheCommand : Obligations.ResetDiscardsTheCommand := by
  unfold Obligations.ResetDiscardsTheCommand
  intro s rest hparams hphase hinputs
  simp [step, hparams, activity_reset hphase hinputs, State.assertReset]

/-- Settles O47: an idle block executes what it latches (`step_decoded`), a busy one resumes
(`State.Executes.step_eq`). -/
theorem stepRunsTheDecodedCommand : Obligations.StepRunsTheDecodedCommand := by
  unfold Obligations.StepRunsTheDecodedCommand
  refine ⟨fun s w i rest hparams hidle hinputs hdecode => ?accepted,
    fun s w i hparams hbusy hcmd hdecode hreset => ?resumed⟩
  case accepted => rw [step_decoded hparams hidle hinputs hdecode, exec_eq_execute, State.latch]
  case resumed =>
    exact State.Executes.step_eq ⟨hparams, activity_goOn hbusy hreset, w, hcmd, hdecode⟩

/-! ### `ADDR` -/

/-- OPEN alone has a new `ADDR`, its operand (R132 step 4). -/
theorem newAddr_eq_some_iff {p : Params} {i : Instr} {a : DevAddr} :
    (commandOf p i).newAddr = some a ↔ i = .openDevice a := by
  cases i with
  | openDevice b => simp [commandOf, openCommand]
  | _ => simp [commandOf, closeCommand, setposCommand, wrregCommand, rdregCommand, setbitCommand,
      clrbitCommand, chwrCommand, chrdCommand]

/-- A command leaves `ADDR`, or is an OPEN that no live driver refuses and loads its operand. -/
theorem CommandCase.addr_open {p : Params} {i : Instr} {s t : State}
    (h : CommandCase (commandOf p i) s t) :
    t.addr = s.addr ∨ s.lc ≠ .ready ∧ ∃ a, i = .openDevice a ∧ t.addr = some a := by
  refine h.addr.imp id ?_
  rintro ⟨a, hnew, hadmits, haddr⟩
  obtain rfl := newAddr_eq_some_iff.1 hnew
  exact ⟨gate_noDriver_admits.1 hadmits, a, rfl, haddr⟩

/-- What a step can do to `LC` and `ADDR`: reset them, leave them, or run a command, which starts with both as
they are and with its word in `CMD`. -/
theorem step_registers {s t : State} (h : step s = .next t) :
    (∃ rest, s.inputs = .reset :: rest ∧ t.lc = .unopened ∧ t.addr = none) ∨
    (t.lc = s.lc ∧ t.addr = s.addr) ∨
    (∃ w i s', decode w = .ok i ∧ s'.lc = s.lc ∧ s'.addr = s.addr ∧ s'.cmd = some w ∧
      CommandCase (commandOf s.params i) s' t) := by
  cases step_next h with
  | reset rest hinputs h => exact .inl ⟨rest, hinputs, by simp [h], by simp [h]⟩
  | illegal w rest hidle hinputs h => exact .inr (.inl ⟨by simp [h], by simp [h]⟩)
  | accepted w i rest hidle hinputs hdecode h =>
    exact .inr (.inr ⟨w, i, State.latch w { s with inputs := rest }, hdecode, rfl, rfl, rfl,
      execute_commandCase h⟩)
  | resumed w i hbusy hcmd hdecode h =>
    exact .inr (.inr ⟨w, i, s, hdecode, rfl, rfl, hcmd, resume_commandCase hbusy h⟩)
  | undecodable w e hbusy hcmd hdecode h => exact .inr (.inl ⟨by simp [h], by simp [h]⟩)
  | waits hidle h => exact .inr (.inl ⟨by rw [h], by rw [h]⟩)

/-- Settles O43: of the cases of a step (`step_registers`), reset clears `ADDR` and a command changes it only as
`CommandCase.addr_open` says. -/
theorem addrIsWrittenByOpenAlone : Obligations.AddrIsWrittenByOpenAlone := by
  unfold Obligations.AddrIsWrittenByOpenAlone
  intro s t hstep
  rcases step_registers hstep with ⟨rest, hinputs, -, haddr⟩ | ⟨-, haddr⟩ |
    ⟨w, i, s', hdecode, hlc, haddr, hcmd, hcase⟩
  · exact .inr (.inl ⟨haddr, rest, hinputs⟩)
  · exact .inl haddr
  · rcases hcase.addr_open with hsame | ⟨hnotReady, a, rfl, hopen⟩
    · exact .inl (hsame.trans haddr)
    · exact .inr (.inr ⟨hlc ▸ hnotReady, w, a, hcase.cmd.trans hcmd, hdecode, hopen⟩)

end Sys2Proof.Machine
end

section
/-! The frame of the commands, the transitions of `LC`, and the response of every command (`spec/10_state.md` R21,
`spec/41_register_access.md` R132, `spec/60_exceptions.md` R203, R207): facts about the end of a run, which the
cases of a command and of a step carry over. -/

namespace Sys2Proof.Machine

/-! ### `LC` -/

/-- The responses of command `i` that change `LC`, with the new `LC` (R21). -/
def SetsLc (i : Instr) (code : Code) (lc : Lifecycle) : Prop :=
  ((∃ a, i = .openDevice a) ∧ code = .ok ∧ lc = .ready) ∨
  ((∃ a, i = .openDevice a) ∧ code = .error .transportError ∧ lc = .failed) ∨
  (i = .closeDevice ∧ (code = .ok ∨ code = .error .transportError) ∧ lc = .closed)

/-- A run leaves `LC`, or its last event is a response and `LC` is what the command names for it. -/
theorem RunEnd.lc_response {c : Command} {s t : State} {evs : List Event} (h : RunEnd c s t evs) :
    t.lc = s.lc ∨ ∃ before code data, evs = before ++ [.resp code data] ∧
      (code = .ok ∧ t.lc = c.lcDone.getD s.lc ∨
        code = .error .transportError ∧ t.lc = c.lcError.getD s.lc) := by
  cases h with
  | done before data h clean idle quiet lc => exact .inr ⟨before, .ok, data, h, .inl ⟨rfl, lc⟩⟩
  | failed before e h clean err noresp at_addr idle quiet lc =>
    exact .inr ⟨before ++ [e], .error .transportError, 0, by simp [h], .inr ⟨rfl, lc⟩⟩
  | waiting clean phase standing lc => exact .inl lc

/-- What the commands name (R131, R163, R203). -/
theorem setsLc_of_newLc {p : Params} {i : Instr} {code : Code} {lc lc' : Lifecycle}
    (h : code = .ok ∧ lc' = (commandOf p i).lcDone.getD lc ∨
      code = .error .transportError ∧ lc' = (commandOf p i).lcError.getD lc) :
    lc' = lc ∨ SetsLc i code lc' := by
  cases i with
  | openDevice a =>
    rcases h with ⟨hcode, hlc⟩ | ⟨hcode, hlc⟩
    · exact .inr (.inl ⟨⟨a, rfl⟩, hcode, hlc⟩)
    · exact .inr (.inr (.inl ⟨⟨a, rfl⟩, hcode, hlc⟩))
  | closeDevice =>
    rcases h with ⟨hcode, hlc⟩ | ⟨hcode, hlc⟩
    · exact .inr (.inr (.inr ⟨rfl, .inl hcode, hlc⟩))
    · exact .inr (.inr (.inr ⟨rfl, .inr hcode, hlc⟩))
  | _ => exact .inl (h.elim And.right And.right)

theorem CommandCase.lc_cases {p : Params} {i : Instr} {s t : State}
    (h : CommandCase (commandOf p i) s t) :
    t.lc = s.lc ∨
      ∃ before code data, t.trace = before ++ [.resp code data] ∧ SetsLc i code t.lc := by
  cases h with
  | refused e why h => exact .inl (by rw [h, State.finished_lc])
  | ran start evs starts trace kept ends =>
    rw [← starts.lc]
    rcases ends.lc_response with hlc | ⟨before, code, data, rfl, hnew⟩
    · exact .inl hlc
    · refine (setsLc_of_newLc hnew).imp id fun hsets => ?_
      exact ⟨s.trace ++ before, code, data, by rw [trace, List.append_assoc], hsets⟩

/-- Settles O42: of the cases of a step (`step_registers`), a command changes `LC` only with its response
(`CommandCase.lc_cases`). -/
theorem lifecycleTransitions : Obligations.LifecycleTransitions := by
  unfold Obligations.LifecycleTransitions
  refine ⟨⟨rfl, rfl, rfl, rfl⟩, fun s t hstep => ?transitions⟩
  case transitions =>
    rcases step_registers hstep with ⟨rest, hinputs, hlc, -⟩ | ⟨hlc, -⟩ |
      ⟨w, i, s', hdecode, hlc, -, hcmd, hcase⟩
    · exact .inr (.inl ⟨hlc, rest, hinputs⟩)
    · exact .inl hlc
    · rcases hcase.lc_cases with hsame | ⟨before, code, data, htrace, hsets⟩
      · exact .inl (hsame.trans hlc)
      · exact .inr (.inr ⟨w, i, before, code, data, hcase.cmd.trans hcmd, hdecode, htrace, hsets⟩)

/-! ### The frame -/

/-! What the micro-programs of the commands with a channel operand are made of (R174, R175, R190). -/

theorem eq_write_of_mem_setpos {p : Params} {c : Byte} {pos : Position} {m : MicroOp}
    (h : m ∈ (commandOf p (.setpos c pos)).program) : ∃ reg v, m = .uW reg (.lit v) := by
  rcases channelOperand_cases c with hc | hc
  · rw [program_setpos p hc, List.mem_pair] at h
    exact h.elim (fun h => ⟨_, _, h⟩) fun h => ⟨_, _, h⟩
  · simp [program_setpos_invalid p hc] at h

theorem eq_write_of_mem_chwr {p : Params} {k : Kind} {c v : Byte} {m : MicroOp}
    (h : m ∈ (commandOf p (.chwr k c v)).program) : ∃ reg, m = .uW reg (.lit v) := by
  rcases channelOperand_cases c with hc | hc
  · rw [program_chwr p (channelRegister_operand hc k), List.mem_singleton] at h
    exact ⟨_, h⟩
  · simp [program_chwr_invalid p hc] at h

theorem eq_read_of_mem_chrd {p : Params} {k : Kind} {c : Byte} {m : MicroOp}
    (h : m ∈ (commandOf p (.chrd k c)).program) : ∃ reg, m = .uR reg := by
  rcases channelOperand_cases c with hc | hc
  · rw [program_chrd p (channelRegister_operand hc k), List.mem_singleton] at h
    exact ⟨_, h⟩
  · simp [program_chrd_invalid p hc] at h

/-- WRREG, CHWR and SETPOS read nothing (R134, R174, R190). -/
theorem ne_read_of_mem_writes {p : Params} {i : Instr} {m : MicroOp}
    (hi : (∃ r v, i = .wrreg r v) ∨ (∃ k c v, i = .chwr k c v) ∨ (∃ c pos, i = .setpos c pos))
    (h : m ∈ (commandOf p i).program) (reg : Byte) : m ≠ .uR reg := by
  rcases hi with ⟨r, v, rfl⟩ | ⟨k, c, v, rfl⟩ | ⟨c, pos, rfl⟩
  · obtain rfl : m = .uW r (.lit v) := List.mem_singleton.1 h
    simp
  · obtain ⟨reg', rfl⟩ := eq_write_of_mem_chwr h
    simp
  · obtain ⟨reg', v, rfl⟩ := eq_write_of_mem_setpos h
    simp

theorem execute_keeps_t {c : Command} {s t : State} (hreads : ∀ m ∈ c.program, ∀ reg, m ≠ .uR reg)
    (h : c.execute s = .next t) : t.t = s.t := by
  rcases execute_next h with ⟨e, -, rfl⟩ | ⟨-, -, hrun⟩
  · rfl
  · simpa using run_keeps_t hreads hrun

/-- Settles O45: what the cases of a command change (`CommandCase.addr_open`, `CommandCase.lc_cases`), and a run that reads
nothing keeps `T`. -/
theorem commandFrame : Obligations.CommandFrame := by
  unfold Obligations.CommandFrame
  intro i s t hexec
  rw [exec_eq_execute] at hexec
  have hcase := execute_commandCase hexec
  refine ⟨hcase.cmd, hcase.params, fun hopen => ?addr, fun hopen hclose => ?lc,
    fun hi => execute_keeps_t (fun m => ne_read_of_mem_writes hi) hexec⟩
  case addr =>
    rcases hcase.addr_open with haddr | ⟨-, a, hi, -⟩
    · exact haddr
    · exact absurd hi (hopen a)
  case lc =>
    rcases hcase.lc_cases with hlc | ⟨_, _, _, -, ⟨⟨a, hi⟩, -⟩ | ⟨⟨a, hi⟩, -⟩ | ⟨hi, -⟩⟩
    · exact hlc
    · exact absurd hi (hopen a)
    · exact absurd hi (hopen a)
    · exact absurd hi hclose

/-! ### The response -/

/-- The new events `evs` end with the command's only response and the block is idle, or they have none and a
request is outstanding. -/
def RespondsOrWaits (t : State) (evs : List Event) : Prop :=
  (t.phase = .idle ∧ t.pending = none ∧ ∃ before code data,
    evs = before ++ [.resp code data] ∧ ∀ e ∈ before, e.isResponse = false) ∨
  (t.phase = .executing ∧ t.pending ≠ none ∧ ∀ e ∈ evs, e.isResponse = false)

theorem RunEnd.respondsOrWaits {c : Command} {s t : State} {evs : List Event} (h : RunEnd c s t evs)
    (hbusy : s.phase = .executing) : RespondsOrWaits t evs := by
  cases h with
  | done before data h clean idle quiet => exact .inl ⟨idle, quiet, before, .ok, data, h, clean.quiet⟩
  | failed before e h clean err noresp at_addr idle quiet =>
    refine .inl ⟨idle, quiet, before ++ [e], .error .transportError, 0, by simp [h], ?_⟩
    simpa [or_imp, forall_and, noresp] using clean.quiet
  | waiting clean phase standing => exact .inr ⟨phase.trans hbusy, standing, clean.quiet⟩

theorem CommandCase.respondsOrWaits {c : Command} {s t : State} (h : CommandCase c s t) :
    ∃ evs, t.trace = s.trace ++ evs ∧ RespondsOrWaits t evs := by
  cases h with
  | refused e why h =>
    subst h
    exact ⟨_, rfl, .inl ⟨rfl, rfl, [], .error e, 0, rfl, by simp⟩⟩
  | ran start evs starts trace kept ends => exact ⟨evs, trace, ends.respondsOrWaits starts.busy⟩

/-- Settles O40: a command responds or waits in each of its cases (`CommandCase.respondsOrWaits`); a busy block
that no reset stops goes on with its command, or rejects the word (`step_busy`). -/
theorem exactlyOneResponsePerCommand : Obligations.ExactlyOneResponsePerCommand := by
  unfold Obligations.ExactlyOneResponsePerCommand
  rintro s t (⟨i, hexec⟩ | ⟨hbusy, hreset, hstep⟩)
  · rw [exec_eq_execute] at hexec
    exact (execute_commandCase hexec).respondsOrWaits
  · rcases step_busy hbusy hstep with ⟨rest, hinputs, -⟩ | ⟨w, i, -, -, hresume⟩ | ⟨w, e, -, -, rfl⟩
    · exact absurd hinputs (hreset rest)
    · exact (resume_commandCase hbusy hresume).respondsOrWaits
    · exact ⟨_, rfl, .inl ⟨rfl, rfl, [], .error .illegalCommand, 0, rfl, by simp⟩⟩

/-! ### The transport error -/

/-- The errors that operand validations find (R201, R202). -/
theorem check_eq_some {p : Params} {i : Instr} {e : ErrorKind} (h : (commandOf p i).check = some e) :
    e = .invalidChannel ∨ e = .invalidPosition := by
  cases i with
  | setpos c pos =>
    rw [commandOf, check_setpos] at h
    split_ifs at h <;> cases h
    · exact .inl rfl
    · exact .inr rfl
  | chwr k c v =>
    rw [commandOf, check_chwr] at h
    split_ifs at h
    cases h
    exact .inl rfl
  | chrd k c =>
    rw [commandOf, check_chrd] at h
    split_ifs at h
    cases h
    exact .inl rfl
  | _ => cases h

theorem CleanEvents.resp_notMem {addr : Option DevAddr} {evs : List Event} (h : CleanEvents addr evs)
    (code : Code) (data : Byte) : .resp code data ∉ evs :=
  fun hmem => Bool.noConfusion (h.quiet _ hmem)

/-- A run that answers `TransportError` ends with the failing transaction and that response, and with the `LC`
of the error. -/
theorem RunEnd.transportError {c : Command} {s t : State} {evs : List Event} {d : Byte}
    (h : RunEnd c s t evs) (hresp : .resp (.error .transportError) d ∈ evs) :
    (∃ before e, evs = before ++ [e, .resp (.error .transportError) 0] ∧ e.isBusError = true ∧
      ∀ x ∈ before, x.isBusError = false) ∧
    t.phase = .idle ∧ t.pending = none ∧ t.lc = c.lcError.getD s.lc := by
  cases h with
  | done before data h clean =>
    have hnone := clean.resp_notMem (.error .transportError) d
    simp [h, hnone] at hresp
  | failed before e h clean err noresp at_addr idle quiet lc =>
    exact ⟨⟨before, e, h, err, clean.good⟩, idle, quiet, lc⟩
  | waiting clean => exact absurd hresp (clean.resp_notMem _ d)

/-- Settles O39: a refusal is another error, and a run that answers `TransportError` is precise
(`RunEnd.transportError`); of a busy block's steps, reset alone is not a command's. -/
theorem transportErrorIsPrecise : Obligations.TransportErrorIsPrecise := by
  unfold Obligations.TransportErrorIsPrecise
  intro i s t evs d hcommand htrace hresp
  have hcase : CommandCase (commandOf s.params i) s t := by
    rcases hcommand with hexec | ⟨hbusy, ⟨w, hcmd, hdecode⟩, hstep⟩
    · exact execute_commandCase ((exec_eq_execute i s).symm.trans hexec)
    · rcases step_busy hbusy hstep with ⟨rest, -, hsame⟩ | ⟨w', i', hcmd', hdecode', hresume⟩ |
        ⟨w', e, hcmd', hdecode', -⟩
      · obtain rfl : evs = [] := by simpa [hsame] using htrace
        cases hresp
      · obtain rfl : w = w' := Option.some.inj (hcmd.symm.trans hcmd')
        obtain rfl : i = i' := Except.ok.inj (hdecode.symm.trans hdecode')
        exact resume_commandCase hbusy hresume
      · obtain rfl : w = w' := Option.some.inj (hcmd.symm.trans hcmd')
        cases hdecode.symm.trans hdecode'
  cases hcase with
  | refused e why h =>
    subst h
    obtain rfl : [.resp (.error e) 0] = evs := List.append_cancel_left htrace
    obtain ⟨rfl, -⟩ : .transportError = e ∧ d = 0 := by simpa using hresp
    rcases why with why | why
    · cases why
    · rcases check_eq_some why with hcheck | hcheck <;> cases hcheck
  | ran start evs' starts trace kept ends =>
    obtain rfl : evs = evs' := List.append_cancel_left (htrace.symm.trans trace)
    obtain ⟨hprecise, hidle, hquiet, hlc⟩ := ends.transportError hresp
    refine ⟨hprecise, hidle, hquiet, hlc.trans ?_⟩
    rw [starts.lc]
    cases i <;> rfl

end Sys2Proof.Machine
end

section
/-! The uses of `T` and of `ADDR` (`spec/10_state.md` R20, R24, R40). A micro-program uses no `T` that it has not
read itself, so a run of it reads no absent register, and what `T` held before does not show. -/

namespace Sys2Proof.Machine

/-! ### Where `T` is used -/

/-- A write computed from `T`. -/
def MicroOp.UsesT (m : MicroOp) : Prop :=
  ∃ reg o, m = .uW reg (.setInT o) ∨ m = .uW reg (.clearInT o)

/-- The micro-operations `ms`, and the response after them, use `T` as it is now: before they read it. -/
def Command.UsesT (c : Command) : List MicroOp → Prop
  | [] => c.returnsT = true
  | m :: ms => m.UsesT ∨ (∀ reg, m ≠ .uR reg) ∧ c.UsesT ms

@[simp] theorem not_usesT_uR (reg : Byte) : ¬ (MicroOp.uR reg).UsesT := by
  simp [MicroOp.UsesT]

@[simp] theorem not_usesT_uD (ms : Nat) : ¬ (MicroOp.uD ms).UsesT := by
  simp [MicroOp.UsesT]

/-- A neighbour that does not read rules out a write computed from `T` (R138). -/
theorem MicroOp.ReadsFor.not_usesT {m m' : MicroOp} (h : m.ReadsFor m') (hread : ∀ reg, m ≠ .uR reg) :
    ¬ m'.UsesT :=
  fun ⟨reg, o, huses⟩ => hread reg (h reg o huses)

/-- Along a micro-program `T` is used only after a read, unless the first micro-operation uses it. -/
theorem not_usesT_of_isChain {c : Command} {m : MicroOp} {ms : List MicroOp} (hdata : c.returnsT = false)
    (hchain : (m :: ms).IsChain MicroOp.ReadsFor) (hm : ¬ m.UsesT) : ¬ c.UsesT (m :: ms) := by
  induction ms generalizing m with
  | nil =>
    rintro (huses | ⟨-, huses⟩)
    · exact hm huses
    · exact Bool.noConfusion (hdata.symm.trans huses)
  | cons m' ms ih =>
    obtain ⟨hneighbour, hrest⟩ := List.isChain_cons_cons.1 hchain
    rintro (huses | ⟨hread, huses⟩)
    · exact hm huses
    · exact ih hrest (hneighbour.not_usesT hread) huses

/-- RDREG and CHRD, which return `T`, are one read. -/
theorem program_of_returnsT {p : Params} {i : Instr} (hdata : (commandOf p i).returnsT = true)
    (hcheck : (commandOf p i).check = none) : ∃ r, (commandOf p i).program = [.uR r] := by
  cases i with
  | rdreg r => exact ⟨r, rfl⟩
  | chrd k c =>
    rcases channelOperand_cases c with h | h
    · exact ⟨_, program_chrd p (channelRegister_operand h k)⟩
    · cases (check_chrd_invalid h k).symm.trans hcheck
  | _ => cases hdata

/-- A valid command uses no `T` from before its start. -/
theorem not_usesT_program {p : Params} {i : Instr} (hcheck : (commandOf p i).check = none) :
    ¬ (commandOf p i).UsesT (commandOf p i).program := by
  intro huses
  cases hdata : (commandOf p i).returnsT with
  | false => exact not_usesT_of_isChain hdata (program_readsFor p i) (by simp) (.inr ⟨by simp, huses⟩)
  | true =>
    obtain ⟨r, hprogram⟩ := program_of_returnsT hdata hcheck
    simp [hprogram, Command.UsesT] at huses

/-- Nor does it from one of its micro-operations on, unless that one uses `T`. -/
theorem not_usesT_drop {p : Params} {i : Instr} (hcheck : (commandOf p i).check = none) {n : Nat}
    {m : MicroOp} {ms : List MicroOp} (hdrop : (commandOf p i).program.drop n = m :: ms) (hm : ¬ m.UsesT) :
    ¬ (commandOf p i).UsesT (m :: ms) := by
  cases hdata : (commandOf p i).returnsT with
  | false =>
    refine not_usesT_of_isChain hdata ?_ hm
    rw [← hdrop]
    exact (program_readsFor p i).drop (n + 1)
  | true =>
    obtain ⟨r, hprogram⟩ := program_of_returnsT hdata hcheck
    cases n with
    | zero =>
      obtain ⟨rfl, -⟩ : .uR r = m ∧ [] = ms := by simpa [hprogram] using hdrop
      simp [Command.UsesT]
    | succ n => simp [hprogram] at hdrop

/-! ### A run reads no absent register -/

/-- With `ADDR`, and with `T` where it is used, a micro-operation makes its request. -/
theorem exists_request {m : MicroOp} {s : State} {a : DevAddr} (haddr : s.addr = some a)
    (ht : m.UsesT → s.t ≠ none) : ∃ r, m.request s = .ok r := by
  cases m with
  | uR reg => exact ⟨_, request_uR haddr reg⟩
  | uD ms => exact ⟨_, request_uD s ms⟩
  | uW reg e =>
    cases e with
    | lit v => exact ⟨_, request_uW_lit haddr reg v⟩
    | setInT o =>
      obtain ⟨b, hb⟩ := Option.ne_none_iff_exists'.1 (ht ⟨reg, o, .inl rfl⟩)
      exact ⟨_, request_uW_set haddr hb reg o⟩
    | clearInT o =>
      obtain ⟨b, hb⟩ := Option.ne_none_iff_exists'.1 (ht ⟨reg, o, .inr rfl⟩)
      exact ⟨_, request_uW_clear haddr hb reg o⟩

/-- A micro-operation that uses `T` and makes its request finds a value in `T`. -/
theorem t_of_request {m : MicroOp} {s : State} {r : Request} (h : m.request s = .ok r) (hm : m.UsesT) :
    s.t ≠ none := by
  intro ht
  obtain ⟨reg, o, rfl | rfl⟩ := hm
  all_goals
    rcases request_cases h with ⟨_, _, e, _, hm, -, he, -⟩ | ⟨_, _, hm, -⟩ | ⟨_, hm, -⟩
    all_goals cases hm
    simp [ByteExpr.eval, readT_none ht, Except.map] at he

theorem request_of_stopped {m : MicroOp} {s : State} {f : Fault} (h : m.perform s = .stopped f) :
    m.request s = .error f := by
  rcases perform_cases m s with ⟨_, _, _, _, -, -, hp⟩ | ⟨_, _, _, _, -, -, hp⟩ | ⟨_, _, -, -, hp⟩ |
    ⟨_, _, _, _, -, -, hp⟩ | ⟨_, _, _, -, -, hp⟩ | ⟨_, -, hp⟩ | ⟨f', hf, hp⟩
  all_goals cases hp.symm.trans h
  exact hf

/-- A read that completes latches its byte (R24, R130). -/
theorem t_of_read {reg : Byte} {s s' : State} (h : (MicroOp.uR reg).perform s = .advanced s') :
    s'.t ≠ none := by
  rcases perform_cases (.uR reg) s with ⟨_, _, _, _, hr, -, -⟩ | ⟨_, _, _, _, -, -, hp⟩ |
    ⟨_, _, hm, -⟩ | ⟨_, _, _, _, -, -, hp⟩ | ⟨_, _, _, -, -, hp⟩ | ⟨_, -, hp⟩ | ⟨_, -, hp⟩
  · rcases request_cases hr with ⟨_, _, _, _, hm, -⟩ | ⟨_, _, -, -, hbus⟩ | ⟨_, hm, -⟩
    · cases hm
    · cases hbus
    · cases hm
  · cases hp.symm.trans h
    simp
  · cases hm
  all_goals cases hp.symm.trans h

theorem run_goesOn {c : Command} {ms : List MicroOp} {s : State} (haddr : s.addr ≠ none)
    (ht : c.UsesT ms → s.t ≠ none) : ∃ t, c.run ms s = .next t := by
  induction ms generalizing s with
  | nil =>
    rcases complete_cases c s with ⟨b, hcomplete⟩ | ⟨hdata, hnone, -⟩
    · exact ⟨_, hcomplete⟩
    · exact absurd hnone (ht hdata)
  | cons m ms ih =>
    cases hperform : m.perform s with
    | advanced s' =>
      obtain ⟨-, -, -, hkept, -, -, -, -, htCases⟩ := perform_advanced hperform
      rw [run_advanced hperform]
      refine ih (hkept.addr ▸ haddr) fun huses => ?_
      by_cases hread : ∃ reg, m = .uR reg
      · obtain ⟨reg, rfl⟩ := hread
        exact t_of_read hperform
      · rcases htCases with ⟨reg, -, rfl, -⟩ | hsame
        · exact absurd ⟨reg, rfl⟩ hread
        · exact hsame ▸ ht (.inr ⟨not_exists.1 hread, huses⟩)
    | failed s' => exact ⟨_, run_failed hperform⟩
    | waiting s' => exact ⟨_, run_waiting hperform⟩
    | stopped f =>
      obtain ⟨a, ha⟩ := Option.ne_none_iff_exists'.1 haddr
      obtain ⟨r, hrequest⟩ := exists_request ha fun huses => ht (.inl huses)
      cases hrequest.symm.trans (request_of_stopped hperform)

/-! ### What `T` and `CMD` held before does not show -/

/-- `s` with other values in the registers that `State.forgetDead` forgets. -/
def State.withDead (s : State) (t : Option Byte) (cmd : Option CommandWord) : State :=
  { s with t := t, cmd := cmd }

section WithDead

variable (s : State) (t : Option Byte) (cmd : Option CommandWord)

@[simp] theorem State.withDead_inputs : (s.withDead t cmd).inputs = s.inputs := rfl

@[simp] theorem State.withDead_forgetDead : (s.withDead t cmd).forgetDead = s.forgetDead := rfl

theorem issue_withDead (r : Request) : (s.withDead t cmd).issue r = (s.issue r).withDead t cmd := by
  by_cases hpending : s.pending = some r <;> simp [State.issue, State.withDead, hpending]

theorem enter_withDead (c : Command) : c.enter (s.withDead t cmd) = (c.enter s).withDead t cmd := by
  unfold Command.enter
  split <;> rfl

variable {s t} in
theorem request_withDead {m : MicroOp} (ht : m.UsesT → t = s.t) :
    m.request (s.withDead t cmd) = m.request s := by
  cases m with
  | uR reg => rfl
  | uD ms => rfl
  | uW reg e =>
    cases e with
    | lit v => rfl
    | setInT o => rw [ht ⟨reg, o, .inl rfl⟩]; rfl
    | clearInT o => rw [ht ⟨reg, o, .inr rfl⟩]; rfl

/-- The same answer is taken, whatever the dead registers hold; a read leaves the same byte in `T`. -/
theorem takeAnswer_withDead (r : Request) :
    (∃ u t', s.takeAnswer r = .advanced u ∧
      (s.withDead t cmd).takeAnswer r = .advanced (u.withDead t' cmd) ∧
      ((∃ a reg, r = .busR a reg) ∨ t = s.t → t' = u.t)) ∨
    (∃ u t', s.takeAnswer r = .failed u ∧
      (s.withDead t cmd).takeAnswer r = .failed (u.withDead t' cmd)) ∨
    (s.takeAnswer r = .waiting s ∧
      (s.withDead t cmd).takeAnswer r = .waiting (s.withDead t cmd)) := by
  by_cases hanswered : ∃ x rest, s.inputs = x :: rest ∧ x.answers r
  · obtain ⟨x, rest, hinputs, hanswers⟩ := hanswered
    cases x with
    | writeAnswer answer =>
      obtain ⟨a, reg, v, rfl⟩ := hanswers
      cases answer with
      | ok =>
        refine .inl ⟨s.advance rest [.busW a reg v .ok], t, ?_, ?_, by simp⟩
        · simp [State.takeAnswer, hinputs]
        · simp [State.takeAnswer, hinputs, State.advance, State.withDead]
      | err =>
        refine .inr (.inl ⟨s.failAt rest (.busW a reg v .err), t, ?_, ?_⟩)
        · simp [State.takeAnswer, hinputs]
        · simp [State.takeAnswer, hinputs, State.failAt, State.withDead]
    | readAnswer answer =>
      obtain ⟨a, reg, rfl⟩ := hanswers
      cases answer with
      | ok b =>
        refine .inl ⟨{ s with t := some b }.advance rest [.busR a reg (.ok b)], some b, ?_, ?_, by simp⟩
        · simp [State.takeAnswer, hinputs]
        · simp [State.takeAnswer, hinputs, State.advance, State.withDead]
      | err =>
        refine .inr (.inl ⟨{ s with t := none }.failAt rest (.busR a reg .err), none, ?_, ?_⟩)
        · simp [State.takeAnswer, hinputs]
        · simp [State.takeAnswer, hinputs, State.failAt, State.withDead]
    | delayDone =>
      obtain ⟨ms, rfl⟩ := hanswers
      refine .inl ⟨s.advance rest [], t, ?_, ?_, by simp⟩
      · simp [State.takeAnswer, hinputs]
      · simp [State.takeAnswer, hinputs, State.advance, State.withDead]
    | command w => cases hanswers
    | reset => cases hanswers
  · have hnone : ∀ x rest, s.inputs = x :: rest → ¬ x.answers r :=
      fun x rest hinputs hanswers => hanswered ⟨x, rest, hinputs, hanswers⟩
    exact .inr (.inr ⟨takeAnswer_waiting hnone, takeAnswer_waiting hnone⟩)

end WithDead

theorem complete_withDead {c : Command} {s : State} {t : Option Byte} (cmd : Option CommandWord)
    (ht : c.returnsT = true → t = s.t) :
    forgetDeadIn (c.complete (s.withDead t cmd)) = forgetDeadIn (c.complete s) := by
  cases hdata : c.returnsT with
  | false =>
    rw [complete_plain hdata, complete_plain hdata]
    rfl
  | true =>
    obtain rfl := ht hdata
    cases hvalue : s.t with
    | none => simp [Command.complete, hdata, State.readT, State.withDead, hvalue]
    | some b =>
      rw [complete_returning hdata hvalue, complete_returning hdata (b := b) rfl]
      rfl

/-- A run that does not use `T` before reading it ends the same whatever the dead registers hold. -/
theorem run_withDead {c : Command} {ms : List MicroOp} {s : State} {t : Option Byte}
    (cmd : Option CommandWord) (ht : c.UsesT ms → t = s.t) :
    forgetDeadIn (c.run ms (s.withDead t cmd)) = forgetDeadIn (c.run ms s) := by
  induction ms generalizing s t with
  | nil => exact complete_withDead cmd ht
  | cons m ms ih =>
    have hrequest := request_withDead cmd fun huses => ht (.inl huses)
    cases hr : m.request s with
    | error f =>
      rw [run_stopped (perform_of_absent hr), run_stopped (perform_of_absent (hrequest.trans hr))]
    | ok r =>
      have hperform := perform_of_request hr
      have hperform' := perform_of_request (hrequest.trans hr)
      rw [issue_withDead] at hperform'
      rcases takeAnswer_withDead (s.issue r) t cmd r with ⟨u, t', hu, hu', ht'⟩ |
        ⟨u, t', hu, hu'⟩ | ⟨hu, hu'⟩
      · rw [run_advanced (hperform.trans hu), run_advanced (hperform'.trans hu')]
        refine ih fun huses => ht' ?_
        rcases request_cases hr with ⟨_, _, _, _, rfl, -⟩ | ⟨a, reg, -, -, rfl⟩ | ⟨_, rfl, -⟩
        · exact .inr (by simpa using ht (.inr ⟨by simp, huses⟩))
        · exact .inl ⟨a, reg, rfl⟩
        · exact .inr (by simpa using ht (.inr ⟨by simp, huses⟩))
      · rw [run_failed (hperform.trans hu), run_failed (hperform'.trans hu')]
        rfl
      · rw [run_waiting (hperform.trans hu), run_waiting (hperform'.trans hu')]
        rfl

theorem refusal_eq_none_iff {c : Command} {lc : Lifecycle} :
    c.refusal lc = none ↔ c.gate.admits lc = true ∧ c.check = none := by
  cases hadmits : c.gate.admits lc <;> simp [Command.refusal, hadmits]

/-- A command that uses no `T` from before ends the same from states that acceptance makes alike but for the
dead registers. -/
theorem execute_withDead {c : Command} {s s' : State} {t : Option Byte} {cmd : Option CommandWord}
    (haccept : s'.accept = s.accept.withDead t cmd) (hfresh : c.check = none → ¬ c.UsesT c.program) :
    forgetDeadIn (c.execute s') = forgetDeadIn (c.execute s) := by
  have hlc : s'.lc = s.lc := by
    rw [← State.accept_lc s', haccept]
    rfl
  cases hrefusal : c.refusal s.lc with
  | some e =>
    have hrefusal' : c.refusal s'.lc = some e := by rw [hlc, hrefusal]
    rw [execute_of_refusal hrefusal, execute_of_refusal hrefusal', ← accept_raise, ← accept_raise, haccept]
    rfl
  | none =>
    obtain ⟨hadmits, hcheck⟩ := refusal_eq_none_iff.1 hrefusal
    have hadmits' : c.gate.admits s'.lc = true := by rw [hlc, hadmits]
    rw [execute_admitted hadmits hcheck, execute_admitted hadmits' hcheck, haccept, enter_withDead]
    exact run_withDead cmd fun huses => absurd huses (hfresh hcheck)

/-- Settles O46: acceptance overwrites `UPC`, the phase and the outstanding request, and a valid command uses no
`T` from before (`not_usesT_program`). -/
theorem onlyLcAndAddrSurvive : Obligations.OnlyLcAndAddrSurvive := by
  unfold Obligations.OnlyLcAndAddrSurvive
  intro i s t cmd upc phase pending
  rw [exec_eq_execute, exec_eq_execute]
  exact execute_withDead (t := t) (cmd := cmd) rfl not_usesT_program

/-! ### Reads that fail, and delays -/

/-- Settles O22: the rule for a read answered `err`. -/
theorem failedReadLeavesTWithoutValue : Obligations.FailedReadLeavesTWithoutValue := by
  unfold Obligations.FailedReadLeavesTWithoutValue
  intro s a reg rest haddr hinputs
  rw [perform_read_err (request_uR haddr reg) hinputs]
  rfl

theorem uD_mem_program {p : Params} {i : Instr} {ms : Nat} (h : .uD ms ∈ (commandOf p i).program) :
    ms = 100 ∧ ∃ a, i = .openDevice a := by
  cases i with
  | openDevice a =>
    refine ⟨?_, a, rfl⟩
    simpa [commandOf, openCommand, openProgramSetup, openProgramStart, Config.settleMs] using h
  | setpos c pos =>
    obtain ⟨reg, v, hm⟩ := eq_write_of_mem_setpos h
    cases hm
  | chwr k c v =>
    obtain ⟨reg, hm⟩ := eq_write_of_mem_chwr h
    cases hm
  | chrd k c =>
    obtain ⟨reg, hm⟩ := eq_read_of_mem_chrd h
    cases hm
  | _ => simp [commandOf, closeCommand, wrregCommand, rdregCommand, setbitCommand, clrbitCommand] at h

/-- Settles O23: the delays stand in the list of OPEN alone (`uD_mem_program`), after its two settling writes. -/
theorem onlyOpenRequestsDelays : Obligations.OnlyOpenRequestsDelays := by
  unfold Obligations.OnlyOpenRequestsDelays
  refine ⟨fun p i ms => uD_mem_program, fun p a => ⟨?count, rfl, rfl⟩⟩
  case count => simp [commandOf, openCommand, openProgramSetup, openProgramStart, Config.settleMs]

end Sys2Proof.Machine
end

section
/-! The invariant (`spec/10_state.md` R22, R40, `spec/70_reset_and_hazards.md` R247): every step keeps it, from it
every step goes on, and an outstanding request is that of the micro-operation at `UPC`. -/

namespace Sys2Proof.Machine

/-! ### States with the invariant -/

theorem inv_of_idle {s : State} (hidle : s.phase = .idle) (hquiet : s.pending = none)
    (haddr : s.lc ≠ .unopened → s.addr ≠ none) : s.Inv where
  addr_held := haddr
  idle_quiet _ := hquiet
  busy_sound hbusy := by cases hidle.symm.trans hbusy

/-- A command of the block is in progress, at any of its micro-operations: `Command.InProgress` without the
outstanding request. -/
structure State.Performs (s : State) (i : Instr) : Prop where
  busy : s.phase = .executing
  word : ∃ w, s.cmd = some w ∧ decode w = .ok i
  admitted : (commandOf s.params i).gate.admits s.lc = true
  valid : (commandOf s.params i).check = none
  addr_held : s.addr ≠ none
  addr_new : ∀ a, (commandOf s.params i).newAddr = some a → s.addr = some a

theorem State.Inv.performs {s : State} (h : s.Inv) (hbusy : s.phase = .executing) :
    ∃ i, s.Performs i ∧ (commandOf s.params i).InProgress s := by
  obtain ⟨w, i, hcmd, hdecode, hprogress⟩ := h.busy_sound hbusy
  exact ⟨i, ⟨hbusy, ⟨w, hcmd, hdecode⟩, hprogress.admitted, hprogress.valid, hprogress.addr_held,
    hprogress.addr_new⟩, hprogress⟩

namespace State.Performs

variable {s t : State} {i : Instr}

/-- Micro-operations keep all that `State.Performs` speaks of. -/
theorem of_kept (h : s.Performs i) (hkept : Kept s t) (hlc : t.lc = s.lc) (hphase : t.phase = s.phase) :
    t.Performs i where
  busy := hphase.trans h.busy
  word := hkept.cmd ▸ h.word
  admitted := by
    rw [hkept.params, hlc]
    exact h.admitted
  valid := hkept.params ▸ h.valid
  addr_held := hkept.addr ▸ h.addr_held
  addr_new := by
    rw [hkept.params, hkept.addr]
    exact h.addr_new

/-- A waiting command leaves the invariant when the request is that of its micro-operation. -/
theorem inv (h : s.Performs i) {m : MicroOp} {r : Request}
    (hm : (commandOf s.params i).program[s.upc.toNat]? = some m) (hrequest : m.request s = .ok r)
    (hpending : s.pending = some r) : s.Inv where
  addr_held _ := h.addr_held
  idle_quiet hidle := by cases hidle.symm.trans h.busy
  busy_sound _ := by
    obtain ⟨w, hcmd, hdecode⟩ := h.word
    exact ⟨w, i, hcmd, hdecode, h.admitted, h.valid, h.addr_held, h.addr_new, m, r, hm, hrequest, hpending⟩

end State.Performs

/-! ### Every step keeps the invariant -/

theorem request_issue (m : MicroOp) (s : State) (r : Request) : m.request (s.issue r) = m.request s := by
  cases m with
  | uR reg => simp [MicroOp.request, State.readAddr]
  | uD ms => rfl
  | uW reg e => cases e <;> simp [MicroOp.request, State.readAddr, State.readT, ByteExpr.eval]

theorem issue_kept (s : State) (r : Request) : Kept s (s.issue r) :=
  ⟨by simp, by simp, by simp, [], by simp⟩

/-- The micro-operation at `UPC` is the first of the rest. -/
theorem getElem?_of_rest {c : Command} {s : State} {m : MicroOp} {ms : List MicroOp}
    (h : c.rest s = m :: ms) : c.program[s.upc.toNat]? = some m := by
  rw [← List.head?_drop, ← Command.rest, h, List.head?_cons]

theorem rest_of_getElem? {c : Command} {s : State} {m : MicroOp}
    (h : c.program[s.upc.toNat]? = some m) : ∃ ms, c.rest s = m :: ms := by
  rw [← List.head?_drop] at h
  exact List.head?_eq_some_iff.1 h

/-- The run of a command in progress ends with the invariant: it responds and the block is idle, or it waits
with the request of the micro-operation that `UPC` has come to. -/
theorem inv_of_run {s t : State} {i : Instr} {ms : List MicroOp} (h : s.Performs i)
    (hrest : (commandOf s.params i).rest s = ms) (hrun : (commandOf s.params i).run ms s = .next t) :
    t.Inv := by
  induction ms generalizing s with
  | nil =>
    rcases complete_cases (commandOf s.params i) s with ⟨b, hcomplete⟩ | ⟨-, -, hfault⟩
    · cases hcomplete.symm.trans hrun
      exact inv_of_idle rfl rfl fun _ => h.addr_held
    · cases hfault.symm.trans hrun
  | cons m ms ih =>
    cases hperform : m.perform s with
    | advanced s' =>
      obtain ⟨-, -, -, hkept, hlc, hphase, -, -, -⟩ := perform_advanced hperform
      rw [run_advanced hperform, ← hkept.params] at hrun
      refine ih (h.of_kept hkept hlc hphase) ?_ hrun
      rw [hkept.params]
      exact rest_advanced ((program_length_le s.params i).trans (by decide)) hrest hperform
    | failed s' =>
      obtain ⟨-, -, -, -, -, hkept, -, -, -⟩ := perform_failed hperform
      cases (run_failed hperform).symm.trans hrun
      refine inv_of_idle rfl rfl fun _ => ?_
      change s'.addr ≠ none
      rw [hkept.addr]
      exact h.addr_held
    | waiting s' =>
      obtain ⟨r, hrequest, rfl⟩ := perform_waits hperform
      cases (run_waiting hperform).symm.trans hrun
      refine (h.of_kept (issue_kept s r) (by simp) (by simp)).inv (m := m) (r := r) ?_ ?_ (by simp)
      · simpa using getElem?_of_rest hrest
      · rw [request_issue, hrequest]
    | stopped f => cases (run_stopped hperform).symm.trans hrun

/-- An admitted command has a value in `ADDR` when it starts: OPEN loads one, the others need a live driver. -/
theorem addr_of_admitted {p : Params} {i : Instr} {s : State} (haddr : s.lc ≠ .unopened → s.addr ≠ none)
    (hadmits : (commandOf p i).gate.admits s.lc = true) : (commandOf p i).newAddr.or s.addr ≠ none := by
  by_cases hopen : ∃ a, i = .openDevice a
  · obtain ⟨a, rfl⟩ := hopen
    exact Option.some_ne_none a
  · have hready : s.lc = .ready := by
      rw [gate_eq_ready (not_exists.1 hopen)] at hadmits
      exact gate_ready_admits.1 hadmits
    have hheld := haddr (by simp [hready])
    simp [Option.or_eq_none_iff, hheld]

/-- An admitted and valid command is in progress from its acceptance on. -/
theorem performs_of_admitted {s : State} {w : CommandWord} {i : Instr}
    (haddr : s.lc ≠ .unopened → s.addr ≠ none) (hcmd : s.cmd = some w) (hdecode : decode w = .ok i)
    (hadmits : (commandOf s.params i).gate.admits s.lc = true)
    (hcheck : (commandOf s.params i).check = none) :
    ((commandOf s.params i).enter s.accept).Performs i where
  busy := by simp
  word := ⟨w, by simpa using hcmd, hdecode⟩
  admitted := by simpa using hadmits
  valid := by simpa using hcheck
  addr_held := by simpa using addr_of_admitted haddr hadmits
  addr_new a hnew := by
    rw [Command.enter_params, State.accept_params] at hnew
    simp [hnew]

theorem inv_of_execute {s t : State} {w : CommandWord} {i : Instr}
    (haddr : s.lc ≠ .unopened → s.addr ≠ none) (hcmd : s.cmd = some w) (hdecode : decode w = .ok i)
    (h : (commandOf s.params i).execute s = .next t) : t.Inv := by
  rcases execute_next h with ⟨e, -, rfl⟩ | ⟨hadmits, hcheck, hrun⟩
  · exact inv_of_idle rfl rfl haddr
  · refine inv_of_run (performs_of_admitted haddr hcmd hdecode hadmits hcheck) ?_ (by simpa using hrun)
    simp [Command.rest]

/-- Settles O48: of the cases of a step, a command's run keeps the invariant (`inv_of_run`, by induction on its
micro-operations), and every other leaves the block idle. -/
theorem everyStepKeepsTheInvariant : Obligations.EveryStepKeepsTheInvariant := by
  unfold Obligations.EveryStepKeepsTheInvariant
  intro s t hinv hstep
  cases step_next hstep with
  | reset rest hinputs h =>
    subst h
    exact inv_of_idle rfl rfl fun hopened => absurd rfl hopened
  | illegal w rest hidle hinputs h =>
    subst h
    exact inv_of_idle rfl rfl hinv.addr_held
  | accepted w i rest hidle hinputs hdecode h =>
    exact inv_of_execute (s := State.latch w { s with inputs := rest }) hinv.addr_held rfl hdecode h
  | resumed w i hbusy hcmd hdecode h =>
    obtain ⟨i', hperforms, -⟩ := hinv.performs hbusy
    obtain ⟨w', hcmd', hdecode'⟩ := hperforms.word
    obtain rfl : w = w' := Option.some.inj (hcmd.symm.trans hcmd')
    obtain rfl : i = i' := Except.ok.inj (hdecode.symm.trans hdecode')
    exact inv_of_run hperforms rfl h
  | undecodable w e hbusy hcmd hdecode h =>
    subst h
    exact inv_of_idle rfl rfl hinv.addr_held
  | waits hidle h => exact h ▸ hinv

/-- Settles O49: the block is idle and UNOPENED. -/
theorem resetHasTheInvariant : Obligations.ResetHasTheInvariant := by
  unfold Obligations.ResetHasTheInvariant
  exact inv_of_idle rfl rfl fun hopened => absurd rfl hopened

/-! ### Every step goes on -/

theorem execute_goesOn {s : State} {p : Params} {i : Instr} (haddr : s.lc ≠ .unopened → s.addr ≠ none) :
    ∃ t, (commandOf p i).execute s = .next t := by
  cases hrefusal : (commandOf p i).refusal s.lc with
  | some e => exact ⟨_, execute_of_refusal hrefusal⟩
  | none =>
    obtain ⟨hadmits, hcheck⟩ := refusal_eq_none_iff.1 hrefusal
    rw [execute_admitted hadmits hcheck]
    refine run_goesOn ?_ fun huses => absurd huses (not_usesT_program hcheck)
    simpa using addr_of_admitted haddr hadmits

/-- A command in progress goes on: where its next micro-operation uses `T`, the outstanding request shows that
`T` has a value; where it does not, `T` is read before it is used. -/
theorem resume_goesOn {s : State} {i : Instr} (h : (commandOf s.params i).InProgress s) :
    ∃ t, (commandOf s.params i).resume s = .next t := by
  obtain ⟨m, r, hm, hrequest, -⟩ := h.outstanding
  obtain ⟨ms, hrest⟩ := rest_of_getElem? hm
  refine run_goesOn h.addr_held fun huses => ?_
  by_cases hmUses : m.UsesT
  · exact t_of_request hrequest hmUses
  · rw [hrest] at huses
    exact absurd huses (not_usesT_drop h.valid hrest hmUses)

theorem State.Performs.executes {s : State} {i : Instr} (h : s.Performs i) (hparams : s.params.wf = true)
    (hactivity : s.activity = .goOn) : s.Executes i :=
  ⟨hparams, hactivity, h.word⟩

/-- Settles O50: reset and an illegal word read no register; an admitted command has `ADDR`
(`addr_of_admitted`) and uses no `T` but its own (`execute_goesOn`, `resume_goesOn`). -/
theorem noRunReadsAnAbsentRegister : Obligations.NoRunReadsAnAbsentRegister := by
  unfold Obligations.NoRunReadsAnAbsentRegister
  intro s hinv hparams
  rcases activity_cases s with ⟨rest, -, hactivity⟩ | ⟨w, rest, hidle, hinputs, hactivity⟩ |
    ⟨hbusy, hactivity⟩ | ⟨-, hactivity⟩
  · exact ⟨State.assertReset { s with inputs := rest }, by simp [step, hparams, hactivity]⟩
  · cases hdecode : decode w with
    | error e => exact ⟨_, step_illegal hparams hidle hinputs hdecode⟩
    | ok i =>
      rw [step_decoded hparams hidle hinputs hdecode]
      exact execute_goesOn hinv.addr_held
  · obtain ⟨i, hperforms, hprogress⟩ := hinv.performs hbusy
    rw [(hperforms.executes hparams hactivity).step_eq]
    exact resume_goesOn hprogress
  · exact ⟨s, by simp [step, hparams, hactivity]⟩

/-! ### Outstanding requests -/

theorem issue_of_pending {s : State} {r : Request} (h : s.pending = some r) : s.issue r = s :=
  if_pos h

/-- A step of a block that waits for an answer, when the next move is none and no reset. -/
theorem step_unanswered {s : State} {r : Request} (hinv : s.Inv) (hparams : s.params.wf = true)
    (hpending : s.pending = some r)
    (hmove : ∀ x rest, s.inputs = x :: rest → ¬ x.answers r ∧ x ≠ .reset) : step s = .next s := by
  have hbusy : s.phase = .executing := by
    cases hphase : s.phase with
    | executing => rfl
    | idle => cases (hinv.idle_quiet hphase).symm.trans hpending
  obtain ⟨i, hperforms, hprogress⟩ := hinv.performs hbusy
  obtain ⟨m, r', hm, hrequest, hpending'⟩ := hprogress.outstanding
  obtain rfl : r = r' := Option.some.inj (hpending.symm.trans hpending')
  obtain ⟨ms, hrest⟩ := rest_of_getElem? hm
  have hactivity := activity_goOn hbusy fun rest hinputs => (hmove _ _ hinputs).2 rfl
  have hwaits : m.perform s = .waiting s := by
    rw [perform_waiting hrequest fun x rest hinputs => (hmove x rest hinputs).1, issue_of_pending hpending]
  rw [(hperforms.executes hparams hactivity).step_eq, Command.resume, hrest, run_waiting hwaits]

/-- Settles O52: the request outstanding is that of the next micro-operation, which waits for its answer
(`step_unanswered`); reset is taken (O55). -/
theorem noStepPastAPendingRequest : Obligations.NoStepPastAPendingRequest := by
  unfold Obligations.NoStepPastAPendingRequest
  intro s r hinv hparams hpending
  refine ⟨step_unanswered hinv hparams hpending, fun rest hinputs => ?reset⟩
  case reset =>
    exact ⟨_, resetDiscardsTheCommand s rest hparams (.inr (by simp [hpending])) hinputs, rfl, rfl, rfl, rfl⟩

/-- The first micro-operation of a valid command is a transaction that uses no `T`. -/
theorem first_of_valid {p : Params} {i : Instr} (hcheck : (commandOf p i).check = none) :
    ∃ m ms, (commandOf p i).program = m :: ms ∧
      ((∃ reg v, m = .uW reg (.lit v)) ∨ ∃ reg, m = .uR reg) := by
  cases i with
  | openDevice a => exact ⟨_, _, rfl, .inl ⟨_, _, rfl⟩⟩
  | closeDevice => exact ⟨_, _, rfl, .inr ⟨_, rfl⟩⟩
  | wrreg r v => exact ⟨_, _, rfl, .inl ⟨_, _, rfl⟩⟩
  | rdreg r => exact ⟨_, _, rfl, .inr ⟨_, rfl⟩⟩
  | setbit r b => exact ⟨_, _, rfl, .inr ⟨_, rfl⟩⟩
  | clrbit r b => exact ⟨_, _, rfl, .inr ⟨_, rfl⟩⟩
  | setpos c pos =>
    exact ⟨_, _, program_setpos p (channel_le_of_check_setpos hcheck) pos, .inl ⟨_, _, rfl⟩⟩
  | chwr k c v =>
    rcases channelOperand_cases c with h | h
    · exact ⟨_, _, program_chwr p (channelRegister_operand h k) v, .inl ⟨_, _, rfl⟩⟩
    · cases (check_chwr_invalid h k v).symm.trans hcheck
  | chrd k c =>
    rcases channelOperand_cases c with h | h
    · exact ⟨_, _, program_chrd p (channelRegister_operand h k), .inr ⟨_, rfl⟩⟩
    · cases (check_chrd_invalid h k).symm.trans hcheck

/-- A bus request that stands without an answer, on a port that was free. -/
theorem perform_running_noInput {m : MicroOp} {s : State} {r : Request} {upc : BitVec 4}
    (hrequest : m.request (s.running upc [] []) = .ok r) (hbus : ∀ ms, r ≠ .delay ms) :
    m.perform (s.running upc [] []) =
      .waiting { s with upc := upc, phase := .executing, pending := some r, inputs := [] } := by
  rw [perform_waiting hrequest fun x rest hinputs => by cases hinputs]
  cases r with
  | delay ms => exact absurd rfl (hbus ms)
  | busW a reg v => simp [State.issue, State.running]
  | busR a reg => simp [State.issue, State.running]

/-- Settles O53: the first micro-operation is a transaction that needs `ADDR` alone (`first_of_valid`), which an
admitted command has; without an answer its request stands (`perform_running_noInput`). -/
theorem unansweredCommandStands : Obligations.UnansweredCommandStands := by
  unfold Obligations.UnansweredCommandStands
  intro i s hadmits hcheck haddr hinputs start
  have hstart : (commandOf s.params i).enter s = start := by cases i <;> rfl
  obtain ⟨a, ha⟩ : ∃ a, start.addr = some a := by
    rw [← Option.ne_none_iff_exists', ← hstart, Command.enter_addr]
    rcases haddr with haddr | ⟨a, rfl⟩
    · simp [Option.or_eq_none_iff, haddr]
    · exact Option.some_ne_none a
  have hstands {m : MicroOp} {r : Request} {ms : List MicroOp}
      (hprogram : (commandOf s.params i).program = m :: ms)
      (hrequest : m.request (start.running 0 [] []) = .ok r) (hbus : ∀ ms, r ≠ .delay ms) :
      exec i s = .next { start with upc := 0, phase := .executing, pending := some r } := by
    rw [exec_eq_execute, execute_eq_run_enter hadmits hcheck hinputs, hstart, hprogram,
      run_waiting (perform_running_noInput hrequest hbus), ← hinputs]
  obtain ⟨m, ms, hprogram, hfirst⟩ := first_of_valid hcheck
  have hzero : (commandOf s.params i).program[0]? = some m := by rw [hprogram]; rfl
  rcases hfirst with ⟨reg, v, rfl⟩ | ⟨reg, rfl⟩
  · exact ⟨_, .busW a reg v, hzero, request_uW_lit ha reg v, by simp,
      hstands hprogram (request_uW_lit ha reg v) (by simp)⟩
  · exact ⟨_, .busR a reg, hzero, request_uR ha reg, by simp,
      hstands hprogram (request_uR ha reg) (by simp)⟩

/-! ### After reset -/

/-- Settles O54: an UNOPENED block passes the gate of OPEN alone (`gate_eq_ready`). -/
theorem afterResetOnlyOpenIsAdmitted : Obligations.AfterResetOnlyOpenIsAdmitted := by
  unfold Obligations.AfterResetOnlyOpenIsAdmitted
  have hnotReady : State.reset.lc ≠ .ready := by decide
  refine ⟨?waits, fun i => ⟨fun hadmits => ?onlyOpen, ?openAdmitted⟩, fun i hi => ?refused⟩
  case waits =>
    have hparams : State.reset.params.wf = true := wf_default Config.roundTie
    have hactivity : State.reset.activity = .wait := rfl
    simp [step, hparams, hactivity]
  case onlyOpen =>
    by_contra hopen
    rw [gate_eq_ready (not_exists.1 hopen)] at hadmits
    exact hnotReady (gate_ready_admits.1 hadmits)
  case openAdmitted =>
    rintro ⟨a, rfl⟩
    rfl
  case refused =>
    rw [exec_eq_execute, execute_notUsable (gate_eq_ready hi _) hnotReady]
    rfl

end Sys2Proof.Machine
end

section
/-! The byte forms of the bit utilities (`spec/40_bit_utilities.md` R112, R114), the response word
(`spec/30_encoding.md` R86), and the canonical form of the reference device's memory (`spec/20_memory.md` R71). -/

namespace Sys2Proof.Machine

/-! ### Bytes -/

theorem clearBit_le (v o : Nat) : clearBit v o ≤ v := Nat.sub_le ..

/-- `set_bit` of a byte at one of its bits is a byte (R112). -/
theorem setBit_lt {v o : Nat} (hv : v < 2 ^ 8) (ho : o < 8) : setBit v o < 2 ^ 8 := by
  refine Nat.or_lt_two_pow hv ?_
  rw [Nat.one_shiftLeft]
  exact Nat.pow_lt_pow_right (by decide) ho

/-- Settles O7: neither result leaves the range of a byte (`setBit_lt`, `clearBit_le`), so nothing is truncated;
the bitwise forms are `setBitByte_eq` and `clearBitByte_eq`. -/
theorem byteFormsOfSetAndClear : Obligations.ByteFormsOfSetAndClear := by
  unfold Obligations.ByteFormsOfSetAndClear
  intro b o
  have hclear := clearBit_le b.toNat o.toNat
  exact ⟨Nat.mod_eq_of_lt (setBit_lt b.isLt o.isLt), Nat.mod_eq_of_lt (hclear.trans_lt b.isLt),
    setBitByte_eq b o, clearBitByte_eq b o, hclear⟩

/-- Settles O19: the two halves of the appended word; the codes are those of `ErrorKind.number`. -/
theorem responseWordFields : Obligations.ResponseWordFields := by
  unfold Obligations.ResponseWordFields
  exact ⟨fun code data => ⟨BitVec.extractLsb'_append_eq_left, BitVec.extractLsb'_append_eq_right⟩,
    rfl, rfl, rfl, rfl, rfl, rfl⟩

/-! ### The memory of the reference device -/

theorem store_keeps_wf (p : Params) {d : RefDevice} (h : d.regs.wf = true) (reg v : Byte) :
    (d.store p reg v).regs.wf = true := by
  have hwrite := write_keeps_wf h reg.isLt v
  unfold RefDevice.store
  cases broadcastKind p reg with
  | none => exact hwrite
  | some k =>
    dsimp only
    exact broadcastWrite_keeps_wf k v (Nat.le_refl Config.nChannels) hwrite

theorem answer_keeps_wf (p : Params) {d : RefDevice} (h : d.regs.wf = true) (r : Request) :
    (d.answer p r).2.regs.wf = true := by
  cases r with
  | busW a reg v =>
    by_cases ha : a = d.da
    · rw [ha, answer_busW_same]
      exact store_keeps_wf p h reg v
    · rw [answer_busW_of_ne p ha]
      exact h
  | busR a reg =>
    by_cases ha : a = d.da
    · rw [ha, answer_busR_same]
      exact h
    · rw [answer_busR_of_ne p ha]
      exact h
  | delay ms => exact h

theorem wf_cons_iff {k : Nat} {b : Byte} {m : Memory} : Memory.wf ((k, b) :: m) = true ↔
    (∀ x ∈ m, k < x.1) ∧ k < 256 ∧ b ≠ unlistedByte ∧ m.wf = true := by
  simp only [wf_iff, Memory.Sorted, List.pairwise_cons, List.forall_mem_cons]
  tauto

@[simp] theorem read_cons_same (k : Nat) (b : Byte) (m : Memory) : Memory.read ((k, b) :: m) k = b := if_pos rfl

theorem read_cons_of_ne {k a : Nat} (h : k ≠ a) (b : Byte) (m : Memory) :
    Memory.read ((k, b) :: m) a = Memory.read m a := if_neg h

/-- A memory reads as empty below its first entry. -/
theorem read_cons_of_lt {k a : Nat} {b : Byte} {m : Memory} (h : Memory.wf ((k, b) :: m) = true) (ha : a < k) :
    Memory.read ((k, b) :: m) a = unlistedByte := by
  obtain ⟨hrest, -⟩ := wf_cons_iff.1 h
  exact read_of_lt (List.forall_mem_cons.2 ⟨ha, fun x hx => ha.trans (hrest x hx)⟩)

/-- In two memories that read the same, neither's first entry comes before the other's. -/
theorem not_lt_of_read_eq {k k' : Nat} {b b' : Byte} {m m' : Memory} (h : Memory.wf ((k, b) :: m) = true)
    (h' : Memory.wf ((k', b') :: m') = true)
    (hread : ∀ a, Memory.read ((k, b) :: m) a = Memory.read ((k', b') :: m') a) : ¬ k < k' := by
  intro hlt
  obtain ⟨-, -, hlisted, -⟩ := wf_cons_iff.1 h
  have hfirst := hread k
  rw [read_cons_same, read_cons_of_lt h' hlt] at hfirst
  exact hlisted hfirst

/-- Canonical memories are equal when they read the same. -/
theorem eq_of_read_eq {m m' : Memory} (h : m.wf = true) (h' : m'.wf = true)
    (hread : ∀ a, Memory.read m a = Memory.read m' a) : m = m' := by
  induction m generalizing m' with
  | nil =>
    cases m' with
    | nil => rfl
    | cons x m' =>
      obtain ⟨k, b⟩ := x
      obtain ⟨-, -, hlisted, -⟩ := wf_cons_iff.1 h'
      exact absurd ((hread k).trans (read_cons_same k b m')).symm hlisted
  | cons x m ih =>
    obtain ⟨k, b⟩ := x
    obtain ⟨hfirst, -, hlisted, hm⟩ := wf_cons_iff.1 h
    cases m' with
    | nil => exact absurd ((read_cons_same k b m).symm.trans (hread k)) hlisted
    | cons x' m' =>
      obtain ⟨k', b'⟩ := x'
      obtain rfl : k = k' := Nat.le_antisymm (Nat.le_of_not_lt (not_lt_of_read_eq h' h fun a => (hread a).symm))
        (Nat.le_of_not_lt (not_lt_of_read_eq h h' hread))
      obtain ⟨hfirst', -, -, hm'⟩ := wf_cons_iff.1 h'
      obtain rfl : b = b' := by simpa using hread k
      have hrest : ∀ a, Memory.read m a = Memory.read m' a := fun a => by
        by_cases ha : k = a
        · rw [← ha, read_of_lt hfirst, read_of_lt hfirst']
        · rw [← read_cons_of_ne ha b m, hread a, read_cons_of_ne ha]
      rw [ih hm hm' hrest]

/-- Settles O59: a write keeps the form (`write_keeps_wf`), a read changes nothing; and the first entries of
two memories that read the same are the same entry (`not_lt_of_read_eq`). -/
theorem referenceMemoryStaysCanonical : Obligations.ReferenceMemoryStaysCanonical := by
  unfold Obligations.ReferenceMemoryStaysCanonical
  exact ⟨fun p d r h => answer_keeps_wf p h r, fun m m' => eq_of_read_eq⟩

end Sys2Proof.Machine
end
